-- ==== Sys2Proof/Word.lean ====
section
/-! DEFINITION. The words of SEG7-DRV: an 8-bit byte (R11) and a 24-bit request word (R70).
Every value is unsigned and nothing sign-extends (R11, R12). -/

namespace Sys2Proof

/-- A byte: a bus byte, a segment pattern, the shift register (R11). -/
abbrev Byte := BitVec 8

/-- A request word `w`, 24 bits (R70, `REQ_WIDTH` of R10). -/
abbrev ReqWord := BitVec 24

/-- A digit operand, 4 bits (`DIGIT_WIDTH` of R10). -/
abbrev Digit := BitVec 4

end Sys2Proof
end

