-- ==== Sys2Proof/Config.lean ====
section
/-! DEFINITION. What is fixed for one SEG7-DRV: the constants of R9, the open parameter `SEG_TABLE` (R8),
and the free values the spec leaves open (R10 `DELAY_DRAW`, R187 the order of waiting hosts). A free value is
an opaque constant: no proof can see what it is. -/

namespace Sys2Proof.Config

/-- `CMD_MODE`: write mode with auto-increment addressing (R9). -/
abbrev cmdMode : Byte := 0x40#8

/-- `CMD_BRIGHT`: display on, maximum brightness (R9). -/
abbrev cmdBright : Byte := 0x8F#8

/-- Base of a display-on byte, `0x88 | b` (R78). -/
abbrev displayOnBase : Byte := 0x88#8

/-- `ADDR_BASE`: base of an address byte (R9). -/
abbrev addrBase : Byte := 0xC0#8

/-- `ADDR_MASK`: the mask applied to SEND_DATA's address operand (R9). -/
abbrev addrMask : Byte := 0x0F#8

/-- `DIGIT1_ADDR` (R9, R54). -/
abbrev digit1Addr : Byte := 0x00#8

/-- `DIGIT2_ADDR` (R9, R54). -/
abbrev digit2Addr : Byte := 0x02#8

/-- `DOT_MASK`: the decimal-point bit (R9). -/
abbrev dotMask : Byte := 0x20#8

/-- `BLANK`: the digit code for blank (R9). -/
abbrev blank : Digit := 10#4

/-- `T_MIN`: the minimum hold of every phase and of the settle after a frame, in microseconds (R9). -/
abbrev tMin : Nat := 10

/-- `DIGITS`: the number of display digits (R3, R9). -/
abbrev digits : Nat := 2

/-- `BYTE_BITS`: bits per transmitted byte (R9). -/
abbrev byteBits : Nat := 8

/-- `SEG_TABLE`: the segment pattern of each digit 0 to 9, an open parameter of which nothing is assumed
(R8, R98; assumption log 1). -/
opaque segTable : Fin 10 → Byte

/-- By how many microseconds, whole or not, the `k`-th draw of a delay exceeds its minimum: any value from 0 on, no
upper bound (`DELAY_DRAW` of R10, R14; assumption log 2). -/
opaque delayExtra : Nat → NNRat

/-- Which of two waiting host tasks is taken at the `k`-th draw: `true` is the BlinkScheduler's request.
The order is open (R187; assumption log 3). -/
opaque pickBlink : Nat → Bool

end Sys2Proof.Config
end

