-- ==== Sys2Proof/Syntax.lean ====
section
/-! DEFINITION. The instructions of SEG7-DRV: one constructor per row of spec/opcode_table.json. The first six
are the host's requests (R71, R72); the last four are the bus bytes as the display controller takes them
(R76 to R80). Operands have the widths of R72 and R76, so every operand value of a constructor can be encoded. -/

namespace Sys2Proof

/-- One instruction: a request of the host to SEG7-DRV, or a bus byte at the display controller. -/
inductive Instr where
  /-- ENCODE digit, dot (R95). -/
  | encode (digit : Digit) (dot : Bool)
  /-- INIT (R105). -/
  | init
  /-- SEND_BYTE value (R110). -/
  | sendByte (value : Byte)
  /-- SEND_COMMAND cmd (R114). -/
  | sendCommand (cmd : Byte)
  /-- SEND_DATA addr, value (R118). -/
  | sendData (addr : Byte) (value : Byte)
  /-- DISPLAY_NUMBER d1, d2, dot1, dot2 (R124). -/
  | displayNumber (d1 d2 : Digit) (dot1 dot2 : Bool)
  /-- The byte CMD_MODE as a one-byte frame (R77). -/
  | cmdMode
  /-- The byte CMD_DISPLAY_ON with its brightness level, as a one-byte frame (R78). -/
  | cmdDisplayOn (brightness : BitVec 3)
  /-- The byte ADDR, which opens an addressed-data frame (R79). -/
  | addr (a : BitVec 4)
  /-- A DATA byte, in a later position of an addressed-data frame (R80). -/
  | data (value : Byte)
  deriving DecidableEq, Repr

/-- Where the bits of an instruction stand: in the request port, in the first byte of a frame, or in a later
byte of a frame (R70, R75). -/
inductive Place where
  | request
  | firstByte
  | dataByte
  deriving DecidableEq, Repr

/-- The place of an instruction's bits. -/
def Instr.place : Instr → Place
  | .encode _ _ => .request
  | .init => .request
  | .sendByte _ => .request
  | .sendCommand _ => .request
  | .sendData _ _ => .request
  | .displayNumber _ _ _ _ => .request
  | .cmdMode => .firstByte
  | .cmdDisplayOn _ => .firstByte
  | .addr _ => .firstByte
  | .data _ => .dataByte

/-- The pseudo-request SET_MODE (R89). -/
def Instr.setMode : Instr := .sendCommand 0x40#8

/-- The pseudo-request DISPLAY_ON level, level 0 to 7 (R89). -/
def Instr.displayOn (level : BitVec 3) : Instr := .sendCommand (0x88#8 ||| level.setWidth 8)

/-- The pseudo-request BRIGHT_MAX (R89). -/
def Instr.brightMax : Instr := .sendCommand 0x8F#8

/-- The pseudo-request BLANK_ALL (R89). -/
def Instr.blankAll : Instr := .displayNumber 10#4 10#4 false false

/-- The pseudo-request SHOW d1, d2 (R89). -/
def Instr.showDigits (d1 d2 : Digit) : Instr := .displayNumber d1 d2 false false

end Sys2Proof
end

