-- ==== Sys2Proof/WellFormed.lean ====
section
/-! DEFINITION. Well-formed syntax. The operand widths of R72 and R76 to R80 are in the types of Instr, so what
is left to check is the position: a request word spells one of the six operations of R71, and the bytes of a
frame with a stated meaning are one command byte, or one address byte and at least one data byte
(R81, R148 to R150). A digit above 10 is well-formed: R72 says the field can carry it, and it faults (R173). -/

namespace Sys2Proof

/-- The instruction is a request of the host (R71). -/
def Instr.isRequest (i : Instr) : Bool := i.place == .request

/-- The instruction is a bus byte (R75). -/
def Instr.isBusByte (i : Instr) : Bool := i.place != .request

/-- The instruction is a data byte (R80). -/
def Instr.isData (i : Instr) : Bool := i.place == .dataByte

/-- The instruction can stand alone in a command frame (R148, R149). -/
def Instr.isCommandByte : Instr → Bool
  | .cmdMode => true
  | .cmdDisplayOn _ => true
  | .encode _ _ => false
  | .init => false
  | .sendByte _ => false
  | .sendCommand _ => false
  | .sendData _ _ => false
  | .displayNumber _ _ _ _ => false
  | .addr _ => false
  | .data _ => false

/-- The instruction is an address byte (R79). -/
def Instr.isAddr : Instr → Bool
  | .addr _ => true
  | .encode _ _ => false
  | .init => false
  | .sendByte _ => false
  | .sendCommand _ => false
  | .sendData _ _ => false
  | .displayNumber _ _ _ _ => false
  | .cmdMode => false
  | .cmdDisplayOn _ => false
  | .data _ => false

/-- The bytes of a frame have a meaning stated in the spec: a command frame of R148 or R149, or an addressed
write of R150. -/
def wellFormedFrame : List Instr → Bool
  | [] => false
  | [i] => i.isCommandByte
  | i :: j :: rest => i.isAddr && (j :: rest).all Instr.isData

/-- The requests a host presents are well-formed when each is one of the six operations (R71). -/
def wellFormedProgram (p : List Instr) : Bool := p.all Instr.isRequest

end Sys2Proof
end

