-- ==== Sys2Proof/Decode.lean ====
section
/-! DEFINITION. Decoding and encoding. A request word decodes by R70 to R74. A bus byte decodes by its position
in the frame (R75 to R80), and a closed frame decodes as a whole (R148 to R150, R153). Every rejection has a
name. The encoder is written from the same tables. -/

namespace Sys2Proof

/-- Why bits have no meaning. -/
inductive Reject where
  /-- `op` is `0b110` or `0b111` (R73). -/
  | reservedOp
  /-- A reserved bit of the operation is 1 (R73). -/
  | reservedBits
  /-- A first byte of a frame that R76 does not list (R153). -/
  | undocumentedByte
  /-- The strobe rose inside a byte, `obs.n` is not 0 (R153). -/
  | partialByte
  /-- A frame of no byte (R153). -/
  | emptyFrame
  /-- An address byte with no data byte (R153). -/
  | loneAddress
  /-- A frame of two or more bytes that does not begin with an address byte (R153). -/
  | notAddressed
  deriving DecidableEq, Repr

/-! ## The request word -/

/-- `w[23:21]` (R70). -/
def reqOp (w : ReqWord) : BitVec 3 := w.extractLsb' 21 3

/-- `w[20:16]`, reserved (R70). -/
def reqRsv (w : ReqWord) : BitVec 5 := w.extractLsb' 16 5

/-- Operand A, `w[15:8]` (R70). -/
def reqA (w : ReqWord) : Byte := w.extractLsb' 8 8

/-- Operand B, `w[7:0]` (R70). -/
def reqB (w : ReqWord) : Byte := w.extractLsb' 0 8

/-- The instruction if the reserved bits are 0, the rejection by name otherwise (R73). -/
def whenReservedZero (ok : Bool) (i : Instr) : Except Reject Instr :=
  if ok then .ok i else .error .reservedBits

/-- `decode(w)` of R74: the operation of R71 with the operands of R72, or reserved by R73. -/
def decodeRequest (w : ReqWord) : Except Reject Instr :=
  let rsv := reqRsv w
  let a := reqA w
  let b := reqB w
  if reqOp w = 0b000#3 then
    whenReservedZero (rsv == 0 && a == 0 && b.extractLsb' 5 3 == 0)
      (.encode (b.extractLsb' 0 4) (b.getLsbD 4))
  else if reqOp w = 0b001#3 then
    whenReservedZero (rsv == 0 && a == 0 && b == 0) .init
  else if reqOp w = 0b010#3 then
    whenReservedZero (rsv == 0 && a == 0) (.sendByte b)
  else if reqOp w = 0b011#3 then
    whenReservedZero (rsv == 0 && a == 0) (.sendCommand b)
  else if reqOp w = 0b100#3 then
    whenReservedZero (rsv == 0) (.sendData a b)
  else if reqOp w = 0b101#3 then
    whenReservedZero (rsv == 0 && a.extractLsb' 2 6 == 0)
      (.displayNumber (b.extractLsb' 0 4) (b.extractLsb' 4 4) (a.getLsbD 0) (a.getLsbD 1))
  else .error .reservedOp

/-! ## Bus bytes and frames -/

/-- The meaning of the first byte of a frame (R76 to R79). -/
def decodeFirstByte (b : Byte) : Except Reject Instr :=
  if b = Config.cmdMode then .ok .cmdMode
  else if b.extractLsb' 3 5 = 0b10001#5 then .ok (.cmdDisplayOn (b.extractLsb' 0 3))
  else if b.extractLsb' 4 4 = 0b1100#4 then .ok (.addr (b.extractLsb' 0 4))
  else .error .undocumentedByte

/-- The instructions of a closed frame `(bytes, n)`, in the order they take effect, or the name of the reason
why the frame has no stated meaning (R148 to R150, R153). -/
def decodeFrame (bytes : List Byte) (n : Nat) : Except Reject (List Instr) :=
  if n ≠ 0 then .error .partialByte
  else
    match bytes with
    | [] => .error .emptyFrame
    | [b] =>
      match decodeFirstByte b with
      | .error r => .error r
      | .ok i => if i.isAddr then .error .loneAddress else .ok [i]
    | b :: v :: vs =>
      match decodeFirstByte b with
      | .error _ => .error .notAddressed
      | .ok i => if i.isAddr then .ok (i :: (v :: vs).map .data) else .error .notAddressed

/-! ## Bits at their place -/

/-- The bits of one instruction at their place: a bus byte means what its position makes it mean (R75). -/
inductive Code where
  | request (w : ReqWord)
  | firstByte (b : Byte)
  | dataByte (b : Byte)
  deriving DecidableEq, Repr

/-- Decoding of the bits at a place; total (R74, R75). -/
def decode : Code → Except Reject Instr
  | .request w => decodeRequest w
  | .firstByte b => decodeFirstByte b
  | .dataByte b => .ok (.data b)

/-- The decoder on a word numbered as spec/opcode_table.json numbers it: a `request24` row has 24 bits, a
`busbyte8` row has 8. An 8-bit word alone carries no position: a byte that R76 lists is read as a first byte,
and any other as the data byte it can only be (assumption log 4). -/
def decodeTableWord (nbits w : Nat) : Option Instr :=
  if w < 2 ^ nbits then
    if nbits = 24 then (decodeRequest (BitVec.ofNat 24 w)).toOption
    else if nbits = 8 then
      match decodeFirstByte (BitVec.ofNat 8 w) with
      | .ok i => some i
      | .error _ => some (.data (BitVec.ofNat 8 w))
    else none
  else none

/-! ## The encoder -/

/-- A request word put together from its fields, `(op << 21) | (A << 8) | B` with the reserved bits 0
(R70, R90). -/
def requestWord (op : BitVec 3) (a b : Byte) : ReqWord := op ++ 0#5 ++ a ++ b

/-- The bits of an instruction at their place (R71, R72, R76 to R80). -/
def encode : Instr → Code
  | .encode digit dot => .request (requestWord 0b000#3 0#8 (0#3 ++ BitVec.ofBool dot ++ digit))
  | .init => .request (requestWord 0b001#3 0#8 0#8)
  | .sendByte value => .request (requestWord 0b010#3 0#8 value)
  | .sendCommand cmd => .request (requestWord 0b011#3 0#8 cmd)
  | .sendData addr value => .request (requestWord 0b100#3 addr value)
  | .displayNumber d1 d2 dot1 dot2 =>
      .request (requestWord 0b101#3 (0#6 ++ BitVec.ofBool dot2 ++ BitVec.ofBool dot1) (d2 ++ d1))
  | .cmdMode => .firstByte Config.cmdMode
  | .cmdDisplayOn brightness => .firstByte (0b10001#5 ++ brightness)
  | .addr a => .firstByte (0b1100#4 ++ a)
  | .data value => .dataByte value

/-- The byte of a code that stands in a frame; a request word has none. -/
def Code.busByte? : Code → Option Byte
  | .request _ => none
  | .firstByte b => some b
  | .dataByte b => some b

/-- The bytes of a frame (R81). -/
def encodeFrame (is : List Instr) : List Byte := is.filterMap fun i => (encode i).busByte?

/-! ## The opcode table's match and mask pairs -/

/-- One row of spec/opcode_table.json: `w` selects it exactly when `(w & mask) = match` (R74). -/
structure Row (n : Nat) where
  mnemonic : String
  pattern : BitVec n
  mask : BitVec n
  deriving DecidableEq, Repr

/-- The word selects the row (R74). -/
def Row.selects {n : Nat} (r : Row n) (w : BitVec n) : Bool := w &&& r.mask == r.pattern

def rowEncode : Row 24 := ⟨"ENCODE", 0x000000#24, 0xFFFFE0#24⟩
def rowInit : Row 24 := ⟨"INIT", 0x200000#24, 0xFFFFFF#24⟩
def rowSendByte : Row 24 := ⟨"SEND_BYTE", 0x400000#24, 0xFFFF00#24⟩
def rowSendCommand : Row 24 := ⟨"SEND_COMMAND", 0x600000#24, 0xFFFF00#24⟩
def rowSendData : Row 24 := ⟨"SEND_DATA", 0x800000#24, 0xFF0000#24⟩
def rowDisplayNumber : Row 24 := ⟨"DISPLAY_NUMBER", 0xA00000#24, 0xFFFC00#24⟩
def rowCmdMode : Row 8 := ⟨"CMD_MODE", 0x40#8, 0xFF#8⟩
def rowCmdDisplayOn : Row 8 := ⟨"CMD_DISPLAY_ON", 0x88#8, 0xF8#8⟩
def rowAddr : Row 8 := ⟨"ADDR", 0xC0#8, 0xF0#8⟩
def rowData : Row 8 := ⟨"DATA", 0x00#8, 0x00#8⟩

/-- The six request rows of the table. -/
def requestRows : List (Row 24) :=
  [rowEncode, rowInit, rowSendByte, rowSendCommand, rowSendData, rowDisplayNumber]

/-- The rows of the bytes that can open a frame (R76). -/
def firstByteRows : List (Row 8) := [rowCmdMode, rowCmdDisplayOn, rowAddr]

/-- The mnemonic of an instruction, as spec/opcode_table.json spells it. -/
def Instr.mnemonic : Instr → String
  | .encode _ _ => "ENCODE"
  | .init => "INIT"
  | .sendByte _ => "SEND_BYTE"
  | .sendCommand _ => "SEND_COMMAND"
  | .sendData _ _ => "SEND_DATA"
  | .displayNumber _ _ _ _ => "DISPLAY_NUMBER"
  | .cmdMode => "CMD_MODE"
  | .cmdDisplayOn _ => "CMD_DISPLAY_ON"
  | .addr _ => "ADDR"
  | .data _ => "DATA"

/-! ## The assembler's form of a request -/

/-- The value of a decimal digit character. -/
def decimalDigit (c : Char) : Option Nat :=
  if '0' ≤ c ∧ c ≤ '9' then some (c.toNat - '0'.toNat) else none

/-- The value of a hexadecimal digit character, in either case. -/
def hexDigit (c : Char) : Option Nat :=
  if '0' ≤ c ∧ c ≤ '9' then some (c.toNat - '0'.toNat)
  else if 'a' ≤ c ∧ c ≤ 'f' then some (c.toNat - 'a'.toNat + 10)
  else if 'A' ≤ c ∧ c ≤ 'F' then some (c.toNat - 'A'.toNat + 10)
  else none

/-- The value of digit characters, most significant first, continued from `acc`. -/
def digitsValue (base : Nat) (digit : Char → Option Nat) : Nat → List Char → Option Nat
  | acc, [] => some acc
  | acc, c :: cs =>
    match digit c with
    | none => none
    | some d => digitsValue base digit (acc * base + d) cs

/-- A number of the assembler: decimal, or hexadecimal after `0x` (R88). -/
def parseNumber : List Char → Option Nat
  | [] => none
  | ['0', 'x'] => none
  | '0' :: 'x' :: c :: cs => digitsValue 16 hexDigit 0 (c :: cs)
  | c :: cs => digitsValue 10 decimalDigit 0 (c :: cs)

/-- The operand as `n` bits, if it fits. -/
def fitBits (n v : Nat) : Option (BitVec n) := if v < 2 ^ n then some (BitVec.ofNat n v) else none

/-- A flag operand, written 0 or 1 (R88). -/
def fitFlag : Nat → Option Bool
  | 0 => some false
  | 1 => some true
  | _ => none

/-- The request that a mnemonic and its operands spell, the pseudo-requests of R89 among them (R88). -/
def assembleOperands (mnemonic : String) (operands : List Nat) : Option Instr :=
  match operands with
  | [] =>
    if mnemonic = "INIT" then some .init
    else if mnemonic = "SET_MODE" then some .setMode
    else if mnemonic = "BRIGHT_MAX" then some .brightMax
    else if mnemonic = "BLANK_ALL" then some .blankAll
    else none
  | [x] =>
    if mnemonic = "SEND_BYTE" then (fitBits 8 x).map .sendByte
    else if mnemonic = "SEND_COMMAND" then (fitBits 8 x).map .sendCommand
    else if mnemonic = "DISPLAY_ON" then (fitBits 3 x).map .displayOn
    else none
  | [x, y] =>
    if mnemonic = "ENCODE" then
      match fitBits 4 x, fitFlag y with
      | some digit, some dot => some (.encode digit dot)
      | _, _ => none
    else if mnemonic = "SEND_DATA" then
      match fitBits 8 x, fitBits 8 y with
      | some addr, some value => some (.sendData addr value)
      | _, _ => none
    else if mnemonic = "SHOW" then
      match fitBits 4 x, fitBits 4 y with
      | some d1, some d2 => some (.showDigits d1 d2)
      | _, _ => none
    else none
  | [x, y, z, u] =>
    if mnemonic = "DISPLAY_NUMBER" then
      match fitBits 4 x, fitBits 4 y, fitFlag z, fitFlag u with
      | some d1, some d2, some dot1, some dot2 => some (.displayNumber d1 d2 dot1 dot2)
      | _, _, _, _ => none
    else none
  | _ => none

/-- The request that a mnemonic and the characters of each operand spell (R88). -/
def assemble (mnemonic : String) (operands : List (List Char)) : Option Instr :=
  match operands.mapM parseNumber with
  | none => none
  | some vs => assembleOperands mnemonic vs

/-- The operands of a request in the order the assembler writes them (R88); none for a bus byte, which no
host writes. -/
def Instr.asmOperands : Instr → Option (List Nat)
  | .encode digit dot => some [digit.toNat, dot.toNat]
  | .init => some []
  | .sendByte value => some [value.toNat]
  | .sendCommand cmd => some [cmd.toNat]
  | .sendData a v => some [a.toNat, v.toNat]
  | .displayNumber d1 d2 dot1 dot2 => some [d1.toNat, d2.toNat, dot1.toNat, dot2.toNat]
  | .cmdMode => none
  | .cmdDisplayOn _ => none
  | .addr _ => none
  | .data _ => none

end Sys2Proof
end

