-- ==== Sys2Proof/Machine/State.lean ====
section
/-! DEFINITION. The state of SEG7-DRV as plain data: the block (R21 to R27, R31), its request port and the host
behind it (R32, R33, R187), and the observer with the display controller's documented state (R142 to R147). -/

namespace Sys2Proof.Machine

/-! ## Lines and pin actions -/

/-- The three lines (R14). -/
inductive Pin where
  | stb
  | clk
  | dio
  deriving DecidableEq, Repr

/-- A line's level: `L`, `H`, or `Z` before the line is configured (R15). -/
inductive Level where
  | low
  | high
  | z
  deriving DecidableEq, Repr

/-- Bit 0 drives `L` and bit 1 drives `H` (R14). -/
def Level.ofBit : Bool → Level
  | false => .low
  | true => .high

/-- A pin action still to be performed (R14). -/
inductive PinAction where
  | configIdle
  | setPin (p : Pin) (b : Bool)
  | delayAtLeast (t : Nat)
  deriving DecidableEq, Repr

/-- What the shift register and the bit counter do with an action of the list (R108): nothing, load a byte and
clear the counter, or shift right by one and count. -/
inductive Transfer where
  | keep
  | load (v : Byte)
  | shift
  deriving DecidableEq, Repr

/-- One entry of `s.seq`: a pin action and the register transfer that runs with it (R108; assumption log 5). -/
structure SeqItem where
  act : PinAction
  transfer : Transfer
  deriving DecidableEq, Repr

/-- A pin action performed, as the trace records it (R31): a delay has its minimum `t` and its drawn length `d`,
in microseconds; the length need not be a whole number of them. -/
inductive TraceEntry where
  | configIdle
  | setPin (p : Pin) (b : Bool)
  | delay (t : Nat) (d : Rat)
  deriving DecidableEq, Repr

/-! ## The observer and the display controller -/

/-- A closed frame `(obs.bytes, obs.n)`: its complete bytes and the number of bits after the last of them
(R145). -/
structure Frame where
  bytes : List Byte
  n : Nat
  deriving DecidableEq, Repr

/-- The observer (R142 to R146): `isOpen` is the spec's `obs.open`. -/
structure Obs where
  isOpen : Bool
  bytes : List Byte
  acc : Byte
  n : Nat
  frames : List Frame
  stray : Nat
  deriving DecidableEq, Repr

/-- The one documented data-write mode, `WRITE_AUTOINC` (R147). -/
inductive DevMode where
  | writeAutoinc
  deriving DecidableEq, Repr

/-- The one documented value of `dev.on`, which has no 0 (R147). -/
inductive DevPower where
  | on
  deriving DecidableEq, Repr

/-- Bytes held by address, in one canonical form: see `Memory.wf`. An address not listed holds the mark
`unknown`. -/
abbrev Memory := List Host.Cell

/-- The display controller's documented state (R147). `none` is the spec's mark `unknown`. -/
structure Dev where
  mode : Option DevMode
  power : Option DevPower
  bright : Option (BitVec 3)
  ptr : Option (Fin 17)
  ram : Memory
  deriving DecidableEq, Repr

/-! ## Faults of the block, and the outcomes of a step -/

/-- The fault codes that `s.fault` records (R171). -/
inductive FaultCode where
  | none
  | digitRange
  | notInit
  | reinit
  deriving DecidableEq, Repr

/-- Why the model itself stops. A contract violation is no such stop: R171 says what it does to the state, and
the machine goes on into the state with `s.fault` set. -/
inductive Fault where
  /-- Raised by `readResult` alone, when the host reads `s.result` while it is `none` (R26, K10). Safe: the
  spec gives that read no value. No step raises it. -/
  | resultNotValid
  deriving DecidableEq, Repr

/-- Why the model has no meaning for an instruction. -/
inductive Refusal where
  /-- Raised by an arm of `exec` whose instruction has no meaning in the model yet. Safe. No arm does so. -/
  | notModelled (mnemonic : String)
  deriving DecidableEq, Repr

/-! ## The state -/

/-- The whole state: INVENTORY.md lists each field with its rule and its reset value. -/
structure State where
  /-- `s.sr`, the shift register (R22). -/
  sr : Byte
  /-- `s.bit`, the bit counter, 0 to 8 (R23). -/
  bit : Nat
  /-- `s.seq`, the actions the current request has still to perform (R24). -/
  seq : List SeqItem
  /-- `s.initialized` (R25). -/
  initialized : Bool
  /-- `s.busy` (R25). -/
  busy : Bool
  /-- `s.fault` (R25, R171). -/
  fault : FaultCode
  /-- `s.refused` (R25, R172). -/
  refused : Bool
  /-- `s.result`; `none` is the spec's mark `none` (R26). -/
  result : Option Byte
  /-- `s.cfg`: the lines are configured as outputs (R27). -/
  cfg : Bool
  /-- `s.STB` (R27). -/
  stb : Level
  /-- `s.CLK` (R27). -/
  clk : Level
  /-- `s.DIO` (R27). -/
  dio : Level
  /-- `s.trace`, every pin action performed since reset, oldest first (R31). -/
  trace : List TraceEntry
  /-- The observer `obs` (R142 to R146). -/
  obs : Obs
  /-- The display controller's documented state `dev` (R147). -/
  dev : Dev
  /-- The input `req_valid` (R32). -/
  reqValid : Bool
  /-- The input `req_word` (R32). -/
  reqWord : ReqWord
  /-- The requests the BlinkScheduler has still to present, first one first (R20, R187). -/
  hostBlink : List ReqWord
  /-- The requests the InputController has still to present, first one first (R20, R187). -/
  hostInput : List ReqWord
  /-- The model's own: the instructions of a closed frame that the controller has still to take. A step leaves
  it empty (assumption log 6). -/
  rx : List Instr
  /-- The model's own: how many free values have been drawn (assumption log 2). -/
  draws : Nat
  deriving DecidableEq, Repr

/-- The observer after power-on: no frame is open and none has been seen (R190; assumption log 7). -/
def Obs.reset : Obs :=
  { isOpen := false, bytes := [], acc := 0#8, n := 0, frames := [], stray := 0 }

/-- Every field of the controller is `unknown` (R147, R153). -/
def Dev.unknown : Dev :=
  { mode := none, power := none, bright := none, ptr := none, ram := [] }

/-- The state after power-on, the only reset (R35, R190). -/
def State.reset : State :=
  { sr := 0#8, bit := 0, seq := [], initialized := false, busy := false, fault := .none, refused := false,
    result := none, cfg := false, stb := .z, clk := .z, dio := .z, trace := [], obs := Obs.reset,
    dev := Dev.unknown, reqValid := false, reqWord := 0#24, hostBlink := [], hostInput := [], rx := [],
    draws := 0 }

end Sys2Proof.Machine
end

