-- ==== Sys2Proof/Machine/Flags.lean ====
section
/-! DEFINITION. The status flags and the ports computed from them (R25, R32): when a request can be accepted,
when the block is stopped, and what the host sees. The driver and the encoder have no arithmetic flags
(R101, R128). -/

namespace Sys2Proof.Machine

/-- The number of a fault code on the 2-bit `fault` port (R171). -/
def FaultCode.code : FaultCode → BitVec 2
  | .none => 0#2
  | .digitRange => 1#2
  | .notInit => 2#2
  | .reinit => 3#2

/-- `s.busy <- (s.seq != [])`: the flag that goes with a list of actions (R33). -/
def busyWith (seq : List SeqItem) : Bool := !seq.isEmpty

/-- `req_ready = (s.busy = 0) and (s.fault = 0) and (s.refused = 0)` (R32). -/
def State.reqReady (s : State) : Bool := !s.busy && s.fault == .none && !s.refused

/-- The block is stopped by a fault or a refusal, for good (R177). -/
def State.stopped (s : State) : Bool := s.fault != .none || s.refused

/-- A request is accepted where `req_valid = 1` and `req_ready = 1` (R33). -/
def State.accepts (s : State) : Bool := s.reqValid && s.reqReady

/-- A line as a port: its level and its output enable (R32). -/
structure LinePort where
  level : Level
  enable : Bool
  deriving DecidableEq, Repr

/-- The output ports (R32). `result` is `none` where the port gives no value. -/
structure Ports where
  reqReady : Bool
  initialized : Bool
  busy : Bool
  fault : BitVec 2
  refused : Bool
  resultValid : Bool
  result : Option Byte
  stb : LinePort
  clk : LinePort
  dio : LinePort
  deriving DecidableEq, Repr

/-- What the output ports show (R32). -/
def State.ports (s : State) : Ports :=
  { reqReady := s.reqReady, initialized := s.initialized, busy := s.busy, fault := s.fault.code,
    refused := s.refused, resultValid := s.result.isSome, result := s.result,
    stb := ⟨s.stb, s.cfg⟩, clk := ⟨s.clk, s.cfg⟩, dio := ⟨s.dio, s.cfg⟩ }

/-- The host reads `result`: the value, or the host's error where there is none (R26, R205, K10). -/
def readResult (s : State) : Except Fault Byte :=
  match s.result with
  | some v => .ok v
  | none => .error .resultNotValid

end Sys2Proof.Machine
end

