-- ==== Sys2Proof/Machine/Operands.lean ====
section
/-! DEFINITION. The operand forms: the segment table read (R50, R51), the segment pattern of a digit (R83, R85,
R99), the bytes the driver assembles (R78, R84), and the index of a 4-bit address. -/

namespace Sys2Proof.Machine

/-- `SegRead(d)`: the segment table is read-only, has 11 entries, and an index above 10 does not address it
(R50, R51). -/
def segRead (d : Digit) : Except FaultCode Byte :=
  if h : d.toNat < 10 then .ok (Config.segTable ⟨d.toNat, h⟩)
  else if d = Config.blank then .ok 0x00#8
  else .error .digitRange

/-- The decimal-point bit OR'd into a pattern when `dot` is set (R85, R97). -/
def withDot (p : Byte) (dot : Bool) : Byte := if dot then p ||| Config.dotMask else p

/-- `enc(digit, dot)`, shared by ENCODE and DISPLAY_NUMBER (R99). -/
def enc (digit : Digit) (dot : Bool) : Except FaultCode Byte :=
  match segRead digit with
  | .error c => .error c
  | .ok p => .ok (withDot p dot)

/-- The address byte `0xC0 | (addr & 0x0F)` (R53, R84). -/
def addressByte (addr : Byte) : Byte := Config.addrBase ||| (addr &&& Config.addrMask)

/-- The controller address that a 4-bit address field names, as a value of `dev.ptr` (R79, R147). -/
def ptrOf (a : BitVec 4) : Fin 17 := ⟨a.toNat, by have := a.isLt; omega⟩

end Sys2Proof.Machine
end

