-- ==== Sys2Proof/Machine/Ops.lean ====
section
/-! DEFINITION. The shared operations: recording a fault or a refusal (R171, R172), the controller's display RAM,
the lists of pin actions (R108, R109), performing one pin action with what the observer makes of it (R27, R31,
R140 to R146), the controller's own operations (R148 to R153), and the host's turn at the request port (R33,
R187). -/

namespace Sys2Proof.Machine

/-! ## Single updates of the state -/

def State.withFault (s : State) (c : FaultCode) : State := { s with fault := c }
def State.withRefused (s : State) : State := { s with refused := true }
def State.withResult (s : State) (p : Byte) : State := { s with result := some p }
def State.withInitialized (s : State) : State := { s with initialized := true }
def State.withSeq (s : State) (seq : List SeqItem) : State := { s with seq := seq, busy := busyWith seq }
def State.withRegs (s : State) (sr : Byte) (bit : Nat) : State := { s with sr := sr, bit := bit }
def State.withTrace (s : State) (e : TraceEntry) : State := { s with trace := s.trace ++ [e] }
def State.withObs (s : State) (o : Obs) : State := { s with obs := o }
def State.withDev (s : State) (d : Dev) : State := { s with dev := d }
def State.withRx (s : State) (is : List Instr) : State := { s with rx := is }
def State.withRequest (s : State) (valid : Bool) (w : ReqWord) : State :=
  { s with reqValid := valid, reqWord := w }
def State.withDraw (s : State) : State := { s with draws := s.draws + 1 }

/-- The level of a line. -/
def State.line (s : State) : Pin → Level
  | .stb => s.stb
  | .clk => s.clk
  | .dio => s.dio

/-- Drive a line. -/
def State.withLine (s : State) (p : Pin) (l : Level) : State :=
  match p with
  | .stb => { s with stb := l }
  | .clk => { s with clk := l }
  | .dio => { s with dio := l }

/-- Configure the three lines and set their idle levels, as one action (R27). -/
def State.withIdleLines (s : State) : State :=
  { s with cfg := true, stb := .high, clk := .high, dio := .low }

/-! ## Faults and refusals: the block has no trap entry and no return (R178, R179) -/

/-- `raise Fault(code)`: record the code, queue no pin action, leave every other field unchanged (R171). -/
def raiseFault (c : FaultCode) (s : State) : State := s.withFault c

/-- `refuse(ReservedRequest)`: set `s.refused` and change nothing else (R172). -/
def refuse (s : State) : State := s.withRefused

/-! ## The display RAM -/

/-- The canonical form: addresses strictly rise and each is one of the 16 (R52). A listed byte is never the mark
`unknown`, so no entry equals what an unlisted address reads as. -/
abbrev Memory.wf (m : Memory) : Prop := m.Pairwise (fun c d => c.1 < d.1) ∧ ∀ c ∈ m, c.1 < 16

/-- The byte at an address, or the mark `unknown` (R147). -/
def Memory.read : Memory → Nat → Option Byte
  | [], _ => none
  | c :: m, a => if c.1 = a then some c.2 else Memory.read m a

/-- Store a byte at an address, keeping the addresses strictly rising. -/
def Memory.write : Memory → Nat → Byte → Memory
  | [], a, v => [(a, v)]
  | c :: m, a, v =>
    if a < c.1 then (a, v) :: c :: m
    else if a = c.1 then (a, v) :: m
    else c :: Memory.write m a v

/-! ## The display controller's operations -/

/-- `havoc()`: every field becomes `unknown` (R153). -/
def Dev.havoc (_ : Dev) : Dev := Dev.unknown

/-- The write mode with auto-increment is set; nothing else changes (R148). -/
def Dev.setMode (d : Dev) : Dev := { d with mode := some .writeAutoinc }

/-- The display is on at brightness `b`; nothing else changes (R149). -/
def Dev.setDisplay (d : Dev) (b : BitVec 3) : Dev := { d with power := some .on, bright := some b }

/-- An addressed write first sets the internal write address (R150). -/
def Dev.setPtr (d : Dev) (a : BitVec 4) : Dev := { d with ptr := some (ptrOf a) }

/-- One data byte of an addressed write: stored at `dev.ptr`, which advances by one, in the documented mode and
with an address of the 16; unknown otherwise (R151, R152). -/
def Dev.store (d : Dev) (v : Byte) : Dev :=
  match d.mode, d.ptr with
  | some .writeAutoinc, some p =>
    if h : p.val < 16 then { d with ram := Memory.write d.ram p.val v, ptr := some ⟨p.val + 1, by omega⟩ }
    else d.havoc
  | some .writeAutoinc, none => d.havoc
  | none, _ => d.havoc

/-- The segment byte that a digit shows, where the display is known to be on and the byte is known (R154). -/
def Dev.image (d : Dev) (addr : Byte) : Option Byte :=
  match d.power with
  | none => none
  | some .on => d.ram.read addr.toNat

/-- What digit 1 shows (R154). -/
def State.imageDigit1 (s : State) : Option Byte := s.dev.image Config.digit1Addr

/-- What digit 2 shows (R154). -/
def State.imageDigit2 (s : State) : Option Byte := s.dev.image Config.digit2Addr

/-! ## The lists of pin actions -/

/-- `DelayAtLeast(T_MIN)` with a register transfer. -/
def settleWith (t : Transfer) : SeqItem := ⟨.delayAtLeast Config.tMin, t⟩

/-- The six actions of one bit: the level of DIO is `sr[0]`, and the register is shifted after the last delay
(R108). -/
def bitActions (first : Transfer) (sr : Byte) : List SeqItem :=
  [⟨.setPin .clk false, first⟩, settleWith .keep,
   ⟨.setPin .dio (sr.getLsbD 0), .keep⟩, settleWith .keep,
   ⟨.setPin .clk true, .keep⟩, settleWith .shift]

/-- The actions of `k` more bits, the register standing at `sr`. -/
def bitsFrom : Nat → Byte → List SeqItem
  | 0, _ => []
  | k + 1, sr => bitActions .keep sr ++ bitsFrom k (sr >>> 1)

/-- `byteActions(v)`: eight bits, the register loaded with `v` as the first of them begins (R108). -/
def byteActions (v : Byte) : List SeqItem := bitActions (.load v) v ++ bitsFrom 7 (v >>> 1)

/-- `frameActions(bytes)`: the bytes back to back between a strobe fall and a strobe rise, then the settle delay
(R109). -/
def frameActions (bytes : List Byte) : List SeqItem :=
  ⟨.setPin .stb false, .keep⟩ :: (bytes.flatMap byteActions ++ [⟨.setPin .stb true, .keep⟩, settleWith .keep])

/-- INIT's configuring action (R105). -/
def configAction : SeqItem := ⟨.configIdle, .keep⟩

/-- INIT's action list (R105). -/
def initActions : List SeqItem :=
  configAction :: (frameActions [Config.cmdMode] ++ frameActions [Config.cmdBright])

/-- SEND_DATA's action list (R118). -/
def dataActions (addr value : Byte) : List SeqItem := frameActions [addressByte addr, value]

/-- DISPLAY_NUMBER's action list for the patterns of the two digits: the mode command, digit 1, digit 2
(R124, R125). -/
def renderActions (p1 p2 : Byte) : List SeqItem :=
  frameActions [Config.cmdMode] ++ frameActions [addressByte Config.digit1Addr, p1]
    ++ frameActions [addressByte Config.digit2Addr, p2]

/-- Acceptance of an operation with its action list: `s.seq <- list`, `s.busy <- (s.seq != [])` (R33). -/
def start (seq : List SeqItem) (s : State) : State := s.withSeq seq

/-- A driver request: `NOT_INIT` before INIT, its action list after (R174). -/
def startDriver (seq : List SeqItem) (s : State) : State :=
  if s.initialized then start seq s else raiseFault .notInit s

/-! ## The observer -/

/-- A strobe fall opens a frame (R142). -/
def Obs.openFrame (o : Obs) : Obs := { o with isOpen := true, bytes := [], acc := 0#8, n := 0 }

/-- A clock rise in an open frame samples DIO, least-significant bit first (R143). -/
def Obs.sample (o : Obs) (b : Bool) : Obs :=
  let acc := o.acc ||| ((if b then 1#8 else 0#8) <<< o.n)
  if o.n + 1 = Config.byteBits then { o with bytes := o.bytes ++ [acc], acc := 0#8, n := 0 }
  else { o with acc := acc, n := o.n + 1 }

/-- A clock rise outside a frame is counted (R146). -/
def Obs.countStray (o : Obs) : Obs := { o with stray := o.stray + 1 }

/-- A strobe rise records the open frame and closes it (R145). -/
def Obs.closeFrame (o : Obs) : Obs :=
  { o with isOpen := false, frames := o.frames ++ [⟨o.bytes, o.n⟩] }

/-- What a clock rise does (R143, R146). -/
def clockRise (s : State) : State :=
  if s.obs.isOpen then s.withObs (s.obs.sample (s.dio == .high))
  else (s.withObs s.obs.countStray).withDev s.dev.havoc

/-- What a strobe fall does (R142). -/
def strobeFall (s : State) : State := s.withObs s.obs.openFrame

/-- What a strobe rise does: the closed frame's instructions are handed to the controller, which takes them in
this same step, or its state becomes unknown (R145, R153). With no frame open there is nothing to close. -/
def strobeRise (s : State) : State :=
  if s.obs.isOpen then
    match decodeFrame s.obs.bytes s.obs.n with
    | .ok is => (s.withObs s.obs.closeFrame).withRx is
    | .error _ => (s.withObs s.obs.closeFrame).withDev s.dev.havoc
  else s

/-- The observer's reading of a line that went from `old` to the level of `b`: an edge is a change between `L` and
`H`, and nothing else is one (R141). -/
def observeEdge (p : Pin) (old : Level) (b : Bool) (s : State) : State :=
  match p, old, b with
  | .stb, .high, false => strobeFall s
  | .stb, .low, true => strobeRise s
  | .clk, .low, true => clockRise s
  | .stb, .high, true => s
  | .stb, .low, false => s
  | .stb, .z, _ => s
  | .clk, .high, _ => s
  | .clk, .low, false => s
  | .clk, .z, _ => s
  | .dio, _, _ => s

/-! ## Performing one pin action -/

/-- `SetPin(p, b)`: the trace records it, the line is driven, and the observer sees the edge, if there is one
(R14, R31, R141). -/
def setPin (p : Pin) (b : Bool) (s : State) : State :=
  observeEdge p (s.line p) b ((s.withTrace (.setPin p b)).withLine p (Level.ofBit b))

/-- `ConfigIdle`: no edge on any line (R27, R141). -/
def configIdle (s : State) : State := (s.withTrace .configIdle).withIdleLines

/-- The length drawn for a delay of at least `t`: any `d` from `t` on (R10, R14; assumption log 2). -/
def drawnDelay (t : Nat) (s : State) : Rat := (t : Rat) + (Config.delayExtra s.draws : Rat)

/-- `DelayAtLeast(t)`: the trace records the minimum and the drawn length; no edge (R14, R31). -/
def delayAtLeast (t : Nat) (s : State) : State := (s.withTrace (.delay t (drawnDelay t s))).withDraw

/-- Perform one pin action. -/
def perform (a : PinAction) (s : State) : State :=
  match a with
  | .configIdle => configIdle s
  | .setPin p b => setPin p b s
  | .delayAtLeast t => delayAtLeast t s

/-- The register transfer that runs with an action (R108). -/
def transferRegs (t : Transfer) (s : State) : State :=
  match t with
  | .keep => s
  | .load v => s.withRegs v 0
  | .shift => s.withRegs (s.sr >>> 1) (s.bit + 1)

/-- One sequencer step removes the head of `s.seq` and performs it; the step that empties `s.seq` clears
`s.busy` (R24, R33). -/
def performHead (s : State) : State :=
  match s.seq with
  | [] => s
  | m :: rest => perform m.act (transferRegs m.transfer (s.withSeq rest))

/-! ## The host's turn at the request port -/

/-- Each host task presents its next request when the port is free. When both have one waiting, which is
presented is open (R33, R187; assumption log 3). -/
def hostPresent (s : State) : State :=
  if s.reqValid then s
  else
    match s.hostBlink, s.hostInput with
    | [], [] => s
    | w :: ws, [] => { s with reqValid := true, reqWord := w, hostBlink := ws }
    | [], w :: ws => { s with reqValid := true, reqWord := w, hostInput := ws }
    | w :: ws, v :: vs =>
      if Config.pickBlink s.draws then
        { s with reqValid := true, reqWord := w, hostBlink := ws, draws := s.draws + 1 }
      else { s with reqValid := true, reqWord := v, hostInput := vs, draws := s.draws + 1 }

/-- The host holds `req_valid` until the request is accepted, and drops it then (R170, R205). -/
def consumeRequest (s : State) : State := s.withRequest false s.reqWord

end Sys2Proof.Machine
end

