-- ==== Sys2Proof/Machine/Driver.lean ====
section
/-! DEFINITION. The SerialDisplayDriver's requests (R105, R110, R114, R118, R124). Each fixes its whole action list
when it is accepted, and the sequencer performs it one action a step (R24, R33). -/

namespace Sys2Proof.Machine

/-- INIT (R105): REINIT if it was already accepted (R175). -/
def execInit (s : State) : Host.Outcome State Fault Refusal :=
  if s.initialized then .next (raiseFault .reinit s)
  else .next (start initActions s.withInitialized)

/-- SEND_BYTE value (R110): eight bits on DIO without touching STB. -/
def execSendByte (value : Byte) (s : State) : Host.Outcome State Fault Refusal :=
  .next (startDriver (byteActions value) s)

/-- SEND_COMMAND cmd (R114): a one-byte frame; any value is sent. -/
def execSendCommand (cmd : Byte) (s : State) : Host.Outcome State Fault Refusal :=
  .next (startDriver (frameActions [cmd]) s)

/-- SEND_DATA addr, value (R118): an addressed-data frame; the high address bits are masked away. -/
def execSendData (addr value : Byte) (s : State) : Host.Outcome State Fault Refusal :=
  .next (startDriver (dataActions addr value) s)

/-- DISPLAY_NUMBER d1, d2, dot1, dot2 (R124): NOT_INIT first, then DIGIT_RANGE for `d1` and for `d2` (R176), and
no pin action on a fault. -/
def execDisplayNumber (d1 d2 : Digit) (dot1 dot2 : Bool) (s : State) :
    Host.Outcome State Fault Refusal :=
  if s.initialized then
    match enc d1 dot1 with
    | .error c => .next (raiseFault c s)
    | .ok p1 =>
      match enc d2 dot2 with
      | .error c => .next (raiseFault c s)
      | .ok p2 => .next (start (renderActions p1 p2) s)
  else .next (raiseFault .notInit s)

end Sys2Proof.Machine
end

