-- ==== Sys2Proof/Machine/Encoder.lean ====
section
/-! DEFINITION. The SegmentEncoder's request, ENCODE (R95). -/

namespace Sys2Proof.Machine

/-- ENCODE digit, dot (R95): the pattern into `s.result`, no pin action; DIGIT_RANGE above 10, and then
`s.result` keeps its value. It needs no INIT. -/
def execEncode (digit : Digit) (dot : Bool) (s : State) : Host.Outcome State Fault Refusal :=
  match enc digit dot with
  | .error c => .next (raiseFault c s)
  | .ok p => .next (start [] (s.withResult p))

end Sys2Proof.Machine
end

