-- ==== Sys2Proof/Machine/Receiver.lean ====
section
/-! DEFINITION. The bus bytes at the display controller (R76 to R80), with the effects that R148 to R152 give the
frames they form: a frame's instructions take effect one after another when the frame closes. -/

namespace Sys2Proof.Machine

/-- CMD_MODE as a one-byte frame (R77, R148). -/
def execCmdMode (s : State) : Host.Outcome State Fault Refusal := .next (s.withDev s.dev.setMode)

/-- CMD_DISPLAY_ON as a one-byte frame (R78, R149). -/
def execCmdDisplayOn (brightness : BitVec 3) (s : State) : Host.Outcome State Fault Refusal :=
  .next (s.withDev (s.dev.setDisplay brightness))

/-- ADDR opens an addressed write and sets the internal write address (R79, R150). -/
def execAddr (a : BitVec 4) (s : State) : Host.Outcome State Fault Refusal :=
  .next (s.withDev (s.dev.setPtr a))

/-- DATA is stored at the internal write address, which then advances (R80, R151). -/
def execData (value : Byte) (s : State) : Host.Outcome State Fault Refusal :=
  .next (s.withDev (s.dev.store value))

end Sys2Proof.Machine
end

