-- ==== Sys2Proof/Machine/Dispatch.lean ====
section
/-! DEFINITION. One arm per instruction, each one call of its meaning. -/

namespace Sys2Proof.Machine

def exec (i : Instr) (s : State) : Host.Outcome State Fault Refusal :=
  match i with
  | .encode digit dot => Sys2Proof.Machine.execEncode digit dot s
  | .init => Sys2Proof.Machine.execInit s
  | .sendByte value => Sys2Proof.Machine.execSendByte value s
  | .sendCommand cmd => Sys2Proof.Machine.execSendCommand cmd s
  | .sendData addr value => Sys2Proof.Machine.execSendData addr value s
  | .displayNumber d1 d2 dot1 dot2 => Sys2Proof.Machine.execDisplayNumber d1 d2 dot1 dot2 s
  | .cmdMode => Sys2Proof.Machine.execCmdMode s
  | .cmdDisplayOn brightness => Sys2Proof.Machine.execCmdDisplayOn brightness s
  | .addr a => Sys2Proof.Machine.execAddr a s
  | .data value => Sys2Proof.Machine.execData value s

end Sys2Proof.Machine
end

