-- ==== Sys2Proof/Machine/Fetch.lean ====
section
/-! DEFINITION. What a step is made of: the controller takes the instructions of a closed frame (R145), the
sequencer performs one pin action (R33), or the block accepts the presented request (R33, R170). -/

namespace Sys2Proof.Machine

/-- The instructions of a closed frame take effect in order (R145, R151). -/
def receiveAll : List Instr → State → Host.Outcome State Fault Refusal
  | [], s => .next s
  | i :: is, s =>
    match exec i s with
    | .next t => receiveAll is t
    | .fault r => .fault r
    | .refused r => .refused r

/-- The controller takes whatever a closed frame has handed to it. -/
def takeFrame (s : State) : Host.Outcome State Fault Refusal := receiveAll s.rx (s.withRx [])

/-- One pin action, and what it makes the controller do in the same step (R33, R60, R145). -/
def sequencerStep (s : State) : Host.Outcome State Fault Refusal := takeFrame (performHead s)

/-- `accept(w)`: a reserved word is refused, any other runs its operation (R33, R73). -/
def acceptRequest (s : State) : Host.Outcome State Fault Refusal :=
  match decodeRequest s.reqWord with
  | .error _ => .next (refuse (consumeRequest s))
  | .ok i => exec i (consumeRequest s)

/-- The block's part of a step, after the host's turn: perform an action while busy, accept a request when one is
presented and the block is ready, and otherwise stay as it is: idle, or stopped for good (R33, R177, R189). -/
def blockStep (s : State) : Host.Outcome State Fault Refusal :=
  if s.busy then sequencerStep s
  else if s.accepts then acceptRequest s
  else .next s

/-- One step of the whole. -/
def stepState (s : State) : Host.Outcome State Fault Refusal :=
  match s.rx with
  | [] => blockStep (hostPresent s)
  | _ :: _ => takeFrame s

/-- `s` with one instruction's bits placed where the next step takes its instruction: a request word at the port
of a ready block, a bus byte at the controller (assumption log 4, 6, 8). -/
def placeFetchWord (s : State) (nbits w : Nat) : State :=
  let t := { s with seq := [], busy := false, fault := .none, refused := false, rx := [] }
  if nbits = 24 then t.withRequest true (BitVec.ofNat 24 w)
  else t.withRx (decodeTableWord nbits w).toList

end Sys2Proof.Machine
end

