-- ==== Sys2Proof/Machine/Step.lean ====
section
/-! DEFINITION. The step of the machine, and how the host places one instruction for the next step to run. -/

namespace Sys2Proof.Machine

/-- One step: the host's turn at the port, then one action of the sequencer, or the acceptance of one request. -/
def step (s : State) : Host.Outcome State Fault Refusal := stepState s

/-- `s` with the instruction whose bits are `w` placed where the next step takes its instruction. -/
def State.withFetchWord (s : State) (nbits w : Nat) : State := placeFetchWord s nbits w

end Sys2Proof.Machine
end

