-- ==== Sys2Proof/Safety.lean ====
section
/-! DEFINITION. The terms in which claims are stated: a run that ends well (R204), the contract of the host (R197,
R199), the pin actions as R108 and R109 list them, the trace replayed by the observer (R140), and the
invariant of every run (R36). -/

namespace Sys2Proof

open Machine

/-! ## Runs and the host -/

/-- The host presents no further request: neither task has one waiting (R204; assumption log 16). -/
def noFurtherRequest (s : State) : Prop := s.hostBlink = [] ∧ s.hostInput = []

/-- A state in which the run ends well: not busy; no request is presented, or the host presents no further request;
no fault and no refusal (R204). -/
def endsWell (s : State) : Prop :=
  s.busy = false ∧ (s.reqValid = false ∨ noFurtherRequest s) ∧ s.fault = .none ∧ s.refused = false

/-- The block is between requests and can accept one (R32, R33). -/
def ready (s : State) : Prop :=
  s.rx = [] ∧ s.busy = false ∧ s.fault = .none ∧ s.refused = false

/-- `n` steps, stopping at the first stop. -/
def steps : Nat → State → Host.Outcome State Fault Refusal
  | 0, s => .next s
  | k + 1, s =>
    match step s with
    | .next t => steps k t
    | .fault r => .fault r
    | .refused r => .refused r

/-- The request is accepted at `s`, and `u` is the state after its last pin action (R33). -/
def completes (i : Instr) (s u : State) : Prop :=
  ∃ t, exec i s = .next t ∧ steps t.seq.length t = .next u

/-- The requests are accepted one after another, each after the last pin action of the one before it (R65). -/
def completesAll : List Instr → State → State → Prop
  | [], s, u => u = s
  | i :: is, s, u => ∃ m, completes i s m ∧ completesAll is m u

/-- The request word spells no operation (R73). -/
def reservedWord (w : ReqWord) : Prop :=
  reqOp w = 6#3 ∨ reqOp w = 7#3 ∨ reqRsv w ≠ 0#5 ∨
    (reqOp w = 0#3 ∧ (reqA w ≠ 0#8 ∨ (reqB w).extractLsb' 5 3 ≠ 0#3)) ∨
    (reqOp w = 1#3 ∧ (reqA w ≠ 0#8 ∨ reqB w ≠ 0#8)) ∨
    ((reqOp w = 2#3 ∨ reqOp w = 3#3) ∧ reqA w ≠ 0#8) ∨
    (reqOp w = 5#3 ∧ (reqA w).extractLsb' 2 6 ≠ 0#6)

/-- The contract violation that a request is, by the block's `initialized` flag, in the order of R176. -/
def contractFault (initialized : Bool) : Instr → Option FaultCode
  | .encode digit _ => if 10 < digit.toNat then some .digitRange else none
  | .init => if initialized then some .reinit else none
  | .sendByte _ => if initialized then none else some .notInit
  | .sendCommand _ => if initialized then none else some .notInit
  | .sendData _ _ => if initialized then none else some .notInit
  | .displayNumber d1 d2 _ _ =>
    if initialized = false then some .notInit
    else if 10 < d1.toNat ∨ 10 < d2.toNat then some .digitRange
    else none
  | .cmdMode => none
  | .cmdDisplayOn _ => none
  | .addr _ => none
  | .data _ => none

/-- A request whose every frame has a stated meaning: any but SEND_BYTE and an undocumented SEND_COMMAND
(R76, R157). -/
def documented : Instr → Bool
  | .encode _ _ => true
  | .init => true
  | .sendByte _ => false
  | .sendCommand cmd => cmd == 0x40#8 || cmd.extractLsb' 3 5 == 0b10001#5
  | .sendData _ _ => true
  | .displayNumber _ _ _ _ => true
  | .cmdMode => false
  | .cmdDisplayOn _ => false
  | .addr _ => false
  | .data _ => false

/-- The brightness after documented requests, from the level `b` on: a display-control command sets it (R149,
R157). -/
def brightnessAfter : BitVec 3 → List Instr → BitVec 3
  | b, [] => b
  | b, .sendCommand cmd :: is =>
    brightnessAfter (if cmd.extractLsb' 3 5 = 0b10001#5 then cmd.extractLsb' 0 3 else b) is
  | b, _ :: is => brightnessAfter b is

/-- The render request of the source's host for a number and any dots: `number/10` and `number%10`
(R199, R206). -/
def renderRequest (number : Nat) (dot1 dot2 : Bool) : Instr :=
  .displayNumber (BitVec.ofNat 4 (number / 10)) (BitVec.ofNat 4 (number % 10)) dot1 dot2

/-- The requests the source's host issues: INIT, the render of a number in `[0,99]`, and the blank render
(R206, R207). -/
def sourceHostIssues (i : Instr) : Prop :=
  i = .init ∨ (∃ number dot1 dot2, number ≤ 99 ∧ i = renderRequest number dot1 dot2) ∨
    ∃ dot1 dot2, i = .displayNumber Config.blank Config.blank dot1 dot2

/-! ## Pin actions as the rules list them -/

/-- The pin actions of one byte: for each bit `i` from 0 to 7 three phases of at least `T_MIN` (R108). -/
def pinsOfByte (v : Byte) : List PinAction :=
  (List.range 8).flatMap fun i =>
    [.setPin .clk false, .delayAtLeast 10, .setPin .dio (v.getLsbD i), .delayAtLeast 10,
     .setPin .clk true, .delayAtLeast 10]

/-- The pin actions of one frame (R109). -/
def pinsOfFrame (bytes : List Byte) : List PinAction :=
  [.setPin .stb false] ++ bytes.flatMap pinsOfByte ++ [.setPin .stb true, .delayAtLeast 10]

/-- The pin actions of a list of actions, without their register transfers. -/
def pins (seq : List SeqItem) : List PinAction := seq.map SeqItem.act

/-- The levels that a list of pin actions drives DIO to, in order. -/
def dioBits : List PinAction → List Bool
  | [] => []
  | .setPin .dio b :: rest => b :: dioBits rest
  | .setPin .stb _ :: rest => dioBits rest
  | .setPin .clk _ :: rest => dioBits rest
  | .configIdle :: rest => dioBits rest
  | .delayAtLeast _ :: rest => dioBits rest

/-- The number of delays in a list of pin actions (R203). -/
def delayCount : List PinAction → Nat
  | [] => 0
  | .delayAtLeast _ :: rest => delayCount rest + 1
  | .configIdle :: rest => delayCount rest
  | .setPin _ _ :: rest => delayCount rest

/-- The sum of the minima of the delays in a list of pin actions, in microseconds (R203). -/
def minDuration : List PinAction → Nat
  | [] => 0
  | .delayAtLeast t :: rest => t + minDuration rest
  | .configIdle :: rest => minDuration rest
  | .setPin _ _ :: rest => minDuration rest

/-- The action is a delay. -/
def isDelay : PinAction → Bool
  | .delayAtLeast _ => true
  | .configIdle => false
  | .setPin _ _ => false

/-- The pairs of consecutive actions with no delay between them (R66). -/
def undelayedPairs : List PinAction → List (PinAction × PinAction)
  | [] => []
  | [_] => []
  | a :: b :: rest =>
    if isDelay a || isDelay b then undelayedPairs (b :: rest)
    else (a, b) :: undelayedPairs (b :: rest)

/-- The trace entry that a performed action leaves: a delay's length is some `d` at or above its minimum
(R14, R31). -/
def records (a : PinAction) (e : TraceEntry) : Prop :=
  match a with
  | .configIdle => e = .configIdle
  | .setPin p b => e = .setPin p b
  | .delayAtLeast t => ∃ d : Rat, (t : Rat) ≤ d ∧ e = .delay t d

/-! ## The trace replayed -/

/-- One trace entry, replayed on a state: the lines follow it, the observer reads it, and the controller takes a
frame that it closes (R140). -/
def replayEntry (e : TraceEntry) (s : State) : Host.Outcome State Fault Refusal :=
  match e with
  | .configIdle => takeFrame (configIdle s)
  | .setPin p b => takeFrame (setPin p b s)
  | .delay t d => takeFrame (s.withTrace (.delay t d))

/-- A trace replayed from a state, oldest entry first. -/
def replay : List TraceEntry → State → Host.Outcome State Fault Refusal
  | [], s => .next s
  | e :: es, s =>
    match replayEntry e s with
    | .next t => replay es t
    | .fault r => .fault r
    | .refused r => .refused r

/-- The lines, the observer and the controller are what the replay of the trace gives (R140). -/
def agreesWithReplay (s : State) : Prop :=
  ∃ u, replay s.trace State.reset = .next u ∧
    u.cfg = s.cfg ∧ u.stb = s.stb ∧ u.clk = s.clk ∧ u.dio = s.dio ∧ u.obs = s.obs ∧ u.dev = s.dev

/-! ## The invariant -/

/-- What the remaining actions depend on: the two framing lines and the two registers. -/
structure Wire where
  cfg : Bool
  stb : Level
  clk : Level
  sr : Byte
  bit : Nat
  deriving DecidableEq, Repr

/-- The wire and the registers of a state. -/
def wireOf (s : State) : Wire := ⟨s.cfg, s.stb, s.clk, s.sr, s.bit⟩

/-- The registers after a transfer (R108). -/
def Wire.transfer (w : Wire) : Transfer → Wire
  | .keep => w
  | .load v => { w with sr := v, bit := 0 }
  | .shift => { w with sr := w.sr >>> 1, bit := w.bit + 1 }

/-- The remaining actions keep the driver's discipline. The lines are configured once and first (R107). Every delay
is at least `T_MIN` (R194). STB changes only with CLK high (R130). DIO changes only with CLK low, to the bit
`sr[0]` (R22, R111). The counter stays within 0 to 8 (R23). Configured lines end with STB and CLK high
(R28). -/
def legalScript : Wire → List SeqItem → Bool
  | w, [] => !w.cfg || (w.stb == .high && w.clk == .high)
  | w, m :: rest =>
    let r := w.transfer m.transfer
    decide (r.bit ≤ 8) &&
      match m.act with
      | .configIdle => !r.cfg && legalScript { r with cfg := true, stb := .high, clk := .high } rest
      | .delayAtLeast t => r.cfg && t == Config.tMin && legalScript r rest
      | .setPin .stb b =>
        r.cfg && r.clk == .high && r.stb == Level.ofBit (!b) && legalScript { r with stb := Level.ofBit b } rest
      | .setPin .clk b => r.cfg && r.clk == Level.ofBit (!b) && legalScript { r with clk := Level.ofBit b } rest
      | .setPin .dio b => r.cfg && r.clk == .low && b == r.sr.getLsbD 0 && legalScript r rest

/-- A delay of the trace has the minimum `T_MIN` and a length at or above it (R31, R158). -/
def meetsMinimum : TraceEntry → Prop
  | .configIdle => True
  | .setPin _ _ => True
  | .delay t d => t = Config.tMin ∧ (t : Rat) ≤ d

/-- The invariant of every run: the five of R36, and what they rest on. -/
structure RunInv (s : State) : Prop where
  /-- A closed frame is taken in the step that closes it (R145). -/
  rx_empty : s.rx = []
  /-- R36, first. -/
  busy_iff : s.busy = true ↔ s.seq ≠ []
  /-- R36, second. -/
  cfg_iff : s.cfg = false ↔ TraceEntry.configIdle ∉ s.trace
  /-- R36, third. -/
  driven : s.cfg = true → s.stb ≠ .z ∧ s.clk ≠ .z ∧ s.dio ≠ .z
  /-- R36, fourth. -/
  stopped_idle : s.fault ≠ .none ∨ s.refused = true → s.busy = false
  /-- R36, fifth. -/
  idle_high : s.busy = false → s.cfg = true → s.stb = .high ∧ s.clk = .high
  /-- Before the lines are configured all three are `Z` (R27). -/
  undriven : s.cfg = false → s.stb = .z ∧ s.clk = .z ∧ s.dio = .z
  /-- Before INIT nothing is configured and nothing is to be performed (R107). -/
  before_init : s.initialized = false → s.cfg = false ∧ s.seq = []
  /-- After INIT's acceptance the lines are configured, or are about to be (R105). -/
  after_init : s.initialized = true → s.cfg = true ∨ ∃ rest, s.seq = configAction :: rest
  /-- The remaining actions keep the driver's discipline. -/
  script : legalScript (wireOf s) s.seq = true
  /-- The bit counter ranges from 0 to 8 (R23). -/
  bit_le : s.bit ≤ 8
  /-- A frame is open exactly while STB is low (R142). -/
  open_iff : s.obs.isOpen = true ↔ s.stb = .low
  /-- The observer holds fewer than eight bits of the current byte (R143). -/
  bits_lt : s.obs.n < 8
  /-- The display RAM keeps its canonical form. -/
  ram_wf : Memory.wf s.dev.ram
  /-- No delay was elided or shortened (R194). -/
  minima : ∀ e ∈ s.trace, meetsMinimum e

/-- The step performs the rise of STB that closes the frame `(bytes, n)`, with the actions `rest` still to
follow (R145). -/
def closing (s : State) (bytes : List Byte) (n : Nat) (rest : List SeqItem) : Prop :=
  s.rx = [] ∧ s.busy = true ∧ s.seq = ⟨.setPin .stb true, .keep⟩ :: rest ∧ s.stb = .low ∧
    s.obs.isOpen = true ∧ s.obs.bytes = bytes ∧ s.obs.n = n

/-- The bytes `vs` stand at the addresses from `a` on, and every other address reads as in `old`. -/
def storedFrom (old new : Memory) (a : Nat) (vs : List Byte) : Prop :=
  (∀ j, (h : j < vs.length) → Memory.read new (a + j) = some vs[j]) ∧
    ∀ x, (x < a ∨ a + vs.length ≤ x) → Memory.read new x = Memory.read old x

/-- What performing the action makes of the lines, from `s` to `t`: SetPin drives its line and leaves the others,
ConfigIdle configures the three and sets their idle levels, a delay changes none (R14, R27). -/
def linesAfter (a : PinAction) (s t : State) : Prop :=
  match a with
  | .configIdle => t.cfg = true ∧ t.stb = .high ∧ t.clk = .high ∧ t.dio = .low
  | .setPin p b => t.cfg = s.cfg ∧ t.line p = Level.ofBit b ∧ ∀ q, q ≠ p → t.line q = s.line q
  | .delayAtLeast _ => t.cfg = s.cfg ∧ t.stb = s.stb ∧ t.clk = s.clk ∧ t.dio = s.dio

/-- What a transfer makes of the shift register and the counter, from `s` to `t` (R108). -/
def registersAfter (x : Transfer) (s t : State) : Prop :=
  match x with
  | .keep => t.sr = s.sr ∧ t.bit = s.bit
  | .load v => t.sr = v ∧ t.bit = 0
  | .shift => t.sr = s.sr >>> 1 ∧ t.bit = s.bit + 1

/-- What no pin action of a request in progress changes: the flags and the result. -/
def sameFlags (s t : State) : Prop :=
  t.initialized = s.initialized ∧ t.fault = s.fault ∧ t.refused = s.refused ∧ t.result = s.result

end Sys2Proof
end

