-- ==== Sys2Proof/Certificates/Slice0/Obligations.lean ====
section
/-! DEFINITION. The statements about SEG7-DRV, for the provers. Each docstring names the rules it formalises. -/

open Sys2Proof Sys2Proof.Machine

/-! ## Encoding -/

/-- Every instruction's encoding decodes to it, with every operand at every value (R70 to R72, R76 to R80). -/
def Obligations.DecodeOfEncode : Prop := ∀ i : Instr, decode (encode i) = .ok i

/-- Bits at a place that decode to an instruction are that instruction's encoding: no two codes share a meaning. -/
def Obligations.EncodeOfDecode : Prop := ∀ (c : Code) (i : Instr), decode c = .ok i → encode i = c

/-- The frames with a stated meaning are the well-formed ones, and their bytes and their instructions determine
each other (R148 to R150). -/
def Obligations.FrameDecodeEncode : Prop :=
  (∀ is, wellFormedFrame is = true → decodeFrame (encodeFrame is) 0 = .ok is) ∧
    ∀ bytes n is, decodeFrame bytes n = .ok is → n = 0 ∧ wellFormedFrame is = true ∧ encodeFrame is = bytes

/-- R74: `decode` is total, agrees with the match and mask pairs of the opcode table, and the request rows are
pairwise disjoint. -/
def Obligations.DecodeFollowsTable : Prop :=
  (∀ w, ∀ r ∈ requestRows, r.selects w = true ↔ ∃ i, decodeRequest w = .ok i ∧ i.mnemonic = r.mnemonic) ∧
    (∀ w, ∀ r ∈ requestRows, ∀ q ∈ requestRows, r.selects w = true → q.selects w = true → r = q) ∧
    (∀ w, (∃ e, decodeRequest w = .error e) ↔ ∀ r ∈ requestRows, r.selects w = false) ∧
    (∀ w, (∃ e, decodeRequest w = .error e) ↔ reservedWord w) ∧
    ∀ w i, decodeRequest w = .ok i → encode i = .request w

/-- R73, R172: a reserved word, presented to a block that can accept, is refused: `s.refused` is set and nothing
else of the block changes (`req_valid` is the host's input, of which the statement says nothing). -/
def Obligations.ReservedWordRefused : Prop :=
  ∀ s, ready s → s.reqValid = true → reservedWord s.reqWord →
    ∃ v, step s = .next { s with refused := true, reqValid := v }

/-- R90: the request words are `(op << 21) | (A << 8) | B`, and its three examples. -/
def Obligations.RequestWords : Prop :=
  (∀ (op : BitVec 3) (a b : Byte),
      requestWord op a b = (op.setWidth 24 <<< 21) ||| (a.setWidth 24 <<< 8) ||| b.setWidth 24) ∧
    (∀ i, i.isRequest = true → ∃ op a b, encode i = .request (requestWord op a b)) ∧
    encode .init = .request 0x200000#24 ∧
    encode (.displayNumber 4#4 5#4 false false) = .request 0xA00054#24 ∧
    encode (.sendData 0x1F#8 0xA5#8) = .request 0x801FA5#24

/-- Words written out from R71, R72 and R76 to R80 decode to the instructions they stand for. -/
def Obligations.DecodeSamples : Prop :=
  decode (.request 0x00001A#24) = .ok (.encode 10#4 true) ∧
    decode (.request 0x200000#24) = .ok .init ∧
    decode (.request 0x40008F#24) = .ok (.sendByte 0x8F#8) ∧
    decode (.request 0x600040#24) = .ok (.sendCommand 0x40#8) ∧
    decode (.request 0x801FA5#24) = .ok (.sendData 0x1F#8 0xA5#8) ∧
    decode (.request 0xA00299#24) = .ok (.displayNumber 9#4 9#4 false true) ∧
    decode (.firstByte 0x40#8) = .ok .cmdMode ∧
    decode (.firstByte 0x8D#8) = .ok (.cmdDisplayOn 5#3) ∧
    decode (.firstByte 0xC2#8) = .ok (.addr 2#4) ∧
    decode (.dataByte 0x40#8) = .ok (.data 0x40#8)

/-- The assembler reads back what it writes for every request, and expands the pseudo-requests (R88, R89). -/
def Obligations.AssemblerReadsBack : Prop :=
  (∀ i vs, i.asmOperands = some vs → assembleOperands i.mnemonic vs = some i) ∧
    assembleOperands "SET_MODE" [] = some (.sendCommand 0x40#8) ∧
    (∀ l, l < 8 → assembleOperands "DISPLAY_ON" [l] = some (.sendCommand (0x88#8 ||| BitVec.ofNat 8 l))) ∧
    assembleOperands "BRIGHT_MAX" [] = some (.sendCommand 0x8F#8) ∧
    assembleOperands "BLANK_ALL" [] = some (.displayNumber 10#4 10#4 false false) ∧
    ∀ d1 d2 : Digit, assembleOperands "SHOW" [d1.toNat, d2.toNat] = some (.displayNumber d1 d2 false false)

/-! ## The segment encoder -/

/-- R100, R96: the complete function table of `enc`. -/
def Obligations.EncoderTable : Prop :=
  (∀ (d : Digit) (h : d.toNat < 10),
      enc d false = .ok (Config.segTable ⟨d.toNat, h⟩) ∧
        enc d true = .ok (Config.segTable ⟨d.toNat, h⟩ ||| 0x20#8)) ∧
    enc 10#4 false = .ok 0x00#8 ∧ enc 10#4 true = .ok 0x20#8 ∧
    ∀ (d : Digit) dot, 10 < d.toNat → enc d dot = .error .digitRange

/-- R97, R85: the dot bit is OR'd into the pattern, and changes nothing exactly where bit 5 is already 1. -/
def Obligations.DotLaw : Prop :=
  (∀ (d : Digit) p, enc d false = .ok p → enc d true = .ok (p ||| 0x20#8)) ∧
    enc 10#4 true = .ok 0x20#8 ∧
    (∀ (d : Digit) dot p, segRead d = .ok p → enc d dot = .ok (p ||| if dot then 0x20#8 else 0x00#8)) ∧
    ∀ (d : Digit) p, segRead d = .ok p → (enc d true = enc d false ↔ p.getLsbD 5 = true)

/-- R95: ENCODE's encoding, its effect before and after INIT alike, its fault, its corner cases and its example. -/
def Obligations.EncodeRequest : Prop :=
  (∀ (d : Digit) dot,
      encode (.encode d dot) = .request (((BitVec.ofBool dot).setWidth 24 <<< 4) ||| d.setWidth 24)) ∧
    (∀ (s : State) (d : Digit) dot p, enc d dot = .ok p →
      exec (.encode d dot) s = .next { s with result := some p, seq := [], busy := false }) ∧
    (∀ (d : Digit) dot, d.toNat ≤ 10 → ∃ p, enc d dot = .ok p) ∧
    (∀ (s : State) (d : Digit) dot, 10 < d.toNat →
      exec (.encode d dot) s = .next { s with fault := .digitRange }) ∧
    enc 10#4 false = .ok 0x00#8 ∧ enc 10#4 true = .ok 0x20#8 ∧
    (∀ (d : Digit) (h : d.toNat < 10),
      enc d true = enc d false ↔ (Config.segTable ⟨d.toNat, h⟩).getLsbD 5 = true) ∧
    decodeRequest 0x00001A#24 = .ok (.encode 10#4 true) ∧
    ∀ s : State, exec (.encode 10#4 true) s = .next { s with result := some 0x20#8, seq := [], busy := false }

/-! ## The driver's action lists -/

/-- R84, R53: the address byte is `0xC0` with the low four address bits; SEND_DATA sends it first, drops the high
bits without a fault, and `addr = 0x12` writes address `0x02`. -/
def Obligations.AddressByteMasked : Prop :=
  (∀ addr : Byte, addressByte addr = 0xC0#8 ||| (addr &&& 0x0F#8) ∧
      (addressByte addr).extractLsb' 4 4 = 0b1100#4 ∧
      (addressByte addr).extractLsb' 0 4 = addr.extractLsb' 0 4 ∧
      decodeFirstByte (addressByte addr) = .ok (.addr (addr.extractLsb' 0 4))) ∧
    (∀ (s : State) (addr value : Byte), s.initialized = true →
      ∃ t, exec (.sendData addr value) s = .next t ∧ t.fault = s.fault ∧
        pins t.seq = pinsOfFrame [0xC0#8 ||| (addr &&& 0x0F#8), value]) ∧
    decodeFirstByte (addressByte 0x12#8) = .ok (.addr 2#4)

/-- The lists of a byte and of a frame are those of R108 and R109, for every byte and every frame. -/
def Obligations.ActionLists : Prop :=
  (∀ v, pins (byteActions v) = pinsOfByte v ∧ (byteActions v).length = 48) ∧
    (∀ bytes, pins (frameActions bytes) = pinsOfFrame bytes ∧
      (frameActions bytes).length = 48 * bytes.length + 3)

/-- R56, R106, R119: bits go onto DIO least-significant bit first: a byte's, those that INIT puts there, and those that
SEND_DATA puts there in one frame. -/
def Obligations.BitsOnDio : Prop :=
  (∀ v : Byte, dioBits (pins (byteActions v)) = (List.range 8).map fun i => (v >>> i).getLsbD 0) ∧
    (∀ s : State, s.initialized = false → ∃ t, exec .init s = .next t ∧
      dioBits (pins t.seq) =
        [false, false, false, false, false, false, true, false] ++ [true, true, true, true, false, false, false, true] ∧
      pins t.seq = .configIdle :: (pinsOfFrame [0x40#8] ++ pinsOfFrame [0x8F#8]) ∧
      dioBits (pinsOfFrame [0x40#8]) = [false, false, false, false, false, false, true, false] ∧
      dioBits (pinsOfFrame [0x8F#8]) = [true, true, true, true, false, false, false, true]) ∧
    (∀ (s : State) (addr value : Byte), s.initialized = true → ∃ t, exec (.sendData addr value) s = .next t ∧
      pins t.seq = pinsOfFrame [addressByte addr, value] ∧
      dioBits (pins t.seq) =
        (List.range 8).map (fun i => (addressByte addr).getLsbD i) ++ (List.range 8).map fun i => value.getLsbD i) ∧
    ((List.range 8).map fun i => (addressByte 0x00#8).getLsbD i) =
      [false, false, false, false, false, false, true, true] ∧
    ((List.range 8).map fun i => (addressByte 0x02#8).getLsbD i) =
      [false, true, false, false, false, false, true, true]

/-- R203, R112: the pin actions, the delays and the minimum duration of each accepted request. -/
def Obligations.MinimumDurations : Prop :=
  (∀ (s : State) (d : Digit) dot, d.toNat ≤ 10 → ∃ t, exec (.encode d dot) s = .next t ∧ t.seq.length = 0) ∧
    (∀ (s : State), s.initialized = false → ∃ t, exec .init s = .next t ∧ t.seq.length = 103 ∧
      delayCount (pins t.seq) = 50 ∧ minDuration (pins t.seq) = 500) ∧
    ∀ s : State, s.initialized = true →
      (∀ v, ∃ t, exec (.sendByte v) s = .next t ∧ t.seq.length = 48 ∧
        delayCount (pins t.seq) = 24 ∧ minDuration (pins t.seq) = 240) ∧
      (∀ c, ∃ t, exec (.sendCommand c) s = .next t ∧ t.seq.length = 51 ∧
        delayCount (pins t.seq) = 25 ∧ minDuration (pins t.seq) = 250) ∧
      (∀ a v, ∃ t, exec (.sendData a v) s = .next t ∧ t.seq.length = 99 ∧
        delayCount (pins t.seq) = 49 ∧ minDuration (pins t.seq) = 490) ∧
      ∀ (d1 d2 : Digit) dot1 dot2, d1.toNat ≤ 10 → d2.toNat ≤ 10 →
        ∃ t, exec (.displayNumber d1 d2 dot1 dot2) s = .next t ∧ t.seq.length = 249 ∧
          delayCount (pins t.seq) = 123 ∧ minDuration (pins t.seq) = 1230

/-- The only consecutive actions with no delay between them are the strobe fall with the first clock fall of a
frame, and INIT's ConfigIdle with the strobe fall of its first frame; every list ends with a delay (R66, R195). -/
def Obligations.UndelayedPairsOnly : Prop :=
  (∀ v, undelayedPairs (pins (byteActions v)) = [] ∧ (pins (byteActions v)).getLast? = some (.delayAtLeast 10)) ∧
    (∀ bytes, bytes ≠ [] →
      undelayedPairs (pins (frameActions bytes)) = [(.setPin .stb false, .setPin .clk false)] ∧
        (pins (frameActions bytes)).getLast? = some (.delayAtLeast 10)) ∧
    undelayedPairs (pins initActions) =
      [(.configIdle, .setPin .stb false), (.setPin .stb false, .setPin .clk false),
        (.setPin .stb false, .setPin .clk false)] ∧
    ∀ p1 p2, undelayedPairs (pins (renderActions p1 p2)) =
      [(.setPin .stb false, .setPin .clk false), (.setPin .stb false, .setPin .clk false),
        (.setPin .stb false, .setPin .clk false)]

/-! ## Acceptance of the driver's requests -/

/-- INIT is accepted when it was not before: `s.initialized` is set, and the list is ConfigIdle, the mode frame and
the brightness frame (R105). -/
def Obligations.InitAccepted : Prop :=
  ∀ s : State, s.initialized = false → ∃ seq,
    exec .init s = .next { s with initialized := true, seq := seq, busy := true } ∧
      pins seq = [.configIdle] ++ pinsOfFrame [0x40#8] ++ pinsOfFrame [0x8F#8]

/-- SEND_BYTE is accepted after INIT: its list is the byte's, with STB untouched (R110). -/
def Obligations.SendByteAccepted : Prop :=
  ∀ (s : State) v, s.initialized = true → ∃ seq,
    exec (.sendByte v) s = .next { s with seq := seq, busy := true } ∧ pins seq = pinsOfByte v ∧
      ∀ b, PinAction.setPin .stb b ∉ pins seq

/-- SEND_COMMAND is accepted after INIT with any byte: its list is the one-byte frame (R114). -/
def Obligations.SendCommandAccepted : Prop :=
  ∀ (s : State) c, s.initialized = true → ∃ seq,
    exec (.sendCommand c) s = .next { s with seq := seq, busy := true } ∧ pins seq = pinsOfFrame [c]

/-- SEND_DATA is accepted after INIT with any operands: its list is the two-byte frame (R118). -/
def Obligations.SendDataAccepted : Prop :=
  ∀ (s : State) addr value, s.initialized = true → ∃ seq,
    exec (.sendData addr value) s = .next { s with seq := seq, busy := true } ∧
      pins seq = pinsOfFrame [0xC0#8 ||| (addr &&& 0x0F#8), value]

/-- DISPLAY_NUMBER is accepted after INIT with digits up to 10: its list is the mode frame, digit 1 at `0x00`,
digit 2 at `0x02`, in that order (R124 to R126). -/
def Obligations.DisplayNumberAccepted : Prop :=
  ∀ (s : State) (d1 d2 : Digit) dot1 dot2, s.initialized = true → d1.toNat ≤ 10 → d2.toNat ≤ 10 →
    ∃ seq p1 p2, enc d1 dot1 = .ok p1 ∧ enc d2 dot2 = .ok p2 ∧
      exec (.displayNumber d1 d2 dot1 dot2) s = .next { s with seq := seq, busy := true } ∧
      pins seq = pinsOfFrame [0x40#8] ++ pinsOfFrame [0xC0#8, p1] ++ pinsOfFrame [0xC2#8, p2]

/-! ## Faults -/

/-- R173: DIGIT_RANGE, with nothing returned and nothing sent. -/
def Obligations.DigitRangeFault : Prop :=
  (∀ (s : State) (d : Digit) dot, 10 < d.toNat →
      exec (.encode d dot) s = .next { s with fault := .digitRange }) ∧
    ∀ (s : State) (d1 d2 : Digit) dot1 dot2, s.initialized = true → 10 < d1.toNat ∨ 10 < d2.toNat →
      exec (.displayNumber d1 d2 dot1 dot2) s = .next { s with fault := .digitRange }

/-- R174: NOT_INIT for the four driver requests before INIT, when the lines are still `Z`; ENCODE is exempt. -/
def Obligations.NotInitFault : Prop :=
  (∀ s : State, s.initialized = false →
      (∀ v, exec (.sendByte v) s = .next { s with fault := .notInit }) ∧
        (∀ c, exec (.sendCommand c) s = .next { s with fault := .notInit }) ∧
        (∀ a v, exec (.sendData a v) s = .next { s with fault := .notInit }) ∧
        (∀ d1 d2 dot1 dot2, exec (.displayNumber d1 d2 dot1 dot2) s = .next { s with fault := .notInit }) ∧
        ∀ (d : Digit) dot, d.toNat ≤ 10 → ∃ t, exec (.encode d dot) s = .next t ∧ t.fault = s.fault) ∧
    ∀ s, RunInv s → s.initialized = false → s.stb = .z ∧ s.clk = .z ∧ s.dio = .z

/-- R175: REINIT for an INIT after INIT; while the first one's actions are performed the second is held. -/
def Obligations.ReinitFault : Prop :=
  (∀ s : State, s.initialized = true → exec .init s = .next { s with fault := .reinit }) ∧
    (∀ s, ready s → s.initialized = true → s.reqValid = true → s.reqWord = 0x200000#24 →
      ∃ v, step s = .next { s with fault := .reinit, reqValid := v }) ∧
    ∀ s, s.rx = [] → s.busy = true → s.reqValid = true → s.reqWord = 0x200000#24 →
      ∃ t, step s = .next t ∧ t.reqValid = true ∧ t.reqWord = 0x200000#24 ∧ t.fault = s.fault

/-- A presented request has exactly one outcome, in the order of the checks of R176: held while busy, refused when
reserved, faulted by the first contract it breaks, accepted with its own effect otherwise; `DISPLAY_NUMBER 11, 0, 0, 0`
before INIT reports NOT_INIT (R170, R176). -/
def Obligations.RequestOutcomes : Prop :=
  (∀ s, s.rx = [] → s.busy = true → s.reqValid = true →
      ∃ t, step s = .next t ∧ t.reqValid = true ∧ t.reqWord = s.reqWord ∧ sameFlags s t) ∧
    ∀ s, ready s → s.reqValid = true →
      (∀ r, decodeRequest s.reqWord = .error r → ∃ v, step s = .next { s with reqValid := v, refused := true }) ∧
        (∀ i, decodeRequest s.reqWord = .ok i →
          (∀ c, contractFault s.initialized i = some c →
            ∃ v, step s = .next { s with reqValid := v, fault := c }) ∧
          (contractFault s.initialized i = none →
            ∃ v t, step s = .next t ∧ exec i { s with reqValid := v } = .next t ∧
              t.fault = .none ∧ t.refused = false ∧ (t.busy = true ↔ t.seq ≠ []))) ∧
        (s.initialized = false → s.reqWord = 0xA0000B#24 →
          ∃ v, step s = .next { s with reqValid := v, fault := .notInit })

/-- R171: a request that faults sets `s.fault` to the code of the contract it breaks and changes nothing else; the
codes have the numbers of the table. -/
def Obligations.FaultChangesFaultOnly : Prop :=
  (FaultCode.code .none = 0#2 ∧ FaultCode.code .digitRange = 1#2 ∧ FaultCode.code .notInit = 2#2 ∧
      FaultCode.code .reinit = 3#2) ∧
    (∀ s : State, s.ports.fault = s.fault.code) ∧
    (∀ (i : Instr) (s : State) c, contractFault s.initialized i = some c →
      exec i s = .next { s with fault := c }) ∧
    ∀ (i : Instr) (s t : State), exec i s = .next t → t.fault ≠ s.fault →
      contractFault s.initialized i = some t.fault ∧ t = { s with fault := t.fault }

/-- R177: a stopped block stays stopped: no further request is accepted and no pin action is performed, for any
number of steps and whatever the host presents; and a run that reaches it has not ended well. -/
def Obligations.StoppedForGood : Prop :=
  (∀ s, s.rx = [] → s.busy = false → s.stopped = true → ∀ n, ∃ u, steps n s = .next u ∧
      u.reqReady = false ∧ u = { s with reqValid := u.reqValid, reqWord := u.reqWord, hostBlink := u.hostBlink,
                                        hostInput := u.hostInput, draws := u.draws } ∧
      ¬ endsWell u ∧ (s.reqValid = true → u.reqValid = true ∧ u.reqWord = s.reqWord)) ∧
    ∀ s t, RunInv s → step s = .next t →
      (s.fault ≠ .none → t.fault = s.fault) ∧ (s.refused = true → t.refused = true)

/-! ## Steps -/

/-- No state stops the model: every step answers a next state, and so does every instruction. That a fault or a
refusal of the block is a next state, and that the step function itself never stops, is the model's choice
(assumption log 10). -/
def Obligations.StepAlwaysAnswers : Prop :=
  (∀ s, ∃ t, step s = .next t) ∧ ∀ i s, ∃ t, exec i s = .next t

/-- A step runs the decoded request: when, after the host's turn, a ready block's port holds a word that decodes to
`i`, the step is `i`'s meaning, on the state with the request dropped from the port (R33). That the host's turn is part
of the step is the model's choice (assumption log 3), and so is that it drops the request then (assumption log 8). -/
def Obligations.StepRunsRequest : Prop :=
  (∀ s i, ready s → (hostPresent s).reqValid = true → decodeRequest (hostPresent s).reqWord = .ok i →
      step s = exec i { hostPresent s with reqValid := false }) ∧
    ∀ s i, ready s → s.reqValid = true → decodeRequest s.reqWord = .ok i →
      step s = exec i { s with reqValid := false }

/-- A step runs a bus byte: when one instruction of a frame waits at the controller, the step is its meaning, and
several are taken in order (the field `rx` is the model's own, assumption log 6). -/
def Obligations.StepRunsBusByte : Prop :=
  (∀ s i, s.rx = [i] → step s = exec i { s with rx := [] }) ∧
    ∀ s i is, s.rx = i :: is → step s = receiveAll (i :: is) { s with rx := [] }

/-- A step that closes a frame with a stated meaning runs the frame's instructions in order, on the state with STB
driven and the frame recorded (R145). That the host's turn at the port, `hostPresent`, is part of the step is the
model's choice (assumption log 3). -/
def Obligations.StepRunsClosedFrame : Prop :=
  ∀ s bytes rest is, closing s bytes 0 rest → decodeFrame bytes 0 = .ok is →
    step s = receiveAll is
      { hostPresent s with
        seq := rest, busy := !rest.isEmpty, trace := s.trace ++ [.setPin .stb true], stb := .high,
        obs := { s.obs with isOpen := false, frames := s.obs.frames ++ [⟨bytes, 0⟩] } }

/-- While busy, a step removes the head of `s.seq`, performs it on the lines and the registers, and records it; the step
that empties the list clears `s.busy`; flags and result stay, and a presented request is held, so two requests never
interleave (R14, R27, R33, R60, R108, R196; which action a transfer runs with: assumption log 5). -/
def Obligations.SequencerStep : Prop :=
  ∀ s m rest, s.rx = [] → s.busy = true → s.seq = m :: rest →
    ∃ t e, step s = .next t ∧ t.seq = rest ∧ (t.busy = true ↔ rest ≠ []) ∧
      t.trace = s.trace ++ [e] ∧ records m.act e ∧ linesAfter m.act s t ∧ registersAfter m.transfer s t ∧
      sameFlags s t ∧ (s.reqValid = true → t.reqValid = true ∧ t.reqWord = s.reqWord)

/-- R31: only a sequencer step appends to the trace, one entry, and nothing removes an entry. -/
def Obligations.TraceOnlyGrows : Prop :=
  ∀ s t, s.rx = [] → step s = .next t →
    t.trace = s.trace ∨
      s.busy = true ∧ ∃ m rest e, s.seq = m :: rest ∧ records m.act e ∧ t.trace = s.trace ++ [e]

/-- R189: with no request presented or waiting, an idle block holds its lines, and everything else, for ever. -/
def Obligations.IdleHolds : Prop :=
  ∀ s, s.rx = [] → s.busy = false → s.reqValid = false → s.hostBlink = [] → s.hostInput = [] →
    (∀ n, steps n s = .next s) ∧ (RunInv s → s.cfg = true → s.stb = .high ∧ s.clk = .high)

/-- R25: what sets and clears each status flag. -/
def Obligations.StatusFlags : Prop :=
  ∀ s t, RunInv s → step s = .next t →
    (s.initialized = true → t.initialized = true) ∧
    (s.initialized = false → t.initialized = true →
      (hostPresent s).accepts = true ∧ decodeRequest (hostPresent s).reqWord = .ok .init) ∧
    (s.busy = false → t.busy = true → (hostPresent s).accepts = true ∧ t.seq ≠ []) ∧
    (s.busy = true → t.busy = false → ∃ m, s.seq = [m]) ∧
    (t.fault ≠ s.fault → (hostPresent s).accepts = true ∧ ∃ i, decodeRequest (hostPresent s).reqWord = .ok i ∧
      contractFault s.initialized i = some t.fault) ∧
    (s.refused = false → t.refused = true →
      (hostPresent s).accepts = true ∧ reservedWord (hostPresent s).reqWord) ∧
    (s.fault ≠ .none → t.fault = s.fault) ∧
    (s.refused = true → t.refused = true)

/-- R26: ENCODE writes `s.result` and nothing else does; at reset it is `none`, and a read of `none` gives no value. -/
def Obligations.ResultOnlyByEncode : Prop :=
  State.reset.result = none ∧
    (∀ (s : State) d dot p, enc d dot = .ok p → ∃ t, exec (.encode d dot) s = .next t ∧ t.result = some p) ∧
    (∀ s t, s.rx = [] → step s = .next t → t.result ≠ s.result →
      (hostPresent s).accepts = true ∧ ∃ d dot p,
        decodeRequest (hostPresent s).reqWord = .ok (.encode d dot) ∧ enc d dot = .ok p ∧ t.result = some p) ∧
    (∀ s : State, s.result = none → readResult s = .error .resultNotValid) ∧
    ∀ (s : State) v, s.result = some v → readResult s = .ok v

/-- R27: the lines are `Z` until ConfigIdle sets their idle levels, no level is `Z` afterwards, and only SetPin
changes a level. -/
def Obligations.LinesOnlyBySetPin : Prop :=
  (∀ s, RunInv s → s.cfg = false → s.stb = .z ∧ s.clk = .z ∧ s.dio = .z) ∧
    (∀ s t, RunInv s → step s = .next t → s.cfg = false → t.cfg = true →
      t.stb = .high ∧ t.clk = .high ∧ t.dio = .low) ∧
    (∀ s t, RunInv s → step s = .next t → s.cfg = true →
      t.cfg = true ∧ t.stb ≠ .z ∧ t.clk ≠ .z ∧ t.dio ≠ .z ∧
        ∀ p, t.line p ≠ s.line p → ∃ b x rest, s.seq = ⟨.setPin p b, x⟩ :: rest ∧ t.line p = Level.ofBit b)

/-- R130: every strobe transition of the driver happens with CLK high. -/
def Obligations.StrobeMovesAtClockHigh : Prop :=
  (∀ s t, RunInv s → step s = .next t → s.cfg = true → t.stb ≠ s.stb → s.clk = .high ∧ t.clk = .high) ∧
    ∀ s b x rest, RunInv s → s.seq = ⟨.setPin .stb b, x⟩ :: rest → s.clk = .high

/-- DIO changes only while CLK is low, to the bit `s.sr[0]`, which is always the next bit to send (R22, R111). -/
def Obligations.DataMovesAtClockLow : Prop :=
  (∀ s b rest, RunInv s → s.seq = ⟨.setPin .dio b, .keep⟩ :: rest → s.clk = .low ∧ b = s.sr.getLsbD 0) ∧
    ∀ s t, RunInv s → step s = .next t → s.cfg = true → t.dio ≠ s.dio → s.clk = .low ∧ t.clk = .low

/-- R107: before INIT the lines are `Z` and no request but ENCODE is accepted without a fault; INIT alone configures
the lines. -/
def Obligations.InitConfigures : Prop :=
  (∀ s, RunInv s → s.initialized = false → s.stb = .z ∧ s.clk = .z ∧ s.dio = .z) ∧
    (∀ (s : State) i, i.isRequest = true → s.initialized = false → i ≠ .init →
      contractFault s.initialized i = none → ∃ d dot, i = .encode d dot) ∧
    ∀ (s t : State) i, i.isRequest = true → i ≠ .init → exec i s = .next t →
      t.cfg = s.cfg ∧ (PinAction.configIdle ∈ pins t.seq → t.seq = s.seq)

/-! ## The invariant -/

/-- R35, R190: the state after power-on, with the eleven constants of R9; `s.sr` and `s.bit` have no
stated value (assumption log 7). -/
def Obligations.ResetState : Prop :=
  let s := State.reset
  s.cfg = false ∧ s.stb = .z ∧ s.clk = .z ∧ s.dio = .z ∧ s.initialized = false ∧ s.busy = false ∧
    s.fault = .none ∧ s.refused = false ∧ s.result = none ∧ s.seq = [] ∧ s.trace = [] ∧
    s.dev = { mode := none, power := none, bright := none, ptr := none, ram := [] } ∧
    (∀ a, Memory.read s.dev.ram a = none) ∧ s.obs.isOpen = false ∧
    Config.cmdMode = 0x40#8 ∧ Config.cmdBright = 0x8F#8 ∧ Config.addrBase = 0xC0#8 ∧ Config.addrMask = 0x0F#8 ∧
    Config.digit1Addr = 0x00#8 ∧ Config.digit2Addr = 0x02#8 ∧ Config.dotMask = 0x20#8 ∧ Config.blank = 10#4 ∧
    Config.tMin = 10 ∧ Config.digits = 2 ∧ Config.byteBits = 8

/-- The invariant holds after power-on. -/
def Obligations.InvAtReset : Prop := RunInv State.reset

/-- R36: its five invariants, with what they rest on, are kept by every step. -/
def Obligations.InvKept : Prop := ∀ s t, RunInv s → step s = .next t → RunInv t

/-- R140: the observer in step with the sequencer agrees with the observer run on the trace, after power-on and after
every step. -/
def Obligations.ObserverAgreesWithTrace : Prop :=
  agreesWithReplay State.reset ∧ ∀ s t, s.rx = [] → agreesWithReplay s → step s = .next t → agreesWithReplay t

/-! ## The observer and the display controller -/

/-- R141, R142, R143, R146: what the observer does on a strobe fall, on a clock rise in a frame, and on a clock rise
outside a frame, which only SEND_BYTE on its own produces; and the actions that are no edge: a clock fall, `SetPin` to
the level the line already has, any change of DIO, ConfigIdle and a delay leave the observer and the controller alone. The observer starts with no frame open. -/
def Obligations.ObserverEdges : Prop :=
  (∀ s x rest, s.rx = [] → s.busy = true → s.seq = ⟨.setPin .stb false, x⟩ :: rest → s.stb = .high →
      ∃ t, step s = .next t ∧ t.dev = s.dev ∧
        t.obs = { s.obs with isOpen := true, bytes := [], acc := 0#8, n := 0 }) ∧
    (∀ s x rest, s.rx = [] → s.busy = true → s.seq = ⟨.setPin .clk true, x⟩ :: rest → s.clk = .low →
      s.obs.isOpen = true → ∃ t, step s = .next t ∧ t.dev = s.dev ∧
        let acc := s.obs.acc ||| ((if s.dio = .high then 1#8 else 0#8) <<< s.obs.n)
        t.obs = if s.obs.n + 1 = 8 then { s.obs with bytes := s.obs.bytes ++ [acc], acc := 0#8, n := 0 }
          else { s.obs with acc := acc, n := s.obs.n + 1 }) ∧
    (∀ s x rest, s.rx = [] → s.busy = true → s.seq = ⟨.setPin .clk true, x⟩ :: rest → s.clk = .low →
      s.obs.isOpen = false → ∃ t, step s = .next t ∧
        t.obs = { s.obs with stray := s.obs.stray + 1 } ∧ t.dev = Dev.unknown) ∧
    (∀ s x rest, s.rx = [] → s.busy = true → s.seq = ⟨.setPin .clk false, x⟩ :: rest →
      ∃ t, step s = .next t ∧ t.obs = s.obs ∧ t.dev = s.dev) ∧
    (∀ s a x rest, s.rx = [] → s.busy = true → s.seq = ⟨a, x⟩ :: rest →
      ((∃ p b, a = .setPin p b ∧ s.line p = Level.ofBit b) ∨ (∃ b, a = .setPin .dio b) ∨ a = .configIdle ∨
        ∃ n, a = .delayAtLeast n) →
      ∃ t, step s = .next t ∧ t.obs = s.obs ∧ t.dev = s.dev) ∧
    (∀ i s u, RunInv s → ready s → completes i s u → u.obs.stray ≠ s.obs.stray → ∃ v, i = .sendByte v) ∧
    (State.reset.obs.isOpen = false ∧ State.reset.dev = Dev.unknown) ∧
    ∀ s, RunInv s → s.obs.isOpen = true → s.stb = .low

/-- R144: a byte sent inside an open frame is the byte that the observer assembles. -/
def Obligations.ByteAssembled : Prop :=
  (∀ (o : Obs) (v : Byte), o.acc = 0#8 → o.n = 0 →
      (List.range 8).foldl (fun o i => o.sample (v.getLsbD i)) o = { o with bytes := o.bytes ++ [v] }) ∧
    ∀ s v rest, s.rx = [] → s.busy = true → s.seq = byteActions v ++ rest → s.clk = .high →
      s.obs.isOpen = true → s.obs.acc = 0#8 → s.obs.n = 0 →
      ∃ u, steps 48 s = .next u ∧ u.seq = rest ∧
        u.obs = { s.obs with bytes := s.obs.bytes ++ [v] } ∧ u.dev = s.dev ∧ u.clk = .high

/-- The shift register and the bit counter along a byte: after `k` bits the register is the byte shifted right by
`k`, the counter is `k`, and DIO holds bit `k - 1` (R22, R23, R108). -/
def Obligations.RegistersAlongByte : Prop :=
  ∀ s v rest k, s.rx = [] → s.busy = true → s.seq = byteActions v ++ rest → 1 ≤ k → k ≤ 8 →
    ∃ u, steps (6 * k) s = .next u ∧ u.sr = v >>> k ∧ u.bit = k ∧ u.clk = .high ∧
      u.dio = Level.ofBit (v.getLsbD (k - 1)) ∧ u.stb = s.stb

/-- CMD_MODE and CMD_DISPLAY_ON at the controller, as instructions and as closed frames (R148, R149). -/
def Obligations.CommandFrames : Prop :=
  (∀ s : State, exec .cmdMode s = .next { s with dev := { s.dev with mode := some .writeAutoinc } }) ∧
    (∀ (s : State) b, exec (.cmdDisplayOn b) s =
      .next { s with dev := { s.dev with power := some .on, bright := some b } }) ∧
    (∀ s rest, closing s [0x40#8] 0 rest → ∃ t, step s = .next t ∧
      t.dev = { s.dev with mode := some .writeAutoinc } ∧ t.obs.frames = s.obs.frames ++ [⟨[0x40#8], 0⟩]) ∧
    ∀ s (b : BitVec 3) rest, closing s [0x88#8 ||| b.setWidth 8] 0 rest → ∃ t, step s = .next t ∧
      t.dev = { s.dev with power := some .on, bright := some b } ∧
      t.obs.frames = s.obs.frames ++ [⟨[0x88#8 ||| b.setWidth 8], 0⟩]

/-- ADDR and DATA at the controller: ADDR sets the internal write address; DATA stores at it and advances it, in the
documented mode and at an address of the 16, and otherwise nothing is known (R150, R151). -/
def Obligations.AddressAndData : Prop :=
  (∀ (s : State) (a : BitVec 4), exec (.addr a) s = .next { s with dev := { s.dev with ptr := some (ptrOf a) } }) ∧
    (∀ (s : State) v (p : Fin 17) (h : p.val < 16), s.dev.mode = some .writeAutoinc → s.dev.ptr = some p →
      ∃ ram, exec (.data v) s =
          .next { s with dev := { s.dev with ram := ram, ptr := some ⟨p.val + 1, by omega⟩ } } ∧
        storedFrom s.dev.ram ram p.val [v]) ∧
    ∀ (s : State) v, s.dev.mode = none ∨ s.dev.ptr = none ∨ s.dev.ptr = some 16 →
      exec (.data v) s = .next { s with dev := Dev.unknown }

/-- R150, R151: a closed addressed-data frame of any number of data bytes stores them at consecutive addresses in the
documented mode; outside it, or past address 15, nothing is known of the controller. -/
def Obligations.AddressedWrite : Prop :=
  ∀ s (a : BitVec 4) vs rest, vs ≠ [] → closing s ((0b1100#4 ++ a) :: vs) 0 rest →
    ∃ t, step s = .next t ∧
      (s.dev.mode = some .writeAutoinc → a.toNat + vs.length ≤ 16 →
        t.dev.mode = s.dev.mode ∧ t.dev.power = s.dev.power ∧ t.dev.bright = s.dev.bright ∧
          t.dev.ptr.map Fin.val = some (a.toNat + vs.length) ∧ storedFrom s.dev.ram t.dev.ram a.toNat vs) ∧
      (s.dev.mode = none ∨ 16 < a.toNat + vs.length → t.dev = Dev.unknown)

/-- R153: after a closed frame with no stated meaning, an out-of-frame clock, or an addressed write that cannot be
completed, every field of the controller is unknown. -/
def Obligations.HavocCases : Prop :=
  (∀ s bytes n rest, closing s bytes n rest →
      (n ≠ 0 ∨ bytes = [] ∨
        (∃ b, bytes = [b] ∧ b ≠ 0x40#8 ∧ b.extractLsb' 3 5 ≠ 0b10001#5) ∨
        (∃ b v vs, bytes = b :: v :: vs ∧ b.extractLsb' 4 4 ≠ 0b1100#4)) →
      ∃ t, step s = .next t ∧ t.dev = Dev.unknown ∧ t.obs.frames = s.obs.frames ++ [⟨bytes, n⟩] ∧
        t.obs.isOpen = false) ∧
    (∀ s x rest, s.rx = [] → s.busy = true → s.seq = ⟨.setPin .clk true, x⟩ :: rest → s.clk = .low →
      s.obs.isOpen = false → ∃ t, step s = .next t ∧ t.dev = Dev.unknown) ∧
    (∀ s (a : BitVec 4) vs rest, closing s ((0b1100#4 ++ a) :: vs) 0 rest → vs ≠ [] →
      s.dev.mode = none ∨ 16 < a.toNat + vs.length → ∃ t, step s = .next t ∧ t.dev = Dev.unknown) ∧
    (Dev.unknown.mode = none ∧ Dev.unknown.power = none ∧ Dev.unknown.bright = none ∧ Dev.unknown.ptr = none ∧
      ∀ a, Memory.read Dev.unknown.ram a = none)

/-- R61: resending a documented frame of the driver has the same effect on the controller as sending it once. -/
def Obligations.ResendingIsIdempotent : Prop :=
  (∀ s : State, ∃ t, receiveAll [.cmdMode] s = .next t ∧ receiveAll [.cmdMode, .cmdMode] s = .next t) ∧
    (∀ (s : State) b, ∃ t, receiveAll [.cmdDisplayOn b] s = .next t ∧
      receiveAll [.cmdDisplayOn b, .cmdDisplayOn b] s = .next t) ∧
    ∀ (s : State) a v, ∃ t, receiveAll [.addr a, .data v] s = .next t ∧
      receiveAll [.addr a, .data v, .addr a, .data v] s = .next t

/-! ## Frames: what an instruction leaves unchanged -/

/-- What the acceptance of a request leaves unchanged: the registers, the lines, the trace, the observer and the whole
of the controller; ENCODE alone changes the result, INIT alone the flag `initialized`. -/
def Obligations.RequestFrame : Prop :=
  ∀ (i : Instr) (s t : State), i.isRequest = true → exec i s = .next t →
    t = { s with seq := t.seq, busy := t.busy, fault := t.fault, initialized := t.initialized, result := t.result } ∧
      (i ≠ .init → t.initialized = s.initialized) ∧
      ((∀ d dot, i ≠ .encode d dot) → t.result = s.result) ∧
      (t.fault = s.fault ∨ t.seq = s.seq ∧ t.busy = s.busy ∧ t.initialized = s.initialized ∧ t.result = s.result) ∧
      ∀ a, Memory.read t.dev.ram a = Memory.read s.dev.ram a

/-- What a bus byte leaves unchanged: everything outside the controller; and of the controller, what R148 to R151 do
not name. A DATA byte that is stored leaves every other address alone. -/
def Obligations.BusByteFrame : Prop :=
  (∀ (i : Instr) (s t : State), i.isBusByte = true → exec i s = .next t → t = { s with dev := t.dev }) ∧
    (∀ s t : State, exec .cmdMode s = .next t →
      t.dev.power = s.dev.power ∧ t.dev.bright = s.dev.bright ∧ t.dev.ptr = s.dev.ptr ∧
        ∀ x, Memory.read t.dev.ram x = Memory.read s.dev.ram x) ∧
    (∀ (s t : State) b, exec (.cmdDisplayOn b) s = .next t →
      t.dev.mode = s.dev.mode ∧ t.dev.ptr = s.dev.ptr ∧
        ∀ x, Memory.read t.dev.ram x = Memory.read s.dev.ram x) ∧
    (∀ (s t : State) a, exec (.addr a) s = .next t →
      t.dev.mode = s.dev.mode ∧ t.dev.power = s.dev.power ∧ t.dev.bright = s.dev.bright ∧
        ∀ x, Memory.read t.dev.ram x = Memory.read s.dev.ram x) ∧
    ∀ (s t : State) v (p : Fin 17), exec (.data v) s = .next t → s.dev.mode = some .writeAutoinc →
      s.dev.ptr = some p → p.val < 16 →
        t.dev.mode = s.dev.mode ∧ t.dev.power = s.dev.power ∧ t.dev.bright = s.dev.bright ∧
          ∀ x, x ≠ p.val → Memory.read t.dev.ram x = Memory.read s.dev.ram x

/-! ## Whole requests -/

/-- R156: INIT and every later request put exactly their frames on the wire, complete and with no out-of-frame clock;
SEND_BYTE puts none and eight out-of-frame clocks. -/
def Obligations.WellFormedOutput : Prop :=
  (∀ s, RunInv s → ready s → s.initialized = false → ∃ u, completes .init s u ∧ u.busy = false ∧
      u.obs.frames = s.obs.frames ++ [⟨[0x40#8], 0⟩, ⟨[0x8F#8], 0⟩] ∧ u.obs.stray = s.obs.stray) ∧
    ∀ s, RunInv s → ready s → s.initialized = true →
      (∀ v, ∃ u, completes (.sendByte v) s u ∧ u.busy = false ∧
        u.obs.frames = s.obs.frames ∧ u.obs.stray = s.obs.stray + 8) ∧
      (∀ c, ∃ u, completes (.sendCommand c) s u ∧ u.busy = false ∧
        u.obs.frames = s.obs.frames ++ [⟨[c], 0⟩] ∧ u.obs.stray = s.obs.stray) ∧
      (∀ a v, ∃ u, completes (.sendData a v) s u ∧ u.busy = false ∧
        u.obs.frames = s.obs.frames ++ [⟨[0xC0#8 ||| (a &&& 0x0F#8), v], 0⟩] ∧ u.obs.stray = s.obs.stray) ∧
      ∀ d1 d2 dot1 dot2 p1 p2, enc d1 dot1 = .ok p1 → enc d2 dot2 = .ok p2 →
        ∃ u, completes (.displayNumber d1 d2 dot1 dot2) s u ∧ u.busy = false ∧
          u.obs.frames = s.obs.frames ++ [⟨[0x40#8], 0⟩, ⟨[0xC0#8, p1], 0⟩, ⟨[0xC2#8, p2], 0⟩] ∧
          u.obs.stray = s.obs.stray

/-- After a request's last action the lines stand at STB and CLK high with DIO at bit 7 of the last byte sent, the
shift register is empty and the counter is 8; and SEND_COMMAND's last entries are the strobe rise and a delay
of at least `T_MIN` (R28, R110, R115). -/
def Obligations.LinesAfterRequest : Prop :=
  (∀ s, RunInv s → ready s → s.initialized = false → ∃ u, completes .init s u ∧
      u.cfg = true ∧ u.stb = .high ∧ u.clk = .high ∧ u.dio = .high ∧ u.sr = 0#8 ∧ u.bit = 8) ∧
    ∀ s, RunInv s → ready s → s.initialized = true →
      (∀ v, ∃ u, completes (.sendByte v) s u ∧ u.stb = .high ∧ u.clk = .high ∧
        u.dio = Level.ofBit (v.getLsbD 7) ∧ u.sr = 0#8 ∧ u.bit = 8) ∧
      (∀ c, ∃ u, completes (.sendCommand c) s u ∧ u.stb = .high ∧ u.clk = .high ∧
        u.dio = Level.ofBit (c.getLsbD 7) ∧ u.sr = 0#8 ∧ u.bit = 8 ∧
        ∃ old, ∃ d : Rat, 10 ≤ d ∧ u.trace = old ++ [.setPin .stb true, .delay 10 d]) ∧
      (∀ a v, ∃ u, completes (.sendData a v) s u ∧ u.stb = .high ∧ u.clk = .high ∧
        u.dio = Level.ofBit (v.getLsbD 7) ∧ u.sr = 0#8 ∧ u.bit = 8) ∧
      ∀ d1 d2 dot1 dot2 p1 p2, enc d1 dot1 = .ok p1 → enc d2 dot2 = .ok p2 →
        ∃ u, completes (.displayNumber d1 d2 dot1 dot2) s u ∧ u.stb = .high ∧ u.clk = .high ∧
          u.dio = Level.ofBit (p2.getLsbD 7) ∧ u.sr = 0#8 ∧ u.bit = 8

/-- R157: after INIT and any documented requests that break no contract, the last DISPLAY_NUMBER leaves the
controller in the documented mode, on at the brightness last set (7 after INIT), with the two patterns at
addresses `0x00` and `0x02`, which are what the two digits show; and with no request presented or waiting it stays so
for any number of steps. -/
def Obligations.DisplayAfterRender : Prop :=
  ∀ s rs (d1 d2 : Digit) dot1 dot2, RunInv s → ready s → s.initialized = false →
    (∀ i ∈ rs, documented i = true ∧ contractFault true i = none) →
    d1.toNat ≤ 10 → d2.toNat ≤ 10 →
    (∃ u, completesAll (.init :: rs ++ [.displayNumber d1 d2 dot1 dot2]) s u) ∧
      ∀ u, completesAll (.init :: rs ++ [.displayNumber d1 d2 dot1 dot2]) s u →
        u.busy = false ∧ u.fault = .none ∧
        u.dev.mode = some .writeAutoinc ∧ u.dev.power = some .on ∧
        u.dev.bright = some (brightnessAfter 7#3 rs) ∧
        ∃ p1 p2, enc d1 dot1 = .ok p1 ∧ enc d2 dot2 = .ok p2 ∧
          Memory.read u.dev.ram 0 = some p1 ∧ Memory.read u.dev.ram 2 = some p2 ∧
          u.imageDigit1 = some p1 ∧ u.imageDigit2 = some p2 ∧
          (s.reqValid = false → noFurtherRequest s → u.reqValid = false ∧ noFurtherRequest u) ∧
          (u.reqValid = false → noFurtherRequest u → ∀ n, steps n u = .next u)

/-- R204: the states in which a run ends well, which a stopped state is not; and no request is held for ever outside a
stopped state: an accepted request's `s.busy` falls after at most 249 actions, and not before its last one, and the run
has ended well there if the block is not stopped and no request is presented, or none further (that "none further" is
that neither task has one waiting is the model's reading, assumption log 16). -/
def Obligations.BusyFalls : Prop :=
  (∀ s : State, endsWell s ↔ s.busy = false ∧ (s.reqValid = false ∨ s.hostBlink = [] ∧ s.hostInput = []) ∧
      s.fault = .none ∧ s.refused = false) ∧
    (∀ s : State, s.fault ≠ .none ∨ s.refused = true → ¬ endsWell s) ∧
    (∀ s t i, RunInv s → ready s → i.isRequest = true → exec i s = .next t → t.seq.length ≤ 249) ∧
    ∀ s, s.rx = [] → (s.busy = true ↔ s.seq ≠ []) →
      ∃ u, steps s.seq.length s = .next u ∧ u.busy = false ∧ u.seq = [] ∧ sameFlags s u ∧
        (s.stopped = false → u.reqValid = false ∨ noFurtherRequest u → endsWell u) ∧
        ∀ n, n < s.seq.length → ∃ v, steps n s = .next v ∧ v.busy = true

/-! ## The host -/

/-- The host's turn presents the first request of one of the two tasks, and only when the port is free; each task's
own order is kept; and when both tasks have a request waiting, which comes first is the free value `Config.pickBlink`
of the draw counter, drawn anew each time, so the order is open (R187). The two lists, and that a waiting request is
presented as soon as the port is free, are the model's choice (assumption log 3). -/
def Obligations.HostOrderOpen : Prop :=
  ∀ s : State,
    (s.reqValid = true → hostPresent s = s) ∧
    (s.reqValid = false →
      (s.hostBlink = [] ∧ s.hostInput = [] ∧ hostPresent s = s) ∨
      (∃ w ws n, s.hostBlink = w :: ws ∧
        hostPresent s = { s with reqValid := true, reqWord := w, hostBlink := ws, draws := n }) ∨
      ∃ w ws n, s.hostInput = w :: ws ∧
        hostPresent s = { s with reqValid := true, reqWord := w, hostInput := ws, draws := n }) ∧
    ∀ w ws v vs, s.reqValid = false → s.hostBlink = w :: ws → s.hostInput = v :: vs →
      hostPresent s =
        if Config.pickBlink s.draws then
          { s with reqValid := true, reqWord := w, hostBlink := ws, draws := s.draws + 1 }
        else { s with reqValid := true, reqWord := v, hostInput := vs, draws := s.draws + 1 }

/-- The requests that the source's host issues break no contract when INIT comes first (R197, R199, R206): a number in
`[0,99]` gives digits in range. -/
def Obligations.SourceHostRespectsContract : Prop :=
  (∀ number dot1 dot2, number ≤ 99 → contractFault true (renderRequest number dot1 dot2) = none) ∧
    (∀ i, sourceHostIssues i → i ≠ .init → contractFault true i = none) ∧
    contractFault false .init = none
end

