-- ==== Sys2Proof/Laws/State.lean ====
section
/-! SUPPORT. One lemma per field per update of the state, each true by rfl: a proof over the machine rewrites with
them and never unfolds a record update. -/

namespace Sys2Proof.Machine.State

variable (s : State)

@[simp] theorem withFault_sr (c : FaultCode) : (s.withFault c).sr = s.sr := rfl
@[simp] theorem withFault_bit (c : FaultCode) : (s.withFault c).bit = s.bit := rfl
@[simp] theorem withFault_seq (c : FaultCode) : (s.withFault c).seq = s.seq := rfl
@[simp] theorem withFault_initialized (c : FaultCode) : (s.withFault c).initialized = s.initialized := rfl
@[simp] theorem withFault_busy (c : FaultCode) : (s.withFault c).busy = s.busy := rfl
@[simp] theorem withFault_fault (c : FaultCode) : (s.withFault c).fault = c := rfl
@[simp] theorem withFault_refused (c : FaultCode) : (s.withFault c).refused = s.refused := rfl
@[simp] theorem withFault_result (c : FaultCode) : (s.withFault c).result = s.result := rfl
@[simp] theorem withFault_cfg (c : FaultCode) : (s.withFault c).cfg = s.cfg := rfl
@[simp] theorem withFault_stb (c : FaultCode) : (s.withFault c).stb = s.stb := rfl
@[simp] theorem withFault_clk (c : FaultCode) : (s.withFault c).clk = s.clk := rfl
@[simp] theorem withFault_dio (c : FaultCode) : (s.withFault c).dio = s.dio := rfl
@[simp] theorem withFault_trace (c : FaultCode) : (s.withFault c).trace = s.trace := rfl
@[simp] theorem withFault_obs (c : FaultCode) : (s.withFault c).obs = s.obs := rfl
@[simp] theorem withFault_dev (c : FaultCode) : (s.withFault c).dev = s.dev := rfl
@[simp] theorem withFault_reqValid (c : FaultCode) : (s.withFault c).reqValid = s.reqValid := rfl
@[simp] theorem withFault_reqWord (c : FaultCode) : (s.withFault c).reqWord = s.reqWord := rfl
@[simp] theorem withFault_hostBlink (c : FaultCode) : (s.withFault c).hostBlink = s.hostBlink := rfl
@[simp] theorem withFault_hostInput (c : FaultCode) : (s.withFault c).hostInput = s.hostInput := rfl
@[simp] theorem withFault_rx (c : FaultCode) : (s.withFault c).rx = s.rx := rfl
@[simp] theorem withFault_draws (c : FaultCode) : (s.withFault c).draws = s.draws := rfl

@[simp] theorem withRefused_sr : (s.withRefused).sr = s.sr := rfl
@[simp] theorem withRefused_bit : (s.withRefused).bit = s.bit := rfl
@[simp] theorem withRefused_seq : (s.withRefused).seq = s.seq := rfl
@[simp] theorem withRefused_initialized : (s.withRefused).initialized = s.initialized := rfl
@[simp] theorem withRefused_busy : (s.withRefused).busy = s.busy := rfl
@[simp] theorem withRefused_fault : (s.withRefused).fault = s.fault := rfl
@[simp] theorem withRefused_refused : (s.withRefused).refused = true := rfl
@[simp] theorem withRefused_result : (s.withRefused).result = s.result := rfl
@[simp] theorem withRefused_cfg : (s.withRefused).cfg = s.cfg := rfl
@[simp] theorem withRefused_stb : (s.withRefused).stb = s.stb := rfl
@[simp] theorem withRefused_clk : (s.withRefused).clk = s.clk := rfl
@[simp] theorem withRefused_dio : (s.withRefused).dio = s.dio := rfl
@[simp] theorem withRefused_trace : (s.withRefused).trace = s.trace := rfl
@[simp] theorem withRefused_obs : (s.withRefused).obs = s.obs := rfl
@[simp] theorem withRefused_dev : (s.withRefused).dev = s.dev := rfl
@[simp] theorem withRefused_reqValid : (s.withRefused).reqValid = s.reqValid := rfl
@[simp] theorem withRefused_reqWord : (s.withRefused).reqWord = s.reqWord := rfl
@[simp] theorem withRefused_hostBlink : (s.withRefused).hostBlink = s.hostBlink := rfl
@[simp] theorem withRefused_hostInput : (s.withRefused).hostInput = s.hostInput := rfl
@[simp] theorem withRefused_rx : (s.withRefused).rx = s.rx := rfl
@[simp] theorem withRefused_draws : (s.withRefused).draws = s.draws := rfl

@[simp] theorem withResult_sr (p : Byte) : (s.withResult p).sr = s.sr := rfl
@[simp] theorem withResult_bit (p : Byte) : (s.withResult p).bit = s.bit := rfl
@[simp] theorem withResult_seq (p : Byte) : (s.withResult p).seq = s.seq := rfl
@[simp] theorem withResult_initialized (p : Byte) : (s.withResult p).initialized = s.initialized := rfl
@[simp] theorem withResult_busy (p : Byte) : (s.withResult p).busy = s.busy := rfl
@[simp] theorem withResult_fault (p : Byte) : (s.withResult p).fault = s.fault := rfl
@[simp] theorem withResult_refused (p : Byte) : (s.withResult p).refused = s.refused := rfl
@[simp] theorem withResult_result (p : Byte) : (s.withResult p).result = some p := rfl
@[simp] theorem withResult_cfg (p : Byte) : (s.withResult p).cfg = s.cfg := rfl
@[simp] theorem withResult_stb (p : Byte) : (s.withResult p).stb = s.stb := rfl
@[simp] theorem withResult_clk (p : Byte) : (s.withResult p).clk = s.clk := rfl
@[simp] theorem withResult_dio (p : Byte) : (s.withResult p).dio = s.dio := rfl
@[simp] theorem withResult_trace (p : Byte) : (s.withResult p).trace = s.trace := rfl
@[simp] theorem withResult_obs (p : Byte) : (s.withResult p).obs = s.obs := rfl
@[simp] theorem withResult_dev (p : Byte) : (s.withResult p).dev = s.dev := rfl
@[simp] theorem withResult_reqValid (p : Byte) : (s.withResult p).reqValid = s.reqValid := rfl
@[simp] theorem withResult_reqWord (p : Byte) : (s.withResult p).reqWord = s.reqWord := rfl
@[simp] theorem withResult_hostBlink (p : Byte) : (s.withResult p).hostBlink = s.hostBlink := rfl
@[simp] theorem withResult_hostInput (p : Byte) : (s.withResult p).hostInput = s.hostInput := rfl
@[simp] theorem withResult_rx (p : Byte) : (s.withResult p).rx = s.rx := rfl
@[simp] theorem withResult_draws (p : Byte) : (s.withResult p).draws = s.draws := rfl

@[simp] theorem withInitialized_sr : (s.withInitialized).sr = s.sr := rfl
@[simp] theorem withInitialized_bit : (s.withInitialized).bit = s.bit := rfl
@[simp] theorem withInitialized_seq : (s.withInitialized).seq = s.seq := rfl
@[simp] theorem withInitialized_initialized : (s.withInitialized).initialized = true := rfl
@[simp] theorem withInitialized_busy : (s.withInitialized).busy = s.busy := rfl
@[simp] theorem withInitialized_fault : (s.withInitialized).fault = s.fault := rfl
@[simp] theorem withInitialized_refused : (s.withInitialized).refused = s.refused := rfl
@[simp] theorem withInitialized_result : (s.withInitialized).result = s.result := rfl
@[simp] theorem withInitialized_cfg : (s.withInitialized).cfg = s.cfg := rfl
@[simp] theorem withInitialized_stb : (s.withInitialized).stb = s.stb := rfl
@[simp] theorem withInitialized_clk : (s.withInitialized).clk = s.clk := rfl
@[simp] theorem withInitialized_dio : (s.withInitialized).dio = s.dio := rfl
@[simp] theorem withInitialized_trace : (s.withInitialized).trace = s.trace := rfl
@[simp] theorem withInitialized_obs : (s.withInitialized).obs = s.obs := rfl
@[simp] theorem withInitialized_dev : (s.withInitialized).dev = s.dev := rfl
@[simp] theorem withInitialized_reqValid : (s.withInitialized).reqValid = s.reqValid := rfl
@[simp] theorem withInitialized_reqWord : (s.withInitialized).reqWord = s.reqWord := rfl
@[simp] theorem withInitialized_hostBlink : (s.withInitialized).hostBlink = s.hostBlink := rfl
@[simp] theorem withInitialized_hostInput : (s.withInitialized).hostInput = s.hostInput := rfl
@[simp] theorem withInitialized_rx : (s.withInitialized).rx = s.rx := rfl
@[simp] theorem withInitialized_draws : (s.withInitialized).draws = s.draws := rfl

@[simp] theorem withSeq_sr (q : List SeqItem) : (s.withSeq q).sr = s.sr := rfl
@[simp] theorem withSeq_bit (q : List SeqItem) : (s.withSeq q).bit = s.bit := rfl
@[simp] theorem withSeq_seq (q : List SeqItem) : (s.withSeq q).seq = q := rfl
@[simp] theorem withSeq_initialized (q : List SeqItem) : (s.withSeq q).initialized = s.initialized := rfl
@[simp] theorem withSeq_busy (q : List SeqItem) : (s.withSeq q).busy = busyWith q := rfl
@[simp] theorem withSeq_fault (q : List SeqItem) : (s.withSeq q).fault = s.fault := rfl
@[simp] theorem withSeq_refused (q : List SeqItem) : (s.withSeq q).refused = s.refused := rfl
@[simp] theorem withSeq_result (q : List SeqItem) : (s.withSeq q).result = s.result := rfl
@[simp] theorem withSeq_cfg (q : List SeqItem) : (s.withSeq q).cfg = s.cfg := rfl
@[simp] theorem withSeq_stb (q : List SeqItem) : (s.withSeq q).stb = s.stb := rfl
@[simp] theorem withSeq_clk (q : List SeqItem) : (s.withSeq q).clk = s.clk := rfl
@[simp] theorem withSeq_dio (q : List SeqItem) : (s.withSeq q).dio = s.dio := rfl
@[simp] theorem withSeq_trace (q : List SeqItem) : (s.withSeq q).trace = s.trace := rfl
@[simp] theorem withSeq_obs (q : List SeqItem) : (s.withSeq q).obs = s.obs := rfl
@[simp] theorem withSeq_dev (q : List SeqItem) : (s.withSeq q).dev = s.dev := rfl
@[simp] theorem withSeq_reqValid (q : List SeqItem) : (s.withSeq q).reqValid = s.reqValid := rfl
@[simp] theorem withSeq_reqWord (q : List SeqItem) : (s.withSeq q).reqWord = s.reqWord := rfl
@[simp] theorem withSeq_hostBlink (q : List SeqItem) : (s.withSeq q).hostBlink = s.hostBlink := rfl
@[simp] theorem withSeq_hostInput (q : List SeqItem) : (s.withSeq q).hostInput = s.hostInput := rfl
@[simp] theorem withSeq_rx (q : List SeqItem) : (s.withSeq q).rx = s.rx := rfl
@[simp] theorem withSeq_draws (q : List SeqItem) : (s.withSeq q).draws = s.draws := rfl

@[simp] theorem withRegs_sr (r : Byte) (n : Nat) : (s.withRegs r n).sr = r := rfl
@[simp] theorem withRegs_bit (r : Byte) (n : Nat) : (s.withRegs r n).bit = n := rfl
@[simp] theorem withRegs_seq (r : Byte) (n : Nat) : (s.withRegs r n).seq = s.seq := rfl
@[simp] theorem withRegs_initialized (r : Byte) (n : Nat) : (s.withRegs r n).initialized = s.initialized := rfl
@[simp] theorem withRegs_busy (r : Byte) (n : Nat) : (s.withRegs r n).busy = s.busy := rfl
@[simp] theorem withRegs_fault (r : Byte) (n : Nat) : (s.withRegs r n).fault = s.fault := rfl
@[simp] theorem withRegs_refused (r : Byte) (n : Nat) : (s.withRegs r n).refused = s.refused := rfl
@[simp] theorem withRegs_result (r : Byte) (n : Nat) : (s.withRegs r n).result = s.result := rfl
@[simp] theorem withRegs_cfg (r : Byte) (n : Nat) : (s.withRegs r n).cfg = s.cfg := rfl
@[simp] theorem withRegs_stb (r : Byte) (n : Nat) : (s.withRegs r n).stb = s.stb := rfl
@[simp] theorem withRegs_clk (r : Byte) (n : Nat) : (s.withRegs r n).clk = s.clk := rfl
@[simp] theorem withRegs_dio (r : Byte) (n : Nat) : (s.withRegs r n).dio = s.dio := rfl
@[simp] theorem withRegs_trace (r : Byte) (n : Nat) : (s.withRegs r n).trace = s.trace := rfl
@[simp] theorem withRegs_obs (r : Byte) (n : Nat) : (s.withRegs r n).obs = s.obs := rfl
@[simp] theorem withRegs_dev (r : Byte) (n : Nat) : (s.withRegs r n).dev = s.dev := rfl
@[simp] theorem withRegs_reqValid (r : Byte) (n : Nat) : (s.withRegs r n).reqValid = s.reqValid := rfl
@[simp] theorem withRegs_reqWord (r : Byte) (n : Nat) : (s.withRegs r n).reqWord = s.reqWord := rfl
@[simp] theorem withRegs_hostBlink (r : Byte) (n : Nat) : (s.withRegs r n).hostBlink = s.hostBlink := rfl
@[simp] theorem withRegs_hostInput (r : Byte) (n : Nat) : (s.withRegs r n).hostInput = s.hostInput := rfl
@[simp] theorem withRegs_rx (r : Byte) (n : Nat) : (s.withRegs r n).rx = s.rx := rfl
@[simp] theorem withRegs_draws (r : Byte) (n : Nat) : (s.withRegs r n).draws = s.draws := rfl

@[simp] theorem withTrace_sr (e : TraceEntry) : (s.withTrace e).sr = s.sr := rfl
@[simp] theorem withTrace_bit (e : TraceEntry) : (s.withTrace e).bit = s.bit := rfl
@[simp] theorem withTrace_seq (e : TraceEntry) : (s.withTrace e).seq = s.seq := rfl
@[simp] theorem withTrace_initialized (e : TraceEntry) : (s.withTrace e).initialized = s.initialized := rfl
@[simp] theorem withTrace_busy (e : TraceEntry) : (s.withTrace e).busy = s.busy := rfl
@[simp] theorem withTrace_fault (e : TraceEntry) : (s.withTrace e).fault = s.fault := rfl
@[simp] theorem withTrace_refused (e : TraceEntry) : (s.withTrace e).refused = s.refused := rfl
@[simp] theorem withTrace_result (e : TraceEntry) : (s.withTrace e).result = s.result := rfl
@[simp] theorem withTrace_cfg (e : TraceEntry) : (s.withTrace e).cfg = s.cfg := rfl
@[simp] theorem withTrace_stb (e : TraceEntry) : (s.withTrace e).stb = s.stb := rfl
@[simp] theorem withTrace_clk (e : TraceEntry) : (s.withTrace e).clk = s.clk := rfl
@[simp] theorem withTrace_dio (e : TraceEntry) : (s.withTrace e).dio = s.dio := rfl
@[simp] theorem withTrace_trace (e : TraceEntry) : (s.withTrace e).trace = s.trace ++ [e] := rfl
@[simp] theorem withTrace_obs (e : TraceEntry) : (s.withTrace e).obs = s.obs := rfl
@[simp] theorem withTrace_dev (e : TraceEntry) : (s.withTrace e).dev = s.dev := rfl
@[simp] theorem withTrace_reqValid (e : TraceEntry) : (s.withTrace e).reqValid = s.reqValid := rfl
@[simp] theorem withTrace_reqWord (e : TraceEntry) : (s.withTrace e).reqWord = s.reqWord := rfl
@[simp] theorem withTrace_hostBlink (e : TraceEntry) : (s.withTrace e).hostBlink = s.hostBlink := rfl
@[simp] theorem withTrace_hostInput (e : TraceEntry) : (s.withTrace e).hostInput = s.hostInput := rfl
@[simp] theorem withTrace_rx (e : TraceEntry) : (s.withTrace e).rx = s.rx := rfl
@[simp] theorem withTrace_draws (e : TraceEntry) : (s.withTrace e).draws = s.draws := rfl

@[simp] theorem withObs_sr (o : Obs) : (s.withObs o).sr = s.sr := rfl
@[simp] theorem withObs_bit (o : Obs) : (s.withObs o).bit = s.bit := rfl
@[simp] theorem withObs_seq (o : Obs) : (s.withObs o).seq = s.seq := rfl
@[simp] theorem withObs_initialized (o : Obs) : (s.withObs o).initialized = s.initialized := rfl
@[simp] theorem withObs_busy (o : Obs) : (s.withObs o).busy = s.busy := rfl
@[simp] theorem withObs_fault (o : Obs) : (s.withObs o).fault = s.fault := rfl
@[simp] theorem withObs_refused (o : Obs) : (s.withObs o).refused = s.refused := rfl
@[simp] theorem withObs_result (o : Obs) : (s.withObs o).result = s.result := rfl
@[simp] theorem withObs_cfg (o : Obs) : (s.withObs o).cfg = s.cfg := rfl
@[simp] theorem withObs_stb (o : Obs) : (s.withObs o).stb = s.stb := rfl
@[simp] theorem withObs_clk (o : Obs) : (s.withObs o).clk = s.clk := rfl
@[simp] theorem withObs_dio (o : Obs) : (s.withObs o).dio = s.dio := rfl
@[simp] theorem withObs_trace (o : Obs) : (s.withObs o).trace = s.trace := rfl
@[simp] theorem withObs_obs (o : Obs) : (s.withObs o).obs = o := rfl
@[simp] theorem withObs_dev (o : Obs) : (s.withObs o).dev = s.dev := rfl
@[simp] theorem withObs_reqValid (o : Obs) : (s.withObs o).reqValid = s.reqValid := rfl
@[simp] theorem withObs_reqWord (o : Obs) : (s.withObs o).reqWord = s.reqWord := rfl
@[simp] theorem withObs_hostBlink (o : Obs) : (s.withObs o).hostBlink = s.hostBlink := rfl
@[simp] theorem withObs_hostInput (o : Obs) : (s.withObs o).hostInput = s.hostInput := rfl
@[simp] theorem withObs_rx (o : Obs) : (s.withObs o).rx = s.rx := rfl
@[simp] theorem withObs_draws (o : Obs) : (s.withObs o).draws = s.draws := rfl

@[simp] theorem withDev_sr (d : Dev) : (s.withDev d).sr = s.sr := rfl
@[simp] theorem withDev_bit (d : Dev) : (s.withDev d).bit = s.bit := rfl
@[simp] theorem withDev_seq (d : Dev) : (s.withDev d).seq = s.seq := rfl
@[simp] theorem withDev_initialized (d : Dev) : (s.withDev d).initialized = s.initialized := rfl
@[simp] theorem withDev_busy (d : Dev) : (s.withDev d).busy = s.busy := rfl
@[simp] theorem withDev_fault (d : Dev) : (s.withDev d).fault = s.fault := rfl
@[simp] theorem withDev_refused (d : Dev) : (s.withDev d).refused = s.refused := rfl
@[simp] theorem withDev_result (d : Dev) : (s.withDev d).result = s.result := rfl
@[simp] theorem withDev_cfg (d : Dev) : (s.withDev d).cfg = s.cfg := rfl
@[simp] theorem withDev_stb (d : Dev) : (s.withDev d).stb = s.stb := rfl
@[simp] theorem withDev_clk (d : Dev) : (s.withDev d).clk = s.clk := rfl
@[simp] theorem withDev_dio (d : Dev) : (s.withDev d).dio = s.dio := rfl
@[simp] theorem withDev_trace (d : Dev) : (s.withDev d).trace = s.trace := rfl
@[simp] theorem withDev_obs (d : Dev) : (s.withDev d).obs = s.obs := rfl
@[simp] theorem withDev_dev (d : Dev) : (s.withDev d).dev = d := rfl
@[simp] theorem withDev_reqValid (d : Dev) : (s.withDev d).reqValid = s.reqValid := rfl
@[simp] theorem withDev_reqWord (d : Dev) : (s.withDev d).reqWord = s.reqWord := rfl
@[simp] theorem withDev_hostBlink (d : Dev) : (s.withDev d).hostBlink = s.hostBlink := rfl
@[simp] theorem withDev_hostInput (d : Dev) : (s.withDev d).hostInput = s.hostInput := rfl
@[simp] theorem withDev_rx (d : Dev) : (s.withDev d).rx = s.rx := rfl
@[simp] theorem withDev_draws (d : Dev) : (s.withDev d).draws = s.draws := rfl

@[simp] theorem withRx_sr (is : List Instr) : (s.withRx is).sr = s.sr := rfl
@[simp] theorem withRx_bit (is : List Instr) : (s.withRx is).bit = s.bit := rfl
@[simp] theorem withRx_seq (is : List Instr) : (s.withRx is).seq = s.seq := rfl
@[simp] theorem withRx_initialized (is : List Instr) : (s.withRx is).initialized = s.initialized := rfl
@[simp] theorem withRx_busy (is : List Instr) : (s.withRx is).busy = s.busy := rfl
@[simp] theorem withRx_fault (is : List Instr) : (s.withRx is).fault = s.fault := rfl
@[simp] theorem withRx_refused (is : List Instr) : (s.withRx is).refused = s.refused := rfl
@[simp] theorem withRx_result (is : List Instr) : (s.withRx is).result = s.result := rfl
@[simp] theorem withRx_cfg (is : List Instr) : (s.withRx is).cfg = s.cfg := rfl
@[simp] theorem withRx_stb (is : List Instr) : (s.withRx is).stb = s.stb := rfl
@[simp] theorem withRx_clk (is : List Instr) : (s.withRx is).clk = s.clk := rfl
@[simp] theorem withRx_dio (is : List Instr) : (s.withRx is).dio = s.dio := rfl
@[simp] theorem withRx_trace (is : List Instr) : (s.withRx is).trace = s.trace := rfl
@[simp] theorem withRx_obs (is : List Instr) : (s.withRx is).obs = s.obs := rfl
@[simp] theorem withRx_dev (is : List Instr) : (s.withRx is).dev = s.dev := rfl
@[simp] theorem withRx_reqValid (is : List Instr) : (s.withRx is).reqValid = s.reqValid := rfl
@[simp] theorem withRx_reqWord (is : List Instr) : (s.withRx is).reqWord = s.reqWord := rfl
@[simp] theorem withRx_hostBlink (is : List Instr) : (s.withRx is).hostBlink = s.hostBlink := rfl
@[simp] theorem withRx_hostInput (is : List Instr) : (s.withRx is).hostInput = s.hostInput := rfl
@[simp] theorem withRx_rx (is : List Instr) : (s.withRx is).rx = is := rfl
@[simp] theorem withRx_draws (is : List Instr) : (s.withRx is).draws = s.draws := rfl

@[simp] theorem withRequest_sr (b : Bool) (w : ReqWord) : (s.withRequest b w).sr = s.sr := rfl
@[simp] theorem withRequest_bit (b : Bool) (w : ReqWord) : (s.withRequest b w).bit = s.bit := rfl
@[simp] theorem withRequest_seq (b : Bool) (w : ReqWord) : (s.withRequest b w).seq = s.seq := rfl
@[simp] theorem withRequest_initialized (b : Bool) (w : ReqWord) : (s.withRequest b w).initialized = s.initialized := rfl
@[simp] theorem withRequest_busy (b : Bool) (w : ReqWord) : (s.withRequest b w).busy = s.busy := rfl
@[simp] theorem withRequest_fault (b : Bool) (w : ReqWord) : (s.withRequest b w).fault = s.fault := rfl
@[simp] theorem withRequest_refused (b : Bool) (w : ReqWord) : (s.withRequest b w).refused = s.refused := rfl
@[simp] theorem withRequest_result (b : Bool) (w : ReqWord) : (s.withRequest b w).result = s.result := rfl
@[simp] theorem withRequest_cfg (b : Bool) (w : ReqWord) : (s.withRequest b w).cfg = s.cfg := rfl
@[simp] theorem withRequest_stb (b : Bool) (w : ReqWord) : (s.withRequest b w).stb = s.stb := rfl
@[simp] theorem withRequest_clk (b : Bool) (w : ReqWord) : (s.withRequest b w).clk = s.clk := rfl
@[simp] theorem withRequest_dio (b : Bool) (w : ReqWord) : (s.withRequest b w).dio = s.dio := rfl
@[simp] theorem withRequest_trace (b : Bool) (w : ReqWord) : (s.withRequest b w).trace = s.trace := rfl
@[simp] theorem withRequest_obs (b : Bool) (w : ReqWord) : (s.withRequest b w).obs = s.obs := rfl
@[simp] theorem withRequest_dev (b : Bool) (w : ReqWord) : (s.withRequest b w).dev = s.dev := rfl
@[simp] theorem withRequest_reqValid (b : Bool) (w : ReqWord) : (s.withRequest b w).reqValid = b := rfl
@[simp] theorem withRequest_reqWord (b : Bool) (w : ReqWord) : (s.withRequest b w).reqWord = w := rfl
@[simp] theorem withRequest_hostBlink (b : Bool) (w : ReqWord) : (s.withRequest b w).hostBlink = s.hostBlink := rfl
@[simp] theorem withRequest_hostInput (b : Bool) (w : ReqWord) : (s.withRequest b w).hostInput = s.hostInput := rfl
@[simp] theorem withRequest_rx (b : Bool) (w : ReqWord) : (s.withRequest b w).rx = s.rx := rfl
@[simp] theorem withRequest_draws (b : Bool) (w : ReqWord) : (s.withRequest b w).draws = s.draws := rfl

@[simp] theorem withDraw_sr : (s.withDraw).sr = s.sr := rfl
@[simp] theorem withDraw_bit : (s.withDraw).bit = s.bit := rfl
@[simp] theorem withDraw_seq : (s.withDraw).seq = s.seq := rfl
@[simp] theorem withDraw_initialized : (s.withDraw).initialized = s.initialized := rfl
@[simp] theorem withDraw_busy : (s.withDraw).busy = s.busy := rfl
@[simp] theorem withDraw_fault : (s.withDraw).fault = s.fault := rfl
@[simp] theorem withDraw_refused : (s.withDraw).refused = s.refused := rfl
@[simp] theorem withDraw_result : (s.withDraw).result = s.result := rfl
@[simp] theorem withDraw_cfg : (s.withDraw).cfg = s.cfg := rfl
@[simp] theorem withDraw_stb : (s.withDraw).stb = s.stb := rfl
@[simp] theorem withDraw_clk : (s.withDraw).clk = s.clk := rfl
@[simp] theorem withDraw_dio : (s.withDraw).dio = s.dio := rfl
@[simp] theorem withDraw_trace : (s.withDraw).trace = s.trace := rfl
@[simp] theorem withDraw_obs : (s.withDraw).obs = s.obs := rfl
@[simp] theorem withDraw_dev : (s.withDraw).dev = s.dev := rfl
@[simp] theorem withDraw_reqValid : (s.withDraw).reqValid = s.reqValid := rfl
@[simp] theorem withDraw_reqWord : (s.withDraw).reqWord = s.reqWord := rfl
@[simp] theorem withDraw_hostBlink : (s.withDraw).hostBlink = s.hostBlink := rfl
@[simp] theorem withDraw_hostInput : (s.withDraw).hostInput = s.hostInput := rfl
@[simp] theorem withDraw_rx : (s.withDraw).rx = s.rx := rfl
@[simp] theorem withDraw_draws : (s.withDraw).draws = s.draws + 1 := rfl

@[simp] theorem withIdleLines_sr : (s.withIdleLines).sr = s.sr := rfl
@[simp] theorem withIdleLines_bit : (s.withIdleLines).bit = s.bit := rfl
@[simp] theorem withIdleLines_seq : (s.withIdleLines).seq = s.seq := rfl
@[simp] theorem withIdleLines_initialized : (s.withIdleLines).initialized = s.initialized := rfl
@[simp] theorem withIdleLines_busy : (s.withIdleLines).busy = s.busy := rfl
@[simp] theorem withIdleLines_fault : (s.withIdleLines).fault = s.fault := rfl
@[simp] theorem withIdleLines_refused : (s.withIdleLines).refused = s.refused := rfl
@[simp] theorem withIdleLines_result : (s.withIdleLines).result = s.result := rfl
@[simp] theorem withIdleLines_cfg : (s.withIdleLines).cfg = true := rfl
@[simp] theorem withIdleLines_stb : (s.withIdleLines).stb = .high := rfl
@[simp] theorem withIdleLines_clk : (s.withIdleLines).clk = .high := rfl
@[simp] theorem withIdleLines_dio : (s.withIdleLines).dio = .low := rfl
@[simp] theorem withIdleLines_trace : (s.withIdleLines).trace = s.trace := rfl
@[simp] theorem withIdleLines_obs : (s.withIdleLines).obs = s.obs := rfl
@[simp] theorem withIdleLines_dev : (s.withIdleLines).dev = s.dev := rfl
@[simp] theorem withIdleLines_reqValid : (s.withIdleLines).reqValid = s.reqValid := rfl
@[simp] theorem withIdleLines_reqWord : (s.withIdleLines).reqWord = s.reqWord := rfl
@[simp] theorem withIdleLines_hostBlink : (s.withIdleLines).hostBlink = s.hostBlink := rfl
@[simp] theorem withIdleLines_hostInput : (s.withIdleLines).hostInput = s.hostInput := rfl
@[simp] theorem withIdleLines_rx : (s.withIdleLines).rx = s.rx := rfl
@[simp] theorem withIdleLines_draws : (s.withIdleLines).draws = s.draws := rfl

@[simp] theorem withLine_sr (p : Pin) (l : Level) : (s.withLine p l).sr = s.sr := by cases p <;> rfl
@[simp] theorem withLine_bit (p : Pin) (l : Level) : (s.withLine p l).bit = s.bit := by cases p <;> rfl
@[simp] theorem withLine_seq (p : Pin) (l : Level) : (s.withLine p l).seq = s.seq := by cases p <;> rfl
@[simp] theorem withLine_initialized (p : Pin) (l : Level) : (s.withLine p l).initialized = s.initialized := by cases p <;> rfl
@[simp] theorem withLine_busy (p : Pin) (l : Level) : (s.withLine p l).busy = s.busy := by cases p <;> rfl
@[simp] theorem withLine_fault (p : Pin) (l : Level) : (s.withLine p l).fault = s.fault := by cases p <;> rfl
@[simp] theorem withLine_refused (p : Pin) (l : Level) : (s.withLine p l).refused = s.refused := by cases p <;> rfl
@[simp] theorem withLine_result (p : Pin) (l : Level) : (s.withLine p l).result = s.result := by cases p <;> rfl
@[simp] theorem withLine_cfg (p : Pin) (l : Level) : (s.withLine p l).cfg = s.cfg := by cases p <;> rfl
@[simp] theorem withLine_trace (p : Pin) (l : Level) : (s.withLine p l).trace = s.trace := by cases p <;> rfl
@[simp] theorem withLine_obs (p : Pin) (l : Level) : (s.withLine p l).obs = s.obs := by cases p <;> rfl
@[simp] theorem withLine_dev (p : Pin) (l : Level) : (s.withLine p l).dev = s.dev := by cases p <;> rfl
@[simp] theorem withLine_reqValid (p : Pin) (l : Level) : (s.withLine p l).reqValid = s.reqValid := by cases p <;> rfl
@[simp] theorem withLine_reqWord (p : Pin) (l : Level) : (s.withLine p l).reqWord = s.reqWord := by cases p <;> rfl
@[simp] theorem withLine_hostBlink (p : Pin) (l : Level) : (s.withLine p l).hostBlink = s.hostBlink := by cases p <;> rfl
@[simp] theorem withLine_hostInput (p : Pin) (l : Level) : (s.withLine p l).hostInput = s.hostInput := by cases p <;> rfl
@[simp] theorem withLine_rx (p : Pin) (l : Level) : (s.withLine p l).rx = s.rx := by cases p <;> rfl
@[simp] theorem withLine_draws (p : Pin) (l : Level) : (s.withLine p l).draws = s.draws := by cases p <;> rfl

@[simp] theorem withLine_stb_stb (l : Level) : (s.withLine .stb l).stb = l := rfl
@[simp] theorem withLine_stb_clk (l : Level) : (s.withLine .stb l).clk = s.clk := rfl
@[simp] theorem withLine_stb_dio (l : Level) : (s.withLine .stb l).dio = s.dio := rfl
@[simp] theorem withLine_clk_stb (l : Level) : (s.withLine .clk l).stb = s.stb := rfl
@[simp] theorem withLine_clk_clk (l : Level) : (s.withLine .clk l).clk = l := rfl
@[simp] theorem withLine_clk_dio (l : Level) : (s.withLine .clk l).dio = s.dio := rfl
@[simp] theorem withLine_dio_stb (l : Level) : (s.withLine .dio l).stb = s.stb := rfl
@[simp] theorem withLine_dio_clk (l : Level) : (s.withLine .dio l).clk = s.clk := rfl
@[simp] theorem withLine_dio_dio (l : Level) : (s.withLine .dio l).dio = l := rfl
@[simp] theorem line_stb : s.line .stb = s.stb := rfl
@[simp] theorem line_clk : s.line .clk = s.clk := rfl
@[simp] theorem line_dio : s.line .dio = s.dio := rfl

end Sys2Proof.Machine.State
end

