-- ==== Sys2Proof/Laws/Memory.lean ====
section
/-! SUPPORT. The laws of the display RAM (R52, R147): a write keeps the canonical form, a read after a write to the
same address gives the byte, and a write leaves every other address alone. -/

namespace Sys2Proof.Machine.Memory

@[simp] theorem read_nil (a : Nat) : Memory.read [] a = none := rfl

theorem wf_nil : Memory.wf [] := by simp [Memory.wf]

theorem write_mem {m : Memory} {a : Nat} {v : Byte} {c : Host.Cell} (h : c ∈ Memory.write m a v) :
    c = (a, v) ∨ c ∈ m := by
  induction m with
  | nil => simpa [Memory.write] using h
  | cons d m ih =>
    simp only [Memory.write] at h
    split at h
    · simpa using h
    · split at h
      · rcases List.mem_cons.1 h with h | h
        · exact .inl h
        · exact .inr (List.mem_cons_of_mem _ h)
      · rcases List.mem_cons.1 h with h | h
        · exact .inr (h ▸ List.mem_cons_self)
        · rcases ih h with h | h
          · exact .inl h
          · exact .inr (List.mem_cons_of_mem _ h)

/-- A write to one of the 16 addresses keeps the canonical form. -/
theorem write_wf {m : Memory} {a : Nat} (v : Byte) (hm : Memory.wf m) (ha : a < 16) :
    Memory.wf (Memory.write m a v) := by
  refine ⟨?_, fun c hc => ?_⟩
  · have hs := hm.1
    clear hm
    induction m with
    | nil => simp [Memory.write]
    | cons d m ih =>
      obtain ⟨hd, hm⟩ := List.pairwise_cons.1 hs
      simp only [Memory.write]
      split
      · rename_i hlt
        refine List.pairwise_cons.2 ⟨fun c hc => ?_, hs⟩
        rcases List.mem_cons.1 hc with rfl | hc
        · exact hlt
        · exact hlt.trans (hd c hc)
      · rename_i hlt
        split
        · rename_i heq
          exact List.pairwise_cons.2 ⟨fun c hc => heq ▸ hd c hc, hm⟩
        · rename_i hne
          refine List.pairwise_cons.2 ⟨fun c hc => ?_, ih hm⟩
          rcases write_mem hc with rfl | hc
          · show d.1 < a; omega
          · exact hd c hc
  · rcases write_mem hc with rfl | hc
    · exact ha
    · exact hm.2 c hc

/-- In the canonical form no address below the first entry is listed. -/
theorem read_eq_none_of_lt {m : Memory} {a : Nat} (h : ∀ c ∈ m, a < c.1) : Memory.read m a = none := by
  induction m with
  | nil => rfl
  | cons d m ih =>
    have := h d List.mem_cons_self
    simp [Memory.read, show d.1 ≠ a by omega, ih fun c hc => h c (List.mem_cons_of_mem _ hc)]

/-- A read after a write to the same address gives the byte. -/
@[simp] theorem read_write_same (m : Memory) (a : Nat) (v : Byte) :
    Memory.read (Memory.write m a v) a = some v := by
  induction m with
  | nil => simp [Memory.write, Memory.read]
  | cons d m ih =>
    simp only [Memory.write]
    split
    · simp [Memory.read]
    · split
      · simp [Memory.read]
      · rename_i hne
        simp [Memory.read, Ne.symm hne, ih]

/-- A write leaves every other address alone. -/
theorem read_write_other (m : Memory) {a x : Nat} (v : Byte) (h : x ≠ a) :
    Memory.read (Memory.write m a v) x = Memory.read m x := by
  induction m with
  | nil => simp [Memory.write, Memory.read, Ne.symm h]
  | cons d m ih =>
    simp only [Memory.write]
    split
    · simp [Memory.read, Ne.symm h]
    · split
      · rename_i heq
        simp [Memory.read, Ne.symm h, show d.1 ≠ x by omega]
      · simp [Memory.read, ih]

/-- Writing the same byte at the same address twice is writing it once. -/
theorem write_write_same (m : Memory) (a : Nat) (v u : Byte) :
    Memory.write (Memory.write m a v) a u = Memory.write m a u := by
  induction m with
  | nil => simp [Memory.write]
  | cons d m ih =>
    by_cases h1 : a < d.1
    · simp [Memory.write, h1]
    · by_cases h2 : a = d.1
      · simp [Memory.write, h2]
      · simp [Memory.write, h1, h2, ih]

end Sys2Proof.Machine.Memory
end

