-- ==== Sys2Proof/Laws/Ops.lean ====
section
/-! SUPPORT. What each shared operation can do, said once: the segment table read and the encoder, the controller's
operations, the observer's edges, one pin action, one sequencer step, the host's turn. Later proofs cite these and
do not unfold the operations. -/

namespace Sys2Proof.Machine

/-! ## The encoder -/

theorem segRead_digit {d : Digit} (h : d.toNat < 10) : segRead d = .ok (Config.segTable ⟨d.toNat, h⟩) := by
  simp [segRead, h]

theorem segRead_blank : segRead 10#4 = .ok 0x00#8 := by decide

theorem segRead_error {d : Digit} (h : 10 < d.toNat) : segRead d = .error .digitRange := by
  have h1 : ¬ d.toNat < 10 := by omega
  have h2 : d ≠ 10#4 := by rintro rfl; simp at h
  simp [segRead, h1, h2]

theorem segRead_ok {d : Digit} (h : d.toNat ≤ 10) : ∃ p, segRead d = .ok p := by
  rcases Nat.lt_or_ge d.toNat 10 with h1 | h1
  · exact ⟨_, segRead_digit h1⟩
  · obtain rfl : d = 10#4 := BitVec.eq_of_toNat_eq (by simpa using Nat.le_antisymm h h1)
    exact ⟨_, segRead_blank⟩

@[simp] theorem enc_of_ok {d : Digit} {p : Byte} (dot : Bool) (h : segRead d = .ok p) :
    enc d dot = .ok (withDot p dot) := by
  simp [enc, h]

theorem enc_error {d : Digit} (dot : Bool) (h : 10 < d.toNat) : enc d dot = .error .digitRange := by
  simp [enc, segRead_error h]

theorem enc_ok {d : Digit} (dot : Bool) (h : d.toNat ≤ 10) : ∃ p, enc d dot = .ok p := by
  obtain ⟨p, hp⟩ := segRead_ok h
  exact ⟨_, enc_of_ok dot hp⟩

/-- The encoder has one error, and it is the digit's range that gives it. -/
theorem enc_cases (d : Digit) (dot : Bool) :
    (10 < d.toNat ∧ enc d dot = .error .digitRange) ∨ (d.toNat ≤ 10 ∧ ∃ p, enc d dot = .ok p) := by
  rcases Nat.lt_or_ge 10 d.toNat with h | h
  · exact .inl ⟨h, enc_error dot h⟩
  · exact .inr ⟨h, enc_ok dot h⟩

/-! ## The controller -/

@[simp] theorem ptrOf_val (a : BitVec 4) : (ptrOf a).val = a.toNat := rfl

@[simp] theorem Dev.havoc_eq (d : Dev) : d.havoc = Dev.unknown := rfl
@[simp] theorem Dev.setMode_mode (d : Dev) : d.setMode.mode = some .writeAutoinc := rfl
@[simp] theorem Dev.setMode_power (d : Dev) : d.setMode.power = d.power := rfl
@[simp] theorem Dev.setMode_bright (d : Dev) : d.setMode.bright = d.bright := rfl
@[simp] theorem Dev.setMode_ptr (d : Dev) : d.setMode.ptr = d.ptr := rfl
@[simp] theorem Dev.setMode_ram (d : Dev) : d.setMode.ram = d.ram := rfl
@[simp] theorem Dev.setDisplay_mode (d : Dev) (b : BitVec 3) : (d.setDisplay b).mode = d.mode := rfl
@[simp] theorem Dev.setDisplay_power (d : Dev) (b : BitVec 3) : (d.setDisplay b).power = some .on := rfl
@[simp] theorem Dev.setDisplay_bright (d : Dev) (b : BitVec 3) : (d.setDisplay b).bright = some b := rfl
@[simp] theorem Dev.setDisplay_ptr (d : Dev) (b : BitVec 3) : (d.setDisplay b).ptr = d.ptr := rfl
@[simp] theorem Dev.setDisplay_ram (d : Dev) (b : BitVec 3) : (d.setDisplay b).ram = d.ram := rfl
@[simp] theorem Dev.setPtr_mode (d : Dev) (a : BitVec 4) : (d.setPtr a).mode = d.mode := rfl
@[simp] theorem Dev.setPtr_power (d : Dev) (a : BitVec 4) : (d.setPtr a).power = d.power := rfl
@[simp] theorem Dev.setPtr_bright (d : Dev) (a : BitVec 4) : (d.setPtr a).bright = d.bright := rfl
@[simp] theorem Dev.setPtr_ptr (d : Dev) (a : BitVec 4) : (d.setPtr a).ptr = some (ptrOf a) := rfl
@[simp] theorem Dev.setPtr_ram (d : Dev) (a : BitVec 4) : (d.setPtr a).ram = d.ram := rfl

/-- A data byte is stored when the mode is documented and the address is one of the 16. -/
theorem Dev.store_of_ptr {d : Dev} {p : Fin 17} (v : Byte) (hm : d.mode = some .writeAutoinc)
    (hp : d.ptr = some p) (h : p.val < 16) :
    d.store v = { d with ram := Memory.write d.ram p.val v, ptr := some ⟨p.val + 1, by omega⟩ } := by
  obtain ⟨m, w, b, q, r⟩ := d
  simp only at hm hp
  subst hm hp
  simp [Dev.store, h]

/-- Otherwise nothing of the controller is known. -/
theorem Dev.store_havoc {d : Dev} (v : Byte)
    (h : d.mode = none ∨ d.ptr = none ∨ ∃ p, d.ptr = some p ∧ 16 ≤ p.val) : d.store v = Dev.unknown := by
  obtain ⟨m, w, b, q, r⟩ := d
  rcases h with h | h | ⟨p, h, hp⟩ <;> simp only at h <;> subst h
  · rfl
  · rcases m with _ | ⟨⟩ <;> rfl
  · rcases m with _ | ⟨⟩
    · rfl
    · simp [Dev.store, show ¬ p.val < 16 by omega]

/-- A data byte is stored, or nothing is known any more. -/
theorem Dev.store_cases (d : Dev) (v : Byte) :
    d.store v = Dev.unknown ∨
      ∃ (p : Fin 17) (h : p.val < 16), d.mode = some .writeAutoinc ∧ d.ptr = some p ∧
        d.store v = { d with ram := Memory.write d.ram p.val v, ptr := some ⟨p.val + 1, by omega⟩ } := by
  rcases hm : d.mode with _ | ⟨⟩
  · exact .inl (Dev.store_havoc v (.inl hm))
  · rcases hp : d.ptr with _ | p
    · exact .inl (Dev.store_havoc v (.inr (.inl hp)))
    · rcases Nat.lt_or_ge p.val 16 with h | h
      · exact .inr ⟨p, h, rfl, rfl, by rw [Dev.store_of_ptr v hm hp h, hm]⟩
      · exact .inl (Dev.store_havoc v (.inr (.inr ⟨p, hp, h⟩)))

theorem Dev.store_ram_wf {d : Dev} (v : Byte) (h : Memory.wf d.ram) : Memory.wf (d.store v).ram := by
  rcases Dev.store_cases d v with h1 | ⟨p, hp, _, _, h1⟩
  · rw [h1]; exact Memory.wf_nil
  · rw [h1]; exact Memory.write_wf v h hp

/-! ## The observer -/

/-- A sample fills the byte or counts a bit; the frames and the strays stay. -/
theorem Obs.sample_frame (o : Obs) (b : Bool) :
    (o.sample b).isOpen = o.isOpen ∧ (o.sample b).frames = o.frames ∧ (o.sample b).stray = o.stray := by
  simp only [Obs.sample]
  split <;> simp

theorem Obs.sample_n_lt {o : Obs} (b : Bool) (h : o.n < 8) : (o.sample b).n < 8 := by
  simp only [Obs.sample, Config.byteBits]
  split
  · simp
  · simp only
    omega

/-! ## One edge -/

/-- What an edge can do: the observer or the controller takes notice, and no other field changes. -/
theorem observeEdge_frame (p : Pin) (old : Level) (b : Bool) (s : State) :
    ∃ o d is, observeEdge p old b s = ((s.withObs o).withDev d).withRx is ∧
      (o = s.obs ∧ d = s.dev ∧ is = s.rx ∨
        p = .stb ∧ old = .high ∧ b = false ∧ o = s.obs.openFrame ∧ d = s.dev ∧ is = s.rx ∨
        p = .stb ∧ old = .low ∧ b = true ∧ s.obs.isOpen = true ∧ o = s.obs.closeFrame ∧
          (decodeFrame s.obs.bytes s.obs.n = .ok is ∧ d = s.dev ∨
            (∃ r, decodeFrame s.obs.bytes s.obs.n = .error r) ∧ d = Dev.unknown ∧ is = s.rx) ∨
        p = .clk ∧ old = .low ∧ b = true ∧ is = s.rx ∧
          (s.obs.isOpen = true ∧ o = s.obs.sample (s.dio == .high) ∧ d = s.dev ∨
            s.obs.isOpen = false ∧ o = s.obs.countStray ∧ d = Dev.unknown)) := by
  have same : ∃ o d is, s = ((s.withObs o).withDev d).withRx is ∧ o = s.obs ∧ d = s.dev ∧ is = s.rx :=
    ⟨_, _, _, rfl, rfl, rfl, rfl⟩
  cases p <;> cases old <;> cases b <;> simp only [observeEdge]
  case stb.low.true =>
    simp only [strobeRise]
    by_cases ho : s.obs.isOpen = true
    · rw [if_pos ho]
      rcases hf : decodeFrame s.obs.bytes s.obs.n with r | is
      · exact ⟨s.obs.closeFrame, Dev.unknown, s.rx, rfl, by simp [ho]⟩
      · exact ⟨s.obs.closeFrame, s.dev, is, rfl, by simp [ho]⟩
    · rw [if_neg ho]
      exact ⟨s.obs, s.dev, s.rx, rfl, by simp⟩
  case stb.high.false => exact ⟨s.obs.openFrame, s.dev, s.rx, rfl, by simp⟩
  case clk.low.true =>
    simp only [clockRise]
    by_cases ho : s.obs.isOpen = true
    · rw [if_pos ho]
      exact ⟨s.obs.sample (s.dio == .high), s.dev, s.rx, rfl, by simp [ho]⟩
    · rw [if_neg ho]
      refine ⟨s.obs.countStray, Dev.unknown, s.rx, rfl, ?_⟩
      simp only [Bool.not_eq_true] at ho
      simp [ho]
  all_goals
    obtain ⟨o, d, is, h, h1⟩ := same
    exact ⟨o, d, is, h, .inl h1⟩

/-! ## The instructions of a frame -/

/-- The controller's instructions change `dev` and nothing else, and never stop. -/
theorem exec_busByte {i : Instr} (h : i.isBusByte = true) (s : State) :
    ∃ d, exec i s = .next (s.withDev d) ∧ (Memory.wf s.dev.ram → Memory.wf d.ram) := by
  cases i with
  | cmdMode => exact ⟨_, rfl, id⟩
  | cmdDisplayOn b => exact ⟨_, rfl, id⟩
  | addr a => exact ⟨_, rfl, id⟩
  | data v => exact ⟨_, rfl, Dev.store_ram_wf v⟩
  | _ => simp [Instr.isBusByte, Instr.place] at h

/-- Every instruction of a decoded frame is a bus byte. -/
theorem decodeFirstByte_busByte {b : Byte} {i : Instr} (h : decodeFirstByte b = .ok i) : i.isBusByte = true := by
  simp only [decodeFirstByte] at h
  split_ifs at h <;> cases h <;> rfl

theorem decodeFrame_busBytes {bytes : List Byte} {n : Nat} {is : List Instr}
    (h : decodeFrame bytes n = .ok is) : ∀ i ∈ is, i.isBusByte = true := by
  simp only [decodeFrame] at h
  split_ifs at h
  split at h
  · cases h
  · split at h
    · cases h
    · rename_i hb
      split_ifs at h
      cases h
      simpa using decodeFirstByte_busByte hb
  · split at h
    · cases h
    · rename_i hb
      split_ifs at h
      cases h
      intro i hi
      rcases List.mem_cons.1 hi with rfl | hi
      · exact decodeFirstByte_busByte hb
      · obtain ⟨v, _, rfl⟩ := List.mem_map.1 hi
        rfl

/-- Every instruction answers a next state: a contract violation is recorded in it (R171). -/
theorem exec_next (i : Instr) (s : State) : ∃ t, exec i s = .next t := by
  cases i with
  | encode d dot =>
    simp only [exec, execEncode]
    split <;> exact ⟨_, rfl⟩
  | init =>
    simp only [exec, execInit]
    split <;> exact ⟨_, rfl⟩
  | displayNumber d1 d2 dot1 dot2 =>
    simp only [exec, execDisplayNumber]
    split
    · split
      · exact ⟨_, rfl⟩
      · split <;> exact ⟨_, rfl⟩
    · exact ⟨_, rfl⟩
  | _ => exact ⟨_, rfl⟩

theorem receiveAll_next (is : List Instr) (s : State) : ∃ t, receiveAll is s = .next t := by
  induction is generalizing s with
  | nil => exact ⟨_, rfl⟩
  | cons i is ih =>
    obtain ⟨t, ht⟩ := exec_next i s
    obtain ⟨u, hu⟩ := ih t
    exact ⟨u, by simp [receiveAll, ht, hu]⟩

@[simp] theorem receiveAll_nil (s : State) : receiveAll [] s = .next s := rfl

theorem receiveAll_cons {i : Instr} {s t : State} (is : List Instr) (h : exec i s = .next t) :
    receiveAll (i :: is) s = receiveAll is t := by
  simp [receiveAll, h]

/-- Bus bytes taken one after another change `dev` and nothing else. -/
theorem receiveAll_busBytes {is : List Instr} (h : ∀ i ∈ is, i.isBusByte = true) (s : State) :
    ∃ d, receiveAll is s = .next (s.withDev d) ∧ (Memory.wf s.dev.ram → Memory.wf d.ram) := by
  induction is generalizing s with
  | nil => exact ⟨s.dev, rfl, id⟩
  | cons i is ih =>
    obtain ⟨d, hd, hw⟩ := exec_busByte (h i List.mem_cons_self) s
    obtain ⟨e, he, hx⟩ := ih (fun j hj => h j (List.mem_cons_of_mem _ hj)) (s.withDev d)
    refine ⟨e, ?_, fun hs => hx (hw hs)⟩
    rw [receiveAll_cons is hd, he]
    rfl

/-! ## The host's turn -/

/-- What the host's turn changes: the port, the requests still to present and the draws. -/
theorem hostPresent_frame (s : State) :
    ∃ v w b i n, hostPresent s =
      { s with reqValid := v, reqWord := w, hostBlink := b, hostInput := i, draws := n } := by
  simp only [hostPresent]
  split
  · exact ⟨_, _, _, _, _, rfl⟩
  · split
    · exact ⟨_, _, _, _, _, rfl⟩
    · exact ⟨_, _, _, _, _, rfl⟩
    · exact ⟨_, _, _, _, _, rfl⟩
    · split <;> exact ⟨_, _, _, _, _, rfl⟩

@[simp] theorem hostPresent_of_valid {s : State} (h : s.reqValid = true) : hostPresent s = s := by
  simp [hostPresent, h]

theorem hostPresent_idle {s : State} (h1 : s.hostBlink = []) (h2 : s.hostInput = []) : hostPresent s = s := by
  simp [hostPresent, h1, h2]

/-- A drawn length is at or above its minimum (R14), and nothing else is known of it (R10). -/
theorem le_drawnDelay (t : Nat) (s : State) : (t : Rat) ≤ drawnDelay t s :=
  le_add_of_nonneg_right (Config.delayExtra s.draws).2

end Sys2Proof.Machine
end

