-- ==== Sys2Proof/Laws/Words.lean ====
section
/-! SUPPORT. The fields of a request word that `requestWord` put together (R70): each reads back, and a word whose
reserved bits are 0 is the word of its fields. -/

namespace Sys2Proof

@[simp] theorem reqOp_requestWord (op : BitVec 3) (a b : Byte) : reqOp (requestWord op a b) = op := by
  simp only [reqOp, requestWord]
  ext i hi
  simp
  grind

@[simp] theorem reqRsv_requestWord (op : BitVec 3) (a b : Byte) : reqRsv (requestWord op a b) = 0 := by
  simp only [reqRsv, requestWord]
  ext i hi
  simp
  grind

@[simp] theorem reqA_requestWord (op : BitVec 3) (a b : Byte) : reqA (requestWord op a b) = a := by
  simp only [reqA, requestWord]
  ext i hi
  simp
  grind

@[simp] theorem reqB_requestWord (op : BitVec 3) (a b : Byte) : reqB (requestWord op a b) = b := by
  simp only [reqB, requestWord]
  ext i hi
  simp
  grind

theorem requestWord_fields (w : ReqWord) (h : reqRsv w = 0) : w = requestWord (reqOp w) (reqA w) (reqB w) := by
  simp only [reqOp, reqRsv, reqA, reqB, requestWord] at *
  have hb : ∀ i, 16 ≤ i → i < 21 → w.getLsbD i = false := by
    intro i h1 h2
    have := congrArg (fun x => BitVec.getLsbD x (i - 16)) h
    simp at this
    rw [show 16 + (i - 16) = i by omega] at this
    exact this (by omega)
  ext i hi
  simp [← BitVec.getLsbD_eq_getElem]
  grind

/-- A first byte that decodes is its instruction's encoding. -/
theorem encode_of_decodeFirstByte {b : Byte} {i : Instr} (h : decodeFirstByte b = .ok i) :
    encode i = .firstByte b := by
  have hall : ∀ b : Byte,
      (match decodeFirstByte b with | .ok i => decide (encode i = .firstByte b) | .error _ => true) = true := by
    decide
  have := hall b
  rw [h] at this
  simpa using this

/-- The bytes of a first byte's encoding decode to it. -/
theorem decodeFirstByte_displayOn : ∀ b : BitVec 3, decodeFirstByte (0x88#8 ||| b.setWidth 8) = .ok (.cmdDisplayOn b) := by
  decide

theorem decodeFirstByte_addr : ∀ a : BitVec 4, decodeFirstByte (0b1100#4 ++ a) = .ok (.addr a) := by decide

end Sys2Proof
end

