-- ==== Sys2Proof/Laws/PerInstr.lean ====
section
/-! SUPPORT. Per instruction: its encoding selects the row of spec/opcode_table.json that bears its mnemonic, at the
place where the row stands (R74). -/

namespace Sys2Proof.Laws.TableRow

/-- The encoding of the instruction has the fixed bits of its row of the opcode table. -/
def Statement (i : Instr) : Prop :=
  match encode i with
  | .request w => i.place = .request ∧ ∃ r ∈ requestRows, r.mnemonic = i.mnemonic ∧ r.selects w = true
  | .firstByte b => i.place = .firstByte ∧ ∃ r ∈ firstByteRows, r.mnemonic = i.mnemonic ∧ r.selects b = true
  | .dataByte b => i.place = .dataByte ∧ rowData.mnemonic = i.mnemonic ∧ rowData.selects b = true

theorem encode (digit : Digit) (dot : Bool) : Statement (.encode digit dot) :=
  ⟨rfl, rowEncode, by decide, rfl, by revert digit dot; decide⟩

theorem init : Statement .init := ⟨rfl, rowInit, by decide, rfl, by decide⟩

theorem sendByte (value : Byte) : Statement (.sendByte value) :=
  ⟨rfl, rowSendByte, by decide, rfl, by revert value; decide⟩

theorem sendCommand (cmd : Byte) : Statement (.sendCommand cmd) :=
  ⟨rfl, rowSendCommand, by decide, rfl, by revert cmd; decide⟩

theorem sendData (addr value : Byte) : Statement (.sendData addr value) := by
  refine ⟨rfl, rowSendData, by decide, rfl, ?_⟩
  have h : requestWord 0b100#3 addr value &&& 0xFF0000#24 = 0x800000#24 := by
    have hm : ∀ i, i < 24 → (0xFF0000#24).getLsbD i = decide (16 ≤ i) := by decide
    have hp : ∀ i, i < 24 → (0x800000#24).getLsbD i = decide (i = 23) := by decide
    have ho : ∀ i, i < 8 → (0b100#3 ++ 0#5).getLsbD i = decide (i = 7) := by decide
    ext i hi
    rw [← BitVec.getLsbD_eq_getElem, ← BitVec.getLsbD_eq_getElem, BitVec.getLsbD_and, hm i hi, hp i hi]
    rw [requestWord, BitVec.getLsbD_append, BitVec.getLsbD_append]
    by_cases h16 : 16 ≤ i
    · rw [ho (i - 8 - 8) (by omega)]
      simp [show ¬ i < 8 by omega, show ¬ i - 8 < 8 by omega, h16]
      omega
    · simp [h16]
      omega
  exact beq_iff_eq.2 h

theorem displayNumber (d1 d2 : Digit) (dot1 dot2 : Bool) : Statement (.displayNumber d1 d2 dot1 dot2) :=
  ⟨rfl, rowDisplayNumber, by decide, rfl, by revert d1 d2 dot1 dot2; decide⟩

theorem cmdMode : Statement .cmdMode := ⟨rfl, rowCmdMode, by decide, rfl, by decide⟩

theorem cmdDisplayOn (brightness : BitVec 3) : Statement (.cmdDisplayOn brightness) :=
  ⟨rfl, rowCmdDisplayOn, by decide, rfl, by revert brightness; decide⟩

theorem addr (a : BitVec 4) : Statement (.addr a) := ⟨rfl, rowAddr, by decide, rfl, by revert a; decide⟩

theorem data (value : Byte) : Statement (.data value) := ⟨rfl, rfl, by revert value; decide⟩

end Sys2Proof.Laws.TableRow
end

