-- ==== Sys2Proof/Laws/Step.lean ====
section
/-! SUPPORT. One step, said once. A frame's effect on the controller is a function of its bytes; a sequencer step is
the act of its head with that effect; a request either violates the contract or is accepted; and a step is one of
the cases of `step_cases`. -/

namespace Sys2Proof.Machine

/-! ## A frame as a function on the controller -/

/-- The effect of one bus byte on the controller; a request has none. -/
def busEffect : Instr → Dev → Dev
  | .cmdMode, d => d.setMode
  | .cmdDisplayOn b, d => d.setDisplay b
  | .addr a, d => d.setPtr a
  | .data v, d => d.store v
  | .encode _ _, d => d
  | .init, d => d
  | .sendByte _, d => d
  | .sendCommand _, d => d
  | .sendData _ _, d => d
  | .displayNumber _ _ _ _, d => d

/-- The effect of bus bytes taken in order. -/
def busEffects (is : List Instr) (d : Dev) : Dev := is.foldl (fun e i => busEffect i e) d

/-- The effect of a closed frame (R145, R148 to R153). -/
def frameEffect (bytes : List Byte) (n : Nat) (d : Dev) : Dev :=
  match decodeFrame bytes n with
  | .ok is => busEffects is d
  | .error _ => Dev.unknown

theorem exec_busEffect {i : Instr} (h : i.isBusByte = true) (s : State) :
    exec i s = .next (s.withDev (busEffect i s.dev)) := by
  cases i <;> first | rfl | simp [Instr.isBusByte, Instr.place] at h

theorem receiveAll_busEffects {is : List Instr} (h : ∀ i ∈ is, i.isBusByte = true) (s : State) :
    receiveAll is s = .next (s.withDev (busEffects is s.dev)) := by
  induction is generalizing s with
  | nil => rfl
  | cons i is ih =>
    rw [receiveAll_cons is (exec_busEffect (h i List.mem_cons_self) s),
      ih (fun j hj => h j (List.mem_cons_of_mem _ hj))]
    rfl

theorem busEffect_ram_wf (i : Instr) {d : Dev} (h : Memory.wf d.ram) : Memory.wf (busEffect i d).ram := by
  cases i <;> first | exact h | exact Dev.store_ram_wf _ h

theorem busEffects_ram_wf (is : List Instr) {d : Dev} (h : Memory.wf d.ram) :
    Memory.wf (busEffects is d).ram := by
  induction is generalizing d with
  | nil => exact h
  | cons i is ih => exact ih (busEffect_ram_wf i h)

theorem frameEffect_ram_wf (bytes : List Byte) (n : Nat) {d : Dev} (h : Memory.wf d.ram) :
    Memory.wf (frameEffect bytes n d).ram := by
  simp only [frameEffect]
  split
  · exact busEffects_ram_wf _ h
  · exact Memory.wf_nil

/-! ## A sequencer step -/

/-- A driven line as the observer and the controller see it, in one step (R141 to R146). -/
def seenEdge (p : Pin) (old : Level) (b : Bool) (s : State) : State :=
  match p, old, b with
  | .stb, .high, false => s.withObs s.obs.openFrame
  | .stb, .low, true =>
    if s.obs.isOpen then
      (s.withObs s.obs.closeFrame).withDev (frameEffect s.obs.bytes s.obs.n s.dev)
    else s
  | .clk, .low, true => clockRise s
  | _, _, _ => s

/-- The act of one entry of `s.seq`, the controller's part included. -/
def acted (a : PinAction) (s : State) : State :=
  match a with
  | .configIdle => configIdle s
  | .setPin p b => seenEdge p (s.line p) b ((s.withTrace (.setPin p b)).withLine p (Level.ofBit b))
  | .delayAtLeast t => delayAtLeast t s

@[simp] theorem withRx_of_empty {s : State} (h : s.rx = []) : s.withRx [] = s := by
  cases s; simp only at h; subst h; rfl

theorem takeFrame_of_empty {s : State} (h : s.rx = []) : takeFrame s = .next s := by
  simp [takeFrame, h]

theorem transferRegs_rx (t : Transfer) (s : State) : (transferRegs t s).rx = s.rx := by
  cases t <;> rfl

theorem takeFrame_setPin (p : Pin) (b : Bool) {s : State} (h : s.rx = []) :
    takeFrame (setPin p b s) =
      .next (seenEdge p (s.line p) b ((s.withTrace (.setPin p b)).withLine p (Level.ofBit b))) := by
  have hr : ((s.withTrace (.setPin p b)).withLine p (Level.ofBit b)).rx = [] := by simp [h]
  simp only [setPin]
  generalize (s.withTrace (.setPin p b)).withLine p (Level.ofBit b) = u at hr
  generalize s.line p = old
  cases p <;> cases old <;> cases b <;> simp only [observeEdge, seenEdge]
  case stb.low.true =>
    simp only [strobeRise]
    by_cases ho : u.obs.isOpen = true
    · rw [if_pos ho, if_pos ho]
      rcases hf : decodeFrame u.obs.bytes u.obs.n with r | is
      · simp only [frameEffect, hf, Dev.havoc_eq]
        exact takeFrame_of_empty (by simp [hr])
      · simp only [frameEffect, hf, takeFrame, State.withRx_rx]
        rw [receiveAll_busEffects (decodeFrame_busBytes hf)]
        cases u; simp only at hr; subst hr; rfl
    · rw [if_neg ho, if_neg ho]
      exact takeFrame_of_empty hr
  case clk.low.true =>
    refine takeFrame_of_empty ?_
    simp only [clockRise]
    split <;> simp [hr]
  all_goals exact takeFrame_of_empty (by simp [strobeFall, hr])

/-- A sequencer step is the act of its head, after the register transfer that runs with it (R33, R108). -/
theorem sequencerStep_eq {s : State} {m : SeqItem} {rest : List SeqItem} (hr : s.rx = [])
    (hs : s.seq = m :: rest) :
    sequencerStep s = .next (acted m.act (transferRegs m.transfer (s.withSeq rest))) := by
  have h : (transferRegs m.transfer (s.withSeq rest)).rx = [] := by rw [transferRegs_rx]; simpa using hr
  simp only [sequencerStep, performHead, hs]
  cases m.act with
  | configIdle => exact takeFrame_of_empty (by simpa [perform, configIdle] using h)
  | setPin p b => exact takeFrame_setPin p b h
  | delayAtLeast t => exact takeFrame_of_empty (by simpa [perform, delayAtLeast] using h)

theorem sequencerStep_nil {s : State} (hr : s.rx = []) (hs : s.seq = []) : sequencerStep s = .next s := by
  simp only [sequencerStep, performHead, hs]
  exact takeFrame_of_empty hr

/-- What an edge leaves unchanged: everything but the observer and the controller. -/
theorem seenEdge_frame (p : Pin) (old : Level) (b : Bool) (s : State) :
    ∃ o d, seenEdge p old b s = (s.withObs o).withDev d := by
  cases p <;> cases old <;> cases b <;> simp only [seenEdge]
  case stb.high.false => exact ⟨s.obs.openFrame, s.dev, rfl⟩
  case stb.low.true =>
    by_cases ho : s.obs.isOpen = true
    · rw [if_pos ho]; exact ⟨s.obs.closeFrame, frameEffect s.obs.bytes s.obs.n s.dev, rfl⟩
    · rw [if_neg ho]; exact ⟨s.obs, s.dev, rfl⟩
  case clk.low.true =>
    simp only [clockRise]
    by_cases ho : s.obs.isOpen = true
    · rw [if_pos ho]; exact ⟨s.obs.sample (s.dio == .high), s.dev, rfl⟩
    · rw [if_neg ho]; exact ⟨s.obs.countStray, Dev.unknown, rfl⟩
  all_goals exact ⟨s.obs, s.dev, rfl⟩

/-! ## A request -/

/-- A request violates its contract and changes `s.fault` alone; or ENCODE writes the result; or INIT or a driver
request starts its list (R170, R171). -/
theorem exec_request_cases {i : Instr} (h : i.isRequest = true) (s : State) :
    (∃ c, contractFault s.initialized i = some c ∧ exec i s = .next (raiseFault c s)) ∨
      contractFault s.initialized i = none ∧
        ((∃ digit dot p, i = .encode digit dot ∧ enc digit dot = .ok p ∧
            exec i s = .next (start [] (s.withResult p))) ∨
          (i = .init ∧ s.initialized = false ∧ exec i s = .next (start initActions s.withInitialized)) ∨
          s.initialized = true ∧
            ((∃ v, i = .sendByte v ∧ exec i s = .next (start (byteActions v) s)) ∨
              (∃ c, i = .sendCommand c ∧ exec i s = .next (start (frameActions [c]) s)) ∨
              (∃ a v, i = .sendData a v ∧ exec i s = .next (start (dataActions a v) s)) ∨
              ∃ d1 d2 dot1 dot2 p1 p2, i = .displayNumber d1 d2 dot1 dot2 ∧ enc d1 dot1 = .ok p1 ∧
                enc d2 dot2 = .ok p2 ∧ exec i s = .next (start (renderActions p1 p2) s))) := by
  cases i with
  | encode d dot =>
    rcases enc_cases d dot with ⟨hd, he⟩ | ⟨hd, p, he⟩
    · exact .inl ⟨.digitRange, by simp [contractFault, hd], by simp [exec, execEncode, he]⟩
    · exact .inr ⟨by simp [contractFault, show ¬ 10 < d.toNat by omega],
        .inl ⟨d, dot, p, rfl, he, by simp [exec, execEncode, he]⟩⟩
  | init =>
    cases hi : s.initialized
    · exact .inr ⟨by simp [contractFault], .inr (.inl ⟨rfl, rfl, by simp [exec, execInit, hi]⟩)⟩
    · exact .inl ⟨.reinit, by simp [contractFault], by simp [exec, execInit, hi]⟩
  | sendByte v =>
    cases hi : s.initialized
    · exact .inl ⟨.notInit, by simp [contractFault], by simp [exec, execSendByte, startDriver, hi]⟩
    · exact .inr ⟨by simp [contractFault],
        .inr (.inr ⟨rfl, .inl ⟨v, rfl, by simp [exec, execSendByte, startDriver, hi]⟩⟩)⟩
  | sendCommand c =>
    cases hi : s.initialized
    · exact .inl ⟨.notInit, by simp [contractFault], by simp [exec, execSendCommand, startDriver, hi]⟩
    · exact .inr ⟨by simp [contractFault],
        .inr (.inr ⟨rfl, .inr (.inl ⟨c, rfl, by simp [exec, execSendCommand, startDriver, hi]⟩)⟩)⟩
  | sendData a v =>
    cases hi : s.initialized
    · exact .inl ⟨.notInit, by simp [contractFault], by simp [exec, execSendData, startDriver, hi]⟩
    · exact .inr ⟨by simp [contractFault],
        .inr (.inr ⟨rfl, .inr (.inr (.inl ⟨a, v, rfl, by simp [exec, execSendData, startDriver, hi]⟩))⟩)⟩
  | displayNumber d1 d2 dot1 dot2 =>
    cases hi : s.initialized
    · exact .inl ⟨.notInit, by simp [contractFault], by simp [exec, execDisplayNumber, hi]⟩
    · rcases enc_cases d1 dot1 with ⟨h1, e1⟩ | ⟨h1, p1, e1⟩
      · exact .inl ⟨.digitRange, by simp [contractFault, h1], by simp [exec, execDisplayNumber, hi, e1]⟩
      · rcases enc_cases d2 dot2 with ⟨h2, e2⟩ | ⟨h2, p2, e2⟩
        · exact .inl ⟨.digitRange, by simp [contractFault, h2],
            by simp [exec, execDisplayNumber, hi, e1, e2]⟩
        · exact .inr ⟨by simp [contractFault, show ¬ 10 < d1.toNat by omega, show ¬ 10 < d2.toNat by omega],
            .inr (.inr ⟨rfl, .inr (.inr (.inr ⟨d1, d2, dot1, dot2, p1, p2, rfl, e1, e2,
              by simp [exec, execDisplayNumber, hi, e1, e2]⟩))⟩)⟩
  | _ => simp [Instr.isRequest, Instr.place] at h

theorem exec_encode {d : Digit} {dot : Bool} {p : Byte} (s : State) (h : enc d dot = .ok p) :
    exec (.encode d dot) s = .next (start [] (s.withResult p)) := by
  simp [exec, execEncode, h]

theorem exec_encode_fault {d : Digit} (dot : Bool) (s : State) (h : 10 < d.toNat) :
    exec (.encode d dot) s = .next (raiseFault .digitRange s) := by
  simp [exec, execEncode, enc_error dot h]

theorem exec_init {s : State} (h : s.initialized = false) :
    exec .init s = .next (start initActions s.withInitialized) := by
  simp [exec, execInit, h]

theorem exec_init_fault {s : State} (h : s.initialized = true) :
    exec .init s = .next (raiseFault .reinit s) := by
  simp [exec, execInit, h]

theorem startDriver_of {s : State} (q : List SeqItem) (h : s.initialized = true) :
    startDriver q s = start q s := by
  simp [startDriver, h]

theorem startDriver_fault {s : State} (q : List SeqItem) (h : s.initialized = false) :
    startDriver q s = raiseFault .notInit s := by
  simp [startDriver, h]

theorem exec_sendByte (v : Byte) {s : State} (h : s.initialized = true) :
    exec (.sendByte v) s = .next (start (byteActions v) s) := by
  simp only [exec, execSendByte, startDriver_of _ h]

theorem exec_sendCommand (c : Byte) {s : State} (h : s.initialized = true) :
    exec (.sendCommand c) s = .next (start (frameActions [c]) s) := by
  simp only [exec, execSendCommand, startDriver_of _ h]

theorem exec_sendData (a v : Byte) {s : State} (h : s.initialized = true) :
    exec (.sendData a v) s = .next (start (dataActions a v) s) := by
  simp only [exec, execSendData, startDriver_of _ h]

theorem exec_displayNumber {d1 d2 : Digit} {dot1 dot2 : Bool} {p1 p2 : Byte} {s : State}
    (h : s.initialized = true) (h1 : enc d1 dot1 = .ok p1) (h2 : enc d2 dot2 = .ok p2) :
    exec (.displayNumber d1 d2 dot1 dot2) s = .next (start (renderActions p1 p2) s) := by
  simp only [exec, execDisplayNumber, h, h1, h2, if_true]

theorem exec_displayNumber_fault {d1 d2 : Digit} (dot1 dot2 : Bool) {s : State} (h : s.initialized = true)
    (hd : 10 < d1.toNat ∨ 10 < d2.toNat) :
    exec (.displayNumber d1 d2 dot1 dot2) s = .next (raiseFault .digitRange s) := by
  rcases enc_cases d1 dot1 with ⟨_, e1⟩ | ⟨h1, p1, e1⟩
  · simp only [exec, execDisplayNumber, h, e1, if_true]
  · simp only [exec, execDisplayNumber, h, e1, if_true, enc_error dot2 (show 10 < d2.toNat by omega)]

/-- What a request word decodes to is a request. -/
theorem decodeRequest_isRequest {w : ReqWord} {i : Instr} (h : decodeRequest w = .ok i) :
    i.isRequest = true := by
  simp only [decodeRequest, whenReservedZero] at h
  split_ifs at h <;> cases h <;> rfl

/-! ## A step -/

theorem step_next (s : State) : ∃ t, step s = .next t := by
  simp only [step, stepState]
  split
  · simp only [blockStep]
    split
    · exact receiveAll_next _ _
    · split
      · simp only [acceptRequest]
        split
        · exact ⟨_, rfl⟩
        · exact exec_next _ _
      · exact ⟨_, rfl⟩
  · exact receiveAll_next _ _

theorem step_of_busy {s : State} (hr : s.rx = []) (hb : s.busy = true) :
    step s = sequencerStep (hostPresent s) := by
  have : (hostPresent s).busy = true := by
    obtain ⟨v, w, b, i, n, h⟩ := hostPresent_frame s
    simpa [h] using hb
  simp [step, stepState, hr, blockStep, this]

/-- A ready block accepts what its port holds after the host's turn (R33). -/
theorem step_of_ready {s : State} (h : ready s) (hv : (hostPresent s).reqValid = true) :
    step s = acceptRequest (hostPresent s) := by
  obtain ⟨v, w, b, i, n, hp⟩ := hostPresent_frame s
  obtain ⟨h1, h2, h3, h4⟩ := h
  have e1 : (hostPresent s).busy = false := by rw [hp]; exact h2
  have e2 : (hostPresent s).fault = .none := by rw [hp]; exact h3
  have e3 : (hostPresent s).refused = false := by rw [hp]; exact h4
  have ha : (hostPresent s).accepts = true := by simp [State.accepts, State.reqReady, hv, e1, e2, e3]
  simp only [step, stepState, h1, blockStep]
  rw [if_neg (by simp [e1]), if_pos ha]

/-- A step from a state in which no frame is waiting to be taken. -/
theorem step_cases {s t : State} (hr : s.rx = []) (h : step s = .next t) :
    (s.busy = true ∧ sequencerStep (hostPresent s) = .next t) ∨
      (s.busy = false ∧ s.fault = .none ∧ s.refused = false ∧ (hostPresent s).reqValid = true ∧
        ((∃ r, decodeRequest (hostPresent s).reqWord = .error r ∧
            t = refuse (consumeRequest (hostPresent s))) ∨
          ∃ i, decodeRequest (hostPresent s).reqWord = .ok i ∧
            exec i (consumeRequest (hostPresent s)) = .next t)) ∨
      (s.busy = false ∧ (s.fault ≠ .none ∨ s.refused = true ∨ (hostPresent s).reqValid = false) ∧
        t = hostPresent s) := by
  obtain ⟨v, w, b, i, n, hp⟩ := hostPresent_frame s
  have e1 : (hostPresent s).busy = s.busy := by rw [hp]
  have e2 : (hostPresent s).fault = s.fault := by rw [hp]
  have e3 : (hostPresent s).refused = s.refused := by rw [hp]
  simp only [step, stepState, hr, blockStep] at h
  rw [e1] at h
  by_cases hb : s.busy = true
  · rw [if_pos hb] at h
    exact .inl ⟨hb, h⟩
  · rw [if_neg hb] at h
    simp only [Bool.not_eq_true] at hb
    by_cases ha : (hostPresent s).accepts = true
    · rw [if_pos ha] at h
      simp only [State.accepts, State.reqReady, Bool.and_eq_true, Bool.not_eq_true', beq_iff_eq] at ha
      refine .inr (.inl ⟨hb, e2 ▸ ha.2.1.2, e3 ▸ ha.2.2, ha.1, ?_⟩)
      simp only [acceptRequest] at h
      rcases hd : decodeRequest (hostPresent s).reqWord with r | j
      · rw [hd] at h
        exact .inl ⟨r, rfl, by cases h; rfl⟩
      · rw [hd] at h
        exact .inr ⟨j, rfl, h⟩
    · rw [if_neg ha] at h
      refine .inr (.inr ⟨hb, ?_, by cases h; rfl⟩)
      simp only [State.accepts, State.reqReady, Bool.and_eq_true, Bool.not_eq_true', beq_iff_eq, e1, e2, e3, hb]
        at ha
      by_cases hv : (hostPresent s).reqValid = true
      · by_cases hf : s.fault = .none
        · exact .inr (.inl (by simpa [hv, hf] using ha))
        · exact .inl hf
      · exact .inr (.inr (by simpa using hv))

end Sys2Proof.Machine
end

