-- ==== Sys2Proof/Laws/Run.lean ====
section
/-! SUPPORT. A request's whole run. The host's turn, the trace and the draws do not influence what the block does
(`SameBlock`), so the steps of a request are the acts of its list (`runFirst`), and a byte, a frame and a request are
computed once. -/

namespace Sys2Proof.Machine

/-! ## What the host's turn, the trace and the draws do not touch -/

/-- The state without the trace, the draws and the host's side of the port. -/
def blockOf (s : State) : State :=
  { s with trace := [], draws := 0, reqValid := false, reqWord := 0#24, hostBlink := [], hostInput := [] }

/-- The two states agree on everything the block does. -/
def SameBlock (s t : State) : Prop := blockOf s = blockOf t

theorem SameBlock.refl (s : State) : SameBlock s s := rfl

theorem SameBlock.trans {s t u : State} (h : SameBlock s t) (k : SameBlock t u) : SameBlock s u :=
  Eq.trans h k

theorem SameBlock.symm {s t : State} (h : SameBlock s t) : SameBlock t s := Eq.symm h

theorem SameBlock.field {α : Type} {s t : State} (f : State → α) (h : SameBlock s t) :
    f (blockOf s) = f (blockOf t) := by
  rw [show blockOf s = blockOf t from h]

theorem SameBlock.sr {s t : State} (h : SameBlock s t) : s.sr = t.sr := h.field State.sr
theorem SameBlock.bit {s t : State} (h : SameBlock s t) : s.bit = t.bit := h.field State.bit
theorem SameBlock.seq {s t : State} (h : SameBlock s t) : s.seq = t.seq := h.field State.seq
theorem SameBlock.initialized {s t : State} (h : SameBlock s t) : s.initialized = t.initialized :=
  h.field State.initialized
theorem SameBlock.busy {s t : State} (h : SameBlock s t) : s.busy = t.busy := h.field State.busy
theorem SameBlock.fault {s t : State} (h : SameBlock s t) : s.fault = t.fault := h.field State.fault
theorem SameBlock.refused {s t : State} (h : SameBlock s t) : s.refused = t.refused := h.field State.refused
theorem SameBlock.result {s t : State} (h : SameBlock s t) : s.result = t.result := h.field State.result
theorem SameBlock.cfg {s t : State} (h : SameBlock s t) : s.cfg = t.cfg := h.field State.cfg
theorem SameBlock.stb {s t : State} (h : SameBlock s t) : s.stb = t.stb := h.field State.stb
theorem SameBlock.clk {s t : State} (h : SameBlock s t) : s.clk = t.clk := h.field State.clk
theorem SameBlock.dio {s t : State} (h : SameBlock s t) : s.dio = t.dio := h.field State.dio
theorem SameBlock.obs {s t : State} (h : SameBlock s t) : s.obs = t.obs := h.field State.obs
theorem SameBlock.dev {s t : State} (h : SameBlock s t) : s.dev = t.dev := h.field State.dev
theorem SameBlock.rx {s t : State} (h : SameBlock s t) : s.rx = t.rx := h.field State.rx

theorem sameBlock_hostPresent (s : State) : SameBlock (hostPresent s) s := by
  obtain ⟨v, w, b, i, n, h⟩ := hostPresent_frame s
  rw [h]
  rfl

theorem blockOf_transferRegs (x : Transfer) (s : State) :
    blockOf (transferRegs x s) = transferRegs x (blockOf s) := by
  cases x <;> rfl

theorem blockOf_seenEdge (p : Pin) (old : Level) (b : Bool) (s : State) :
    blockOf (seenEdge p old b s) = seenEdge p old b (blockOf s) := by
  cases p <;> cases old <;> cases b <;> simp only [seenEdge, clockRise]
  case stb.high.false => rfl
  case stb.low.true =>
    change blockOf (if s.obs.isOpen then _ else _) = if s.obs.isOpen then _ else _
    split <;> rfl
  case clk.low.true =>
    change blockOf (if s.obs.isOpen then _ else _) = if s.obs.isOpen then _ else _
    split <;> rfl

theorem sameBlock_acted {s t : State} (a : PinAction) (h : SameBlock s t) : SameBlock (acted a s) (acted a t) := by
  cases a with
  | configIdle =>
    show { blockOf s with cfg := true, stb := .high, clk := .high, dio := .low } = _
    rw [h]
    rfl
  | delayAtLeast n => exact h
  | setPin p b =>
    have hl : s.line p = t.line p := by cases p <;> first | exact h.stb | exact h.clk | exact h.dio
    have hw : blockOf ((s.withTrace (.setPin p b)).withLine p (Level.ofBit b)) =
        blockOf ((t.withTrace (.setPin p b)).withLine p (Level.ofBit b)) := by
      have e : ∀ u : State, blockOf ((u.withTrace (.setPin p b)).withLine p (Level.ofBit b)) =
          (blockOf u).withLine p (Level.ofBit b) := fun u => by cases p <;> rfl
      rw [e, e, h]
    show blockOf (seenEdge _ _ _ _) = blockOf (seenEdge _ _ _ _)
    rw [blockOf_seenEdge, blockOf_seenEdge, hw, hl]

theorem sameBlock_act {s t : State} (m : SeqItem) (rest : List SeqItem) (h : SameBlock s t) :
    SameBlock (acted m.act (transferRegs m.transfer (s.withSeq rest)))
      (acted m.act (transferRegs m.transfer (t.withSeq rest))) := by
  refine sameBlock_acted _ ?_
  show blockOf _ = blockOf _
  rw [blockOf_transferRegs, blockOf_transferRegs]
  refine congrArg _ ?_
  show (blockOf s).withSeq rest = (blockOf t).withSeq rest
  rw [h]

/-! ## The acts of a list -/

theorem acted_frame (a : PinAction) (s : State) :
    (acted a s).seq = s.seq ∧ (acted a s).busy = s.busy ∧ (acted a s).rx = s.rx ∧
      (acted a s).initialized = s.initialized ∧ (acted a s).fault = s.fault ∧ (acted a s).refused = s.refused ∧
      (acted a s).result = s.result := by
  cases a with
  | configIdle => simp [acted, configIdle]
  | delayAtLeast n => simp [acted, delayAtLeast]
  | setPin p b =>
    obtain ⟨o, d, h⟩ := seenEdge_frame p (s.line p) b ((s.withTrace (.setPin p b)).withLine p (Level.ofBit b))
    simp [acted, h]

theorem transferRegs_frame (x : Transfer) (s : State) :
    ∃ r n, transferRegs x s = s.withRegs r n := by
  cases x with
  | keep => exact ⟨s.sr, s.bit, rfl⟩
  | load v => exact ⟨v, 0, rfl⟩
  | shift => exact ⟨_, _, rfl⟩

theorem act_frame (m : SeqItem) (rest : List SeqItem) (s : State) :
    let t := acted m.act (transferRegs m.transfer (s.withSeq rest))
    t.seq = rest ∧ t.busy = busyWith rest ∧ t.rx = s.rx ∧ sameFlags s t := by
  obtain ⟨r, n, h⟩ := transferRegs_frame m.transfer (s.withSeq rest)
  obtain ⟨h1, h2, h3, h4, h5, h6, h7⟩ := acted_frame m.act (transferRegs m.transfer (s.withSeq rest))
  rw [h] at h1 h2 h3 h4 h5 h6 h7 ⊢
  exact ⟨h1, h2, h3, h4, h5, h6, h7⟩

/-- A busy step is the act of its head, whatever the host does in its turn. -/
theorem step_busy {s : State} {m : SeqItem} {rest : List SeqItem} (hr : s.rx = []) (hb : s.busy = true)
    (hs : s.seq = m :: rest) :
    step s = .next (acted m.act (transferRegs m.transfer ((hostPresent s).withSeq rest))) := by
  have h := sameBlock_hostPresent s
  rw [step_of_busy hr hb, sequencerStep_eq (h.rx.trans hr) (h.seq.trans hs)]

/-- The steps that perform the first `l` of a list are the acts of `l`. -/
theorem steps_list (l rest : List SeqItem) (s : State) (hr : s.rx = [])
    (hs : s.seq = l ++ rest) (hb : s.busy = busyWith s.seq) :
    ∃ u, steps l.length s = .next u ∧ u.seq = rest ∧ u.busy = busyWith rest ∧ u.rx = [] ∧ sameFlags s u := by
  induction l generalizing s with
  | nil => exact ⟨s, rfl, hs, by rw [hb, hs]; rfl, hr, rfl, rfl, rfl, rfl⟩
  | cons m l ih =>
    have hs' : s.seq = m :: (l ++ rest) := by simpa using hs
    have hbt : s.busy = true := by rw [hb, hs']; rfl
    have hst := step_busy hr hbt hs'
    have hsame := sameBlock_hostPresent s
    obtain ⟨f1, f2, f3, f4⟩ := act_frame m (l ++ rest) (hostPresent s)
    obtain ⟨u, hu, h1, h2, h3, h4⟩ := ih _ (f3.trans (hsame.rx.trans hr)) f1 (by rw [f2, f1])
    refine ⟨u, by simp [steps, hst, hu], h1, h2, h3, ?_⟩
    obtain ⟨a1, a2, a3, a4⟩ := f4
    obtain ⟨b1, b2, b3, b4⟩ := h4
    exact ⟨b1.trans (a1.trans hsame.initialized), b2.trans (a2.trans hsame.fault),
      b3.trans (a3.trans hsame.refused), b4.trans (a4.trans hsame.result)⟩

/-- The acts of `l`, the list `rest` staying to be performed. -/
def runFirst : List SeqItem → List SeqItem → State → State
  | [], _, s => s
  | m :: l, rest, s => runFirst l rest (acted m.act (transferRegs m.transfer (s.withSeq (l ++ rest))))

theorem runFirst_append (l k rest : List SeqItem) (s : State) :
    runFirst (l ++ k) rest s = runFirst k rest (runFirst l (k ++ rest) s) := by
  induction l generalizing s with
  | nil => rfl
  | cons m l ih => simp only [List.cons_append, runFirst, List.append_assoc, ih]

theorem sameBlock_runFirst (l rest : List SeqItem) {s t : State} (h : SameBlock s t) :
    SameBlock (runFirst l rest s) (runFirst l rest t) := by
  induction l generalizing s t with
  | nil => exact h
  | cons m l ih => exact ih (sameBlock_act m _ h)

/-- The steps that perform the first `l` of a list give the block that the acts of `l` give. -/
theorem steps_sameBlock (l rest : List SeqItem) (s : State) (hr : s.rx = [])
    (hs : s.seq = l ++ rest) (hb : s.busy = busyWith s.seq) :
    ∃ u, steps l.length s = .next u ∧ SameBlock u (runFirst l rest s) := by
  induction l generalizing s with
  | nil => exact ⟨s, rfl, SameBlock.refl s⟩
  | cons m l ih =>
    have hs' : s.seq = m :: (l ++ rest) := by simpa using hs
    have hbt : s.busy = true := by rw [hb, hs']; rfl
    have hst := step_busy hr hbt hs'
    have hsame := sameBlock_hostPresent s
    obtain ⟨f1, f2, f3, f4⟩ := act_frame m (l ++ rest) (hostPresent s)
    obtain ⟨u, hu, h⟩ := ih _ (f3.trans (hsame.rx.trans hr)) f1 (by rw [f2, f1])
    exact ⟨u, by simp [steps, hst, hu], h.trans (sameBlock_runFirst l rest (sameBlock_act m _ hsame))⟩

/-! ## One bit, one byte -/

/-- What one bit makes of the block: CLK high again, DIO at the bit, the clock rise seen. -/
def bitEffect (b : Bool) (s : State) : State := clockRise { s with clk := .high, dio := Level.ofBit b }

theorem runFirst_bit (x : Transfer) (sr : Byte) (rest : List SeqItem) (s : State) :
    SameBlock (runFirst (bitActions x sr) rest s)
      (bitEffect (sr.getLsbD 0) (transferRegs .shift (transferRegs x (s.withSeq rest)))) := by
  obtain ⟨a1, a2, a3, a4, a5, a6, a7, a8, a9, a10, a11, a12, a13, a14, a15, a16, a17, a18, a19, a20, a21⟩ := s
  rcases a14 with ⟨_ | _, b2, b3, b4, b5, b6⟩ <;> cases x <;> rcases a11 with _ | _ | _ <;> rfl

theorem clockRise_cases (s : State) :
    (s.obs.isOpen = true ∧ clockRise s = s.withObs (s.obs.sample (s.dio == .high))) ∨
      (s.obs.isOpen = false ∧ clockRise s = (s.withObs s.obs.countStray).withDev Dev.unknown) := by
  cases ho : s.obs.isOpen
  · exact .inr ⟨rfl, by simp [clockRise, ho]⟩
  · exact .inl ⟨rfl, by simp [clockRise, ho]⟩

/-- What `k` bits make of the block, the shift register standing at `sr`. -/
def bitsEffect : Nat → Byte → State → State
  | 0, _, s => s
  | k + 1, sr, s => bitsEffect k (sr >>> 1) (bitEffect (sr.getLsbD 0) (transferRegs .shift s))

theorem sameBlock_withSeq {s t : State} (q : List SeqItem) (h : SameBlock s t) :
    SameBlock (s.withSeq q) (t.withSeq q) := by
  show (blockOf s).withSeq q = (blockOf t).withSeq q
  rw [show blockOf s = blockOf t from h]

theorem sameBlock_clockRise {s t : State} (h : SameBlock s t) : SameBlock (clockRise s) (clockRise t) := by
  have e : ∀ u : State, blockOf (clockRise u) = clockRise (blockOf u) := fun u => by
    simp only [clockRise]
    change blockOf (if u.obs.isOpen then _ else _) = if u.obs.isOpen then _ else _
    split <;> rfl
  show blockOf _ = blockOf _
  rw [e, e, show blockOf s = blockOf t from h]

theorem sameBlock_bit {s t : State} (b : Bool) (h : SameBlock s t) :
    SameBlock (bitEffect b (transferRegs .shift s)) (bitEffect b (transferRegs .shift t)) := by
  refine sameBlock_clockRise ?_
  show ({ transferRegs .shift (blockOf s) with clk := .high, dio := Level.ofBit b } : State) =
    { transferRegs .shift (blockOf t) with clk := .high, dio := Level.ofBit b }
  rw [show blockOf s = blockOf t from h]

theorem sameBlock_bits {s t : State} (k : Nat) (sr : Byte) (h : SameBlock s t) :
    SameBlock (bitsEffect k sr s) (bitsEffect k sr t) := by
  induction k generalizing sr s t with
  | zero => exact h
  | succ k ih => exact ih _ (sameBlock_bit _ h)

theorem bitEffect_withSeq (b : Bool) (q : List SeqItem) (s : State) :
    (bitEffect b (transferRegs .shift s)).withSeq q = bitEffect b (transferRegs .shift (s.withSeq q)) := by
  simp only [bitEffect, clockRise]
  change State.withSeq (if s.obs.isOpen then _ else _) q = if s.obs.isOpen then _ else _
  split <;> rfl

theorem runFirst_bits (k : Nat) (sr : Byte) (rest : List SeqItem) (s : State) (hs : s.seq = bitsFrom k sr ++ rest)
    (hb : s.busy = busyWith s.seq) :
    SameBlock (runFirst (bitsFrom k sr) rest s) (bitsEffect k sr (s.withSeq rest)) := by
  induction k generalizing sr s with
  | zero =>
    have : s.withSeq rest = s := by
      cases s
      simp only [bitsFrom, List.nil_append] at hs hb
      subst hs hb
      rfl
    rw [this]
    exact SameBlock.refl s
  | succ k ih =>
    simp only [bitsFrom, runFirst_append, bitsEffect]
    have h := runFirst_bit .keep sr (bitsFrom k (sr >>> 1) ++ rest) s
    have hq : (bitEffect (sr.getLsbD 0) (transferRegs .shift (s.withSeq (bitsFrom k (sr >>> 1) ++ rest)))) =
        (bitEffect (sr.getLsbD 0) (transferRegs .shift s)).withSeq (bitsFrom k (sr >>> 1) ++ rest) :=
      (bitEffect_withSeq _ _ _).symm
    have h' : SameBlock (runFirst (bitActions .keep sr) (bitsFrom k (sr >>> 1) ++ rest) s)
        ((bitEffect (sr.getLsbD 0) (transferRegs .shift s)).withSeq (bitsFrom k (sr >>> 1) ++ rest)) := by
      rw [← hq]; exact h
    refine (sameBlock_runFirst _ _ h').trans ?_
    refine (ih (sr >>> 1) _ rfl rfl).trans (sameBlock_bits _ _ ?_)
    rw [← bitEffect_withSeq]
    exact SameBlock.refl _

/-- The acts of a byte: eight bits, the register loaded first (R108). -/
theorem runFirst_byte (v : Byte) (rest : List SeqItem) (s : State) :
    SameBlock (runFirst (byteActions v) rest s) (bitsEffect 8 v ((s.withSeq rest).withRegs v 0)) := by
  simp only [byteActions, runFirst_append]
  have h := runFirst_bit (.load v) v (bitsFrom 7 (v >>> 1) ++ rest) s
  have hq : bitEffect (v.getLsbD 0)
        (transferRegs .shift (transferRegs (.load v) (s.withSeq (bitsFrom 7 (v >>> 1) ++ rest)))) =
      (bitEffect (v.getLsbD 0) (transferRegs .shift (s.withRegs v 0))).withSeq (bitsFrom 7 (v >>> 1) ++ rest) :=
    (bitEffect_withSeq _ _ (s.withRegs v 0)).symm
  rw [hq] at h
  refine (sameBlock_runFirst _ _ h).trans ?_
  refine (runFirst_bits 7 (v >>> 1) rest _ rfl rfl).trans ?_
  show SameBlock _ (bitsEffect 7 (v >>> 1) _)
  refine sameBlock_bits _ _ ?_
  show SameBlock ((bitEffect _ _).withSeq rest) _
  rw [bitEffect_withSeq]
  exact SameBlock.refl _

/-! ## A byte in an open frame, and outside one -/

/-- Bits sampled in order, the shift register standing at `sr`. -/
def sampleBits : Nat → Byte → Obs → Obs
  | 0, _, o => o
  | k + 1, sr, o => sampleBits k (sr >>> 1) (o.sample (sr.getLsbD 0))

theorem ofBit_beq_high (b : Bool) : (Level.ofBit b == Level.high) = b := by cases b <;> rfl

/-- The register, the counter and the lines after some bits (R22, R23, R108). -/
theorem bitsEffect_lines (k : Nat) (sr : Byte) (s : State) (h : s.sr = sr) :
    (bitsEffect k sr s).sr = sr >>> k ∧ (bitsEffect k sr s).bit = s.bit + k ∧
      (0 < k → (bitsEffect k sr s).clk = .high ∧ (bitsEffect k sr s).dio = Level.ofBit (sr.getLsbD (k - 1))) := by
  induction k generalizing sr s with
  | zero => simp [bitsEffect, h]
  | succ k ih =>
    simp only [bitsEffect]
    have e : ∀ u : State, (clockRise u).sr = u.sr ∧ (clockRise u).bit = u.bit ∧ (clockRise u).clk = u.clk ∧
        (clockRise u).dio = u.dio := fun u => by
      rcases clockRise_cases u with ⟨_, h⟩ | ⟨_, h⟩ <;> simp [h]
    obtain ⟨e1, e2, e3, e4⟩ := e { transferRegs .shift s with clk := .high, dio := Level.ofBit (sr.getLsbD 0) }
    obtain ⟨i1, i2, i3⟩ := ih (sr >>> 1) (bitEffect (sr.getLsbD 0) (transferRegs .shift s))
      (by rw [bitEffect, e1, ← h]; rfl)
    refine ⟨?_, ?_, fun _ => ?_⟩
    · rw [i1, BitVec.shiftRight_add, ← BitVec.shiftRight_add, Nat.add_comm, BitVec.shiftRight_add,
        ← BitVec.shiftRight_add]
    · rw [i2, bitEffect, e2]
      show s.bit + 1 + k = _
      omega
    · rcases Nat.eq_zero_or_pos k with rfl | hk
      · exact ⟨e3, e4⟩
      · obtain ⟨j1, j2⟩ := i3 hk
        refine ⟨j1, ?_⟩
        rw [j2, BitVec.getLsbD_ushiftRight]
        congr 2
        omega

/-- In an open frame the bits are sampled and the controller is left alone (R143). -/
theorem bitsEffect_open (k : Nat) (sr : Byte) (s : State) (h : s.obs.isOpen = true) :
    ∃ r n c d, bitsEffect k sr s =
      { s with sr := r, bit := n, clk := c, dio := d, obs := sampleBits k sr s.obs } := by
  induction k generalizing sr s with
  | zero => exact ⟨s.sr, s.bit, s.clk, s.dio, rfl⟩
  | succ k ih =>
    have hb : bitEffect (sr.getLsbD 0) (transferRegs .shift s) =
        { s with sr := s.sr >>> 1, bit := s.bit + 1, clk := .high, dio := Level.ofBit (sr.getLsbD 0),
                 obs := s.obs.sample (sr.getLsbD 0) } := by
      rcases clockRise_cases { transferRegs .shift s with clk := .high, dio := Level.ofBit (sr.getLsbD 0) }
        with ⟨_, e⟩ | ⟨ho, _⟩
      · rw [bitEffect, e]
        show State.withObs _ (s.obs.sample (Level.ofBit (sr.getLsbD 0) == .high)) = _
        rw [ofBit_beq_high]
        rfl
      · exact absurd (h.symm.trans ho) (by decide)
    simp only [bitsEffect, sampleBits]
    rw [hb]
    obtain ⟨r, n, c, d, e⟩ := ih (sr >>> 1) { s with
      sr := s.sr >>> 1, bit := s.bit + 1, clk := .high, dio := Level.ofBit (sr.getLsbD 0),
      obs := s.obs.sample (sr.getLsbD 0) } ((Obs.sample_frame _ _).1.trans h)
    exact ⟨r, n, c, d, e⟩

/-- Outside a frame each bit is an out-of-frame clock (R146). -/
theorem bitsEffect_closed (k : Nat) (sr : Byte) (s : State) (h : s.obs.isOpen = false) (hk : 0 < k) :
    ∃ r n c d, bitsEffect k sr s =
      { s with sr := r, bit := n, clk := c, dio := d, obs := { s.obs with stray := s.obs.stray + k },
               dev := Dev.unknown } := by
  induction k generalizing sr s with
  | zero => omega
  | succ k ih =>
    have hb : bitEffect (sr.getLsbD 0) (transferRegs .shift s) =
        { s with sr := s.sr >>> 1, bit := s.bit + 1, clk := .high, dio := Level.ofBit (sr.getLsbD 0),
                 obs := s.obs.countStray, dev := Dev.unknown } := by
      rcases clockRise_cases { transferRegs .shift s with clk := .high, dio := Level.ofBit (sr.getLsbD 0) }
        with ⟨ho, _⟩ | ⟨_, e⟩
      · exact absurd (h.symm.trans ho) (by decide)
      · rw [bitEffect, e]
        rfl
    simp only [bitsEffect]
    rw [hb]
    rcases Nat.eq_zero_or_pos k with rfl | hk
    · exact ⟨_, _, _, _, rfl⟩
    · obtain ⟨r, n, c, d, e⟩ := ih (sr >>> 1) { s with
        sr := s.sr >>> 1, bit := s.bit + 1, clk := .high, dio := Level.ofBit (sr.getLsbD 0),
        obs := s.obs.countStray, dev := Dev.unknown } h hk
      refine ⟨r, n, c, d, ?_⟩
      rw [e]
      simp only [Obs.countStray]
      congr 2
      omega

theorem samples_decide : ∀ v : Byte,
    ((((((((0#8 ||| (if v.getLsbD 0 then 1#8 else 0#8) <<< 0) ||| (if v.getLsbD 1 then 1#8 else 0#8) <<< 1)
      ||| (if v.getLsbD 2 then 1#8 else 0#8) <<< 2) ||| (if v.getLsbD 3 then 1#8 else 0#8) <<< 3)
      ||| (if v.getLsbD 4 then 1#8 else 0#8) <<< 4) ||| (if v.getLsbD 5 then 1#8 else 0#8) <<< 5)
      ||| (if v.getLsbD 6 then 1#8 else 0#8) <<< 6) ||| (if v.getLsbD 7 then 1#8 else 0#8) <<< 7) = v := by
  decide

/-- Eight samples put the byte together (R144). -/
theorem sampleBits_byte (v : Byte) (o : Obs) (ha : o.acc = 0#8) (hn : o.n = 0) :
    sampleBits 8 v o = { o with bytes := o.bytes ++ [v] } := by
  obtain ⟨x, bytes, acc, n, frames, stray⟩ := o
  simp only at ha hn
  subst ha hn
  have h := samples_decide v
  simp only [sampleBits, Obs.sample, Config.byteBits, BitVec.getLsbD_ushiftRight, Nat.reduceAdd,
    Nat.reduceEqDiff, if_false, if_true]
  rw [h]

theorem shiftRight_eight : ∀ v : Byte, v >>> 8 = 0#8 := by decide

/-- A byte in an open frame (R110, R144). -/
theorem runFirst_byte_open (v : Byte) (rest : List SeqItem) (s : State) (ho : s.obs.isOpen = true)
    (ha : s.obs.acc = 0#8) (hn : s.obs.n = 0) :
    SameBlock (runFirst (byteActions v) rest s)
      { s with seq := rest, busy := busyWith rest, sr := 0#8, bit := 8, clk := .high,
               dio := Level.ofBit (v.getLsbD 7), obs := { s.obs with bytes := s.obs.bytes ++ [v] } } := by
  refine (runFirst_byte v rest s).trans ?_
  obtain ⟨r, n, c, d, e⟩ := bitsEffect_open 8 v ((s.withSeq rest).withRegs v 0) ho
  obtain ⟨l1, l2, l3⟩ := bitsEffect_lines 8 v ((s.withSeq rest).withRegs v 0) rfl
  obtain ⟨l3, l4⟩ := l3 (by omega)
  have hz := shiftRight_eight v
  rw [e] at l1 l2 l3 l4 ⊢
  simp only at l1 l2 l3 l4
  simp only [State.withRegs_bit, Nat.zero_add, Nat.reduceSub] at l1 l2 l3 l4
  subst l1 l2 l3 l4
  rw [hz, State.withRegs_obs, State.withSeq_obs, sampleBits_byte v s.obs ha hn]
  exact SameBlock.refl _

/-- A byte outside a frame: eight out-of-frame clocks (R110, R146). -/
theorem runFirst_byte_closed (v : Byte) (rest : List SeqItem) (s : State) (ho : s.obs.isOpen = false) :
    SameBlock (runFirst (byteActions v) rest s)
      { s with seq := rest, busy := busyWith rest, sr := 0#8, bit := 8, clk := .high,
               dio := Level.ofBit (v.getLsbD 7), obs := { s.obs with stray := s.obs.stray + 8 },
               dev := Dev.unknown } := by
  refine (runFirst_byte v rest s).trans ?_
  obtain ⟨r, n, c, d, e⟩ := bitsEffect_closed 8 v ((s.withSeq rest).withRegs v 0) ho (by omega)
  obtain ⟨l1, l2, l3⟩ := bitsEffect_lines 8 v ((s.withSeq rest).withRegs v 0) rfl
  obtain ⟨l3, l4⟩ := l3 (by omega)
  have hz := shiftRight_eight v
  rw [e] at l1 l2 l3 l4 ⊢
  simp only at l1 l2 l3 l4
  simp only [State.withRegs_bit, Nat.zero_add, Nat.reduceSub] at l1 l2 l3 l4
  subst l1 l2 l3 l4
  rw [hz]
  exact SameBlock.refl _

/-! ## A frame -/

theorem runFirst_bytes_open (b : Byte) (bs : List Byte) (rest : List SeqItem) (s : State)
    (ho : s.obs.isOpen = true) (ha : s.obs.acc = 0#8) (hn : s.obs.n = 0) :
    SameBlock (runFirst ((b :: bs).flatMap byteActions) rest s)
      { s with seq := rest, busy := busyWith rest, sr := 0#8, bit := 8, clk := .high,
               dio := Level.ofBit (((b :: bs).getLast (List.cons_ne_nil b bs)).getLsbD 7),
               obs := { s.obs with bytes := s.obs.bytes ++ b :: bs } } := by
  induction bs generalizing b s with
  | nil => simpa using runFirst_byte_open b rest s ho ha hn
  | cons c cs ih =>
    have hf : (b :: c :: cs).flatMap byteActions = byteActions b ++ (c :: cs).flatMap byteActions :=
      List.flatMap_cons
    have hl : (b :: c :: cs).getLast (List.cons_ne_nil b (c :: cs)) = (c :: cs).getLast (List.cons_ne_nil c cs) :=
      List.getLast_cons_cons
    have hb : s.obs.bytes ++ b :: c :: cs = (s.obs.bytes ++ [b]) ++ c :: cs := by simp
    rw [hf, runFirst_append, hl, hb]
    have h1 := runFirst_byte_open b ((c :: cs).flatMap byteActions ++ rest) s ho ha hn
    have h2 := sameBlock_runFirst ((c :: cs).flatMap byteActions) rest h1
    have h3 := ih c { s with
      seq := (c :: cs).flatMap byteActions ++ rest, busy := busyWith ((c :: cs).flatMap byteActions ++ rest),
      sr := 0#8, bit := 8, clk := .high, dio := Level.ofBit (b.getLsbD 7),
      obs := { s.obs with bytes := s.obs.bytes ++ [b] } } ho ha hn
    exact h2.trans h3

/-- A frame between a strobe fall and a strobe rise (R109): the observer records it, and the controller takes it. -/
theorem runFirst_frame (b : Byte) (bs : List Byte) (rest : List SeqItem) (s : State) (hc : s.stb = .high) :
    SameBlock (runFirst (frameActions (b :: bs)) rest s)
      { s with seq := rest, busy := busyWith rest, sr := 0#8, bit := 8, stb := .high, clk := .high,
               dio := Level.ofBit (((b :: bs).getLast (List.cons_ne_nil b bs)).getLsbD 7),
               obs := { isOpen := false, bytes := b :: bs, acc := 0#8, n := 0,
                        frames := s.obs.frames ++ [⟨b :: bs, 0⟩], stray := s.obs.stray },
               dev := frameEffect (b :: bs) 0 s.dev } := by
  have e : frameActions (b :: bs) =
      [⟨.setPin .stb false, .keep⟩] ++ ((b :: bs).flatMap byteActions ++
        [⟨.setPin .stb true, .keep⟩, settleWith .keep]) := rfl
  rw [e, runFirst_append, runFirst_append]
  have h1 : SameBlock (runFirst [⟨.setPin .stb false, .keep⟩]
      (((b :: bs).flatMap byteActions ++ [⟨.setPin .stb true, .keep⟩, settleWith .keep]) ++ rest) s)
      { s with seq := ((b :: bs).flatMap byteActions ++ [⟨.setPin .stb true, .keep⟩, settleWith .keep]) ++ rest,
               busy := busyWith (((b :: bs).flatMap byteActions ++
                 [⟨.setPin .stb true, .keep⟩, settleWith .keep]) ++ rest),
               stb := .low, obs := s.obs.openFrame } := by
    obtain ⟨a1, a2, a3, a4, a5, a6, a7, a8, a9, a10, a11, a12, a13, a14, a15, a16, a17, a18, a19, a20, a21⟩ := s
    simp only at hc
    subst hc
    rfl
  refine (sameBlock_runFirst _ _ (sameBlock_runFirst _ _ h1)).trans ?_
  exact sameBlock_runFirst _ _ (runFirst_bytes_open b bs _ _ rfl rfl rfl)

/-- INIT's configuring action (R105). -/
theorem runFirst_config (rest : List SeqItem) (s : State) :
    SameBlock (runFirst [configAction] rest s)
      { s with seq := rest, busy := busyWith rest, cfg := true, stb := .high, clk := .high, dio := .low } := by
  exact SameBlock.refl _

end Sys2Proof.Machine
end

