-- ==== Sys2Proof/Laws/Request.lean ====
section
/-! SUPPORT. What a request can do, said once: a contract violation changes `s.fault` alone, an accepted request starts
its list, and a run of steps can be cut in two. Later proofs cite these and do not unfold the meanings. -/

namespace Sys2Proof.Machine

theorem contractFault_isRequest {i : Instr} {b : Bool} {c : FaultCode} (h : contractFault b i = some c) :
    i.isRequest = true ∧ c ≠ .none := by
  cases i <;> simp only [contractFault] at h <;> (try split_ifs at h) <;> cases h <;> exact ⟨rfl, by decide⟩

theorem exec_of_contractFault {i : Instr} {s : State} {c : FaultCode} (h : contractFault s.initialized i = some c) :
    exec i s = .next (raiseFault c s) := by
  rcases exec_request_cases (contractFault_isRequest h).1 s with ⟨d, hd, he⟩ | ⟨hn, _⟩
  · rw [h] at hd
    cases hd
    exact he
  · rw [h] at hn
    cases hn

/-- An accepted request changes its list, `busy`, and for INIT and ENCODE one field more (R33). -/
theorem exec_of_accepted {i : Instr} {s : State} (hr : i.isRequest = true)
    (h : contractFault s.initialized i = none) :
    ∃ t, exec i s = .next t ∧ t.fault = s.fault ∧ t.refused = s.refused ∧ t.busy = busyWith t.seq ∧
      t = { s with seq := t.seq, busy := t.busy, initialized := t.initialized, result := t.result } ∧
      (i ≠ .init → t.initialized = s.initialized) ∧ ((∀ d dot, i ≠ .encode d dot) → t.result = s.result) := by
  rcases exec_request_cases hr s with ⟨d, hd, he⟩ | ⟨hn, ⟨d, dot, p, rfl, hp, he⟩ | ⟨rfl, hi, he⟩ |
    ⟨hi, ⟨v, rfl, he⟩ | ⟨v, rfl, he⟩ | ⟨a, v, rfl, he⟩ | ⟨d1, d2, x, y, p1, p2, rfl, h1, h2, he⟩⟩⟩
  · rw [h] at hd
    cases hd
  all_goals exact ⟨_, he, rfl, rfl, rfl, rfl, by simp [start], by simp [start]⟩

/-- An instruction's next state: a bus byte's changes the controller alone, a request's is one of the two above. -/
theorem exec_next_cases {i : Instr} {s t : State} (h : exec i s = .next t) :
    (i.isBusByte = true ∧ t = s.withDev (busEffect i s.dev)) ∨
      i.isRequest = true ∧
        ((∃ c, contractFault s.initialized i = some c ∧ t = raiseFault c s) ∨
          contractFault s.initialized i = none ∧ t.fault = s.fault ∧ t.refused = s.refused ∧
            t.busy = busyWith t.seq ∧
            t = { s with seq := t.seq, busy := t.busy, initialized := t.initialized, result := t.result } ∧
            (i ≠ .init → t.initialized = s.initialized) ∧
            ((∀ d dot, i ≠ .encode d dot) → t.result = s.result)) := by
  by_cases hb : i.isBusByte = true
  · rw [exec_busEffect hb] at h
    cases h
    exact .inl ⟨hb, rfl⟩
  · have hr : i.isRequest = true := by cases i <;> first | rfl | simp [Instr.isBusByte, Instr.place] at hb
    refine .inr ⟨hr, ?_⟩
    rcases hc : contractFault s.initialized i with _ | c
    · obtain ⟨u, hu, h1⟩ := exec_of_accepted hr hc
      rw [hu] at h
      cases h
      exact .inr ⟨rfl, h1⟩
    · rw [exec_of_contractFault hc] at h
      cases h
      exact .inl ⟨c, rfl, rfl⟩

/-- What an action leaves of the host's side. -/
theorem acted_host (a : PinAction) (s : State) :
    (acted a s).reqValid = s.reqValid ∧ (acted a s).reqWord = s.reqWord ∧
      (acted a s).hostBlink = s.hostBlink ∧ (acted a s).hostInput = s.hostInput := by
  cases a with
  | configIdle => simp [acted, configIdle]
  | delayAtLeast n => simp [acted, delayAtLeast]
  | setPin p b =>
    obtain ⟨o, d, h⟩ := seenEdge_frame p (s.line p) b ((s.withTrace (.setPin p b)).withLine p (Level.ofBit b))
    simp [acted, h]

/-- An action appends its own entry to the trace (R31). -/
theorem acted_trace (a : PinAction) (s : State) :
    ∃ e, (acted a s).trace = s.trace ++ [e] ∧ records a e := by
  cases a with
  | configIdle => exact ⟨.configIdle, by simp [acted, configIdle], rfl⟩
  | delayAtLeast n => exact ⟨_, by simp [acted, delayAtLeast]; rfl, _, le_drawnDelay _ _, rfl⟩
  | setPin p b =>
    obtain ⟨o, d, h⟩ := seenEdge_frame p (s.line p) b ((s.withTrace (.setPin p b)).withLine p (Level.ofBit b))
    exact ⟨.setPin p b, by simp [acted, h], rfl⟩

/-- What an item of the list makes of the lines and of the registers: its action's part and its transfer's part
(R14, R27, R108). -/
theorem act_effect (m : SeqItem) (rest : List SeqItem) (s : State) :
    let t := acted m.act (transferRegs m.transfer (s.withSeq rest))
    linesAfter m.act s t ∧ registersAfter m.transfer s t := by
  obtain ⟨a, x⟩ := m
  cases a with
  | configIdle => cases x <;> exact ⟨⟨rfl, rfl, rfl, rfl⟩, rfl, rfl⟩
  | delayAtLeast n => cases x <;> exact ⟨⟨rfl, rfl, rfl, rfl⟩, rfl, rfl⟩
  | setPin p b =>
    obtain ⟨o, d, h⟩ := seenEdge_frame p ((transferRegs x (s.withSeq rest)).line p) b
      (((transferRegs x (s.withSeq rest)).withTrace (.setPin p b)).withLine p (Level.ofBit b))
    simp only [acted, h]
    cases x <;> cases p <;>
      exact ⟨⟨rfl, rfl, fun q hq => by cases q <;> first | rfl | exact absurd rfl hq⟩, rfl, rfl⟩

/-- An idle block with nothing presented or waiting stays as it is (R189). -/
theorem step_idle {s : State} (hr : s.rx = []) (hb : s.busy = false) (hv : s.reqValid = false)
    (hw : noFurtherRequest s) : step s = .next s := by
  have hp : hostPresent s = s := hostPresent_idle hw.1 hw.2
  simp [step, stepState, hr, hp, blockStep, hb, State.accepts, hv]

/-- Whatever the block performs, the port of a host with nothing to present stays free. -/
theorem steps_port (l rest : List SeqItem) (s : State) (hr : s.rx = []) (hs : s.seq = l ++ rest)
    (hb : s.busy = busyWith s.seq) (hv : s.reqValid = false) (hw : noFurtherRequest s) :
    ∃ u, steps l.length s = .next u ∧ u.reqValid = false ∧ noFurtherRequest u := by
  induction l generalizing s with
  | nil => exact ⟨s, rfl, hv, hw⟩
  | cons m l ih =>
    have hs' : s.seq = m :: (l ++ rest) := by simpa using hs
    have hst := step_busy hr (by rw [hb, hs']; rfl) hs'
    have hp : hostPresent s = s := hostPresent_idle hw.1 hw.2
    rw [hp] at hst
    obtain ⟨f1, f2, f3, -⟩ := act_frame m (l ++ rest) s
    obtain ⟨g1, -, g3, g4⟩ := acted_host m.act (transferRegs m.transfer (s.withSeq (l ++ rest)))
    obtain ⟨r, n, hx⟩ := transferRegs_frame m.transfer (s.withSeq (l ++ rest))
    rw [hx] at g1 g3 g4
    rw [hx] at f1 f2 f3 hst
    obtain ⟨u, hu, h1, h2⟩ := ih _ (f3.trans hr) f1 (by rw [f2, f1]) (g1.trans hv) ⟨g3.trans hw.1, g4.trans hw.2⟩
    exact ⟨u, by simp [steps, hst, hu], h1, h2⟩

/-- A run of steps cut in two. -/
theorem steps_add (a b : Nat) (s : State) :
    steps (a + b) s =
      match steps a s with
      | .next t => steps b t
      | .fault r => .fault r
      | .refused r => .refused r := by
  induction a generalizing s with
  | zero => simp [steps]
  | succ a ih =>
    rw [show a + 1 + b = (a + b) + 1 by omega]
    simp only [steps]
    cases step s <;> simp [ih]

theorem completes_unique {i : Instr} {s u v : State} (h : completes i s u) (k : completes i s v) : u = v := by
  obtain ⟨t, h1, h2⟩ := h
  obtain ⟨t', k1, k2⟩ := k
  rw [h1] at k1
  cases k1
  rw [h2] at k2
  cases k2
  rfl

theorem completesAll_unique {is : List Instr} {s u v : State} (h : completesAll is s u)
    (k : completesAll is s v) : u = v := by
  induction is generalizing s with
  | nil => exact Eq.trans h (Eq.symm k)
  | cons i is ih =>
    obtain ⟨m, h1, h2⟩ := h
    obtain ⟨m', k1, k2⟩ := k
    obtain rfl := completes_unique h1 k1
    exact ih h2 k2

theorem completesAll_append {is js : List Instr} {s m u : State} (h : completesAll is s m)
    (k : completesAll js m u) : completesAll (is ++ js) s u := by
  induction is generalizing s with
  | nil =>
    cases h
    exact k
  | cons i is ih =>
    obtain ⟨n, h1, h2⟩ := h
    exact ⟨n, h1, ih h2⟩

/-! ## Data bytes at the controller -/

/-- Data bytes that fit are stored one after another (R151). -/
theorem busEffects_data (vs : List Byte) {d : Dev} {p : Fin 17} (hm : d.mode = some .writeAutoinc)
    (hp : d.ptr = some p) (h : p.val + vs.length ≤ 16) :
    let e := busEffects (vs.map .data) d
    e.mode = d.mode ∧ e.power = d.power ∧ e.bright = d.bright ∧
      e.ptr.map Fin.val = some (p.val + vs.length) ∧ storedFrom d.ram e.ram p.val vs := by
  induction vs generalizing d p with
  | nil => exact ⟨rfl, rfl, rfl, by simp [busEffects, hp], fun j hj => by simp at hj, fun x _ => rfl⟩
  | cons v vs ih =>
    simp only [List.length_cons] at h
    have e := Dev.store_of_ptr v hm hp (show p.val < 16 by omega)
    obtain ⟨h1, h2, h3, h4, h5, h6⟩ :=
      ih (d := d.store v) (p := ⟨p.val + 1, by omega⟩) (by rw [e]; exact hm) (by rw [e]) (by simp only; omega)
    show (busEffects (vs.map .data) (d.store v)).mode = _ ∧ _
    refine ⟨h1.trans (by rw [e]), h2.trans (by rw [e]), h3.trans (by rw [e]), h4.trans ?_, ?_, ?_⟩
    · simp
      omega
    · intro j hj
      rcases j with _ | j
      · show Memory.read (busEffects (vs.map .data) (d.store v)).ram p.val = _
        rw [h6 p.val (.inl (by simp)), e]
        simp
      · have := h5 j (by simpa using hj)
        simp only at this
        rw [show p.val + 1 + j = p.val + (j + 1) by omega] at this
        exact this
    · intro x hx
      simp only [List.length_cons] at hx
      show Memory.read (busEffects (vs.map .data) (d.store v)).ram x = _
      rw [h6 x (by simp only; omega), e]
      exact Memory.read_write_other _ _ (by omega)

/-- With the mode unknown the first data byte leaves nothing known, and it stays so (R153). -/
theorem busEffects_data_unknown (vs : List Byte) {d : Dev} (h : d.mode = none) (hv : vs ≠ []) :
    busEffects (vs.map .data) d = Dev.unknown := by
  induction vs generalizing d with
  | nil => exact absurd rfl hv
  | cons v vs ih =>
    have e : d.store v = Dev.unknown := Dev.store_havoc v (.inl h)
    show busEffects (vs.map .data) (d.store v) = _
    rcases vs with _ | ⟨w, ws⟩
    · exact e
    · exact ih (by rw [e]; rfl) (by simp)

/-- Past the last address nothing stays known (R152). -/
theorem busEffects_data_past (vs : List Byte) {d : Dev} {p : Fin 17} (hm : d.mode = some .writeAutoinc)
    (hp : d.ptr = some p) (h : 16 < p.val + vs.length) : busEffects (vs.map .data) d = Dev.unknown := by
  induction vs generalizing d p with
  | nil =>
    simp at h
    omega
  | cons v vs ih =>
    show busEffects (vs.map .data) (d.store v) = _
    by_cases hlt : p.val < 16
    · have e := Dev.store_of_ptr v hm hp hlt
      exact ih (p := ⟨p.val + 1, by omega⟩) (by rw [e]; exact hm) (by rw [e])
        (by simp only [List.length_cons] at h ⊢; omega)
    · have e : d.store v = Dev.unknown := Dev.store_havoc v (.inr (.inr ⟨p, hp, by omega⟩))
      rcases vs with _ | ⟨w, ws⟩
      · exact e
      · exact busEffects_data_unknown _ (by rw [e]; rfl) (by simp)

end Sys2Proof.Machine
end

