-- ==== Sys2Proof/Laws/Script.lean ====
section
/-! SUPPORT. The driver's discipline (`legalScript`): what a list that keeps it leaves after its head, and that the
driver's own lists keep it. -/

namespace Sys2Proof

open Machine

theorem legalScript_bit (x : Transfer) (sr : Byte) (rest : List SeqItem) (w : Wire) (hc : w.cfg = true)
    (hk : w.clk = .high) (hs : (w.transfer x).sr = sr) (hb : (w.transfer x).bit < 8) :
    legalScript w (bitActions x sr ++ rest) =
      legalScript { w with sr := sr >>> 1, bit := (w.transfer x).bit + 1 } rest := by
  obtain ⟨cfg, stb, clk, r, n⟩ := w
  simp only at hc hk
  subst hc hk
  cases x <;> simp only [Wire.transfer] at hs hb <;> subst hs <;>
    simp [bitActions, settleWith, legalScript, Wire.transfer, Level.ofBit, Config.tMin, hb, Nat.le_of_lt hb]

theorem legalScript_bits (k : Nat) (sr : Byte) (rest : List SeqItem) (w : Wire) (hc : w.cfg = true)
    (hk : w.clk = .high) (hs : w.sr = sr) (hb : w.bit + k ≤ 8) :
    legalScript w (bitsFrom k sr ++ rest) = legalScript { w with sr := sr >>> k, bit := w.bit + k } rest := by
  induction k generalizing sr w with
  | zero => subst hs; rfl
  | succ k ih =>
    have h := legalScript_bit .keep sr (bitsFrom k (sr >>> 1) ++ rest) w hc hk hs (by simp only [Wire.transfer]; omega)
    simp only [bitsFrom, List.append_assoc]
    rw [h, ih (sr >>> 1) { w with sr := sr >>> 1, bit := (w.transfer .keep).bit + 1 } hc hk rfl
      (by simp only [Wire.transfer]; omega)]
    simp only [Wire.transfer, ← BitVec.shiftRight_add]
    rw [Nat.add_comm 1 k, show w.bit + 1 + k = w.bit + (k + 1) by omega]

/-- A byte's list keeps the discipline and leaves CLK high (R108). -/
theorem legalScript_byte (v : Byte) (rest : List SeqItem) (w : Wire) (hc : w.cfg = true) (hk : w.clk = .high) :
    legalScript w (byteActions v ++ rest) = legalScript { w with sr := v >>> 8, bit := 8 } rest := by
  have h := legalScript_bit (.load v) v (bitsFrom 7 (v >>> 1) ++ rest) w hc hk rfl (by simp [Wire.transfer])
  simp only [byteActions, List.append_assoc]
  rw [h, legalScript_bits 7 (v >>> 1) rest { w with sr := v >>> 1, bit := (w.transfer (.load v)).bit + 1 } hc hk rfl
    (by simp [Wire.transfer])]
  simp only [Wire.transfer, ← BitVec.shiftRight_add]

theorem legalScript_bytes (bs : List Byte) (rest : List SeqItem) (w : Wire) (hc : w.cfg = true)
    (hk : w.clk = .high) (hb : w.bit ≤ 8) :
    ∃ r n, n ≤ 8 ∧ legalScript w (bs.flatMap byteActions ++ rest) = legalScript { w with sr := r, bit := n } rest := by
  induction bs generalizing w with
  | nil => exact ⟨w.sr, w.bit, hb, rfl⟩
  | cons b bs ih =>
    obtain ⟨r, n, hn, h⟩ := ih { w with sr := b >>> 8, bit := 8 } hc hk (Nat.le_refl 8)
    exact ⟨r, n, hn, by rw [List.flatMap_cons, List.append_assoc, legalScript_byte b _ w hc hk, h]⟩

/-- A frame's list keeps the discipline and leaves STB and CLK high (R109, R130). -/
theorem legalScript_frame (bs : List Byte) (rest : List SeqItem) (w : Wire) (hc : w.cfg = true)
    (hs : w.stb = .high) (hk : w.clk = .high) (hb : w.bit ≤ 8) :
    ∃ r n, n ≤ 8 ∧
      legalScript w (frameActions bs ++ rest) = legalScript ⟨true, .high, .high, r, n⟩ rest := by
  obtain ⟨cfg, stb, clk, sr, bit⟩ := w
  simp only at hc hs hk hb
  subst hc hs hk
  obtain ⟨r, n, hn, h⟩ := legalScript_bytes bs
    (⟨.setPin .stb true, .keep⟩ :: settleWith .keep :: rest) ⟨true, .low, .high, sr, bit⟩ rfl rfl hb
  refine ⟨r, n, hn, ?_⟩
  simp only [frameActions, List.cons_append, List.append_assoc, List.nil_append]
  simp only [legalScript, Wire.transfer, hb, Level.ofBit, Bool.not_false, beq_self_eq_true, Bool.and_true,
    decide_true, Bool.true_and]
  rw [h]
  simp [settleWith, legalScript, Wire.transfer, hn, Level.ofBit, Config.tMin]

theorem legalScript_nil (r : Byte) (n : Nat) : legalScript ⟨true, .high, .high, r, n⟩ [] = true := by
  simp [legalScript]

theorem legalScript_byte_alone (v : Byte) {w : Wire} (hc : w.cfg = true) (hs : w.stb = .high)
    (hk : w.clk = .high) : legalScript w (byteActions v) = true := by
  have h := legalScript_byte v [] w hc hk
  rw [List.append_nil] at h
  rw [h]
  simp [legalScript, hs, hk]

theorem legalScript_frame_alone (bs : List Byte) {w : Wire} (hc : w.cfg = true) (hs : w.stb = .high)
    (hk : w.clk = .high) (hb : w.bit ≤ 8) : legalScript w (frameActions bs) = true := by
  obtain ⟨r, n, _, h⟩ := legalScript_frame bs [] w hc hs hk hb
  rw [List.append_nil] at h
  rw [h, legalScript_nil]

theorem legalScript_render (p1 p2 : Byte) {w : Wire} (hc : w.cfg = true) (hs : w.stb = .high)
    (hk : w.clk = .high) (hb : w.bit ≤ 8) : legalScript w (renderActions p1 p2) = true := by
  simp only [renderActions, List.append_assoc]
  obtain ⟨r, n, hn, h⟩ := legalScript_frame [Config.cmdMode]
    (frameActions [addressByte Config.digit1Addr, p1] ++ frameActions [addressByte Config.digit2Addr, p2])
    w hc hs hk hb
  obtain ⟨r', n', hn', h'⟩ := legalScript_frame [addressByte Config.digit1Addr, p1]
    (frameActions [addressByte Config.digit2Addr, p2]) ⟨true, .high, .high, r, n⟩ rfl rfl rfl hn
  rw [h, h', legalScript_frame_alone [addressByte Config.digit2Addr, p2] rfl rfl rfl hn']

theorem legalScript_init {w : Wire} (hc : w.cfg = false) (hb : w.bit ≤ 8) :
    legalScript w initActions = true := by
  obtain ⟨r, n, hn, h⟩ := legalScript_frame [Config.cmdMode] (frameActions [Config.cmdBright])
    { w with cfg := true, stb := .high, clk := .high } rfl rfl rfl hb
  simp only [initActions, configAction, legalScript, Wire.transfer, hb, hc]
  rw [h, legalScript_frame_alone [Config.cmdBright] rfl rfl rfl hn]
  rfl

end Sys2Proof
end

