-- ==== Sys2Proof/Tests/Slice0.lean ====
section
/-! SUPPORT. Tests of the model, each on one step or one word, with expected results taken from the spec (95 of spec/
where a vector is named), the smoke tests of WellFormed, and for each obligation with hypotheses a witness that meets
them. -/

namespace Sys2Proof.Tests

open Machine

/-! ## Small states -/

/-- The state an outcome holds, for the tests to look at. -/
def after : Host.Outcome State Fault Refusal → State
  | .next t => t
  | .fault _ => State.reset
  | .refused _ => State.reset

theorem exec_after (i : Instr) (s : State) : exec i s = .next (after (exec i s)) := by
  obtain ⟨t, h⟩ := exec_next i s
  rw [h]
  rfl

theorem step_after (s : State) : step s = .next (after (step s)) := by
  obtain ⟨t, h⟩ := step_next s
  rw [h]
  rfl

/-- A block that INIT has brought up, idle: its flags, lines and controller as program P1 of 95 leaves them. -/
def booted : State :=
  { State.reset with
    initialized := true, cfg := true, stb := .high, clk := .high, dio := .high, trace := [.configIdle],
    bit := 8, dev := { mode := some .writeAutoinc, power := some .on, bright := some 7#3, ptr := none, ram := [] } }

/-- A block with a request at its port. -/
def presented (w : ReqWord) (s : State) : State := { s with reqValid := true, reqWord := w }

/-- A block with the actions `seq` still to perform. -/
def sending (seq : List SeqItem) (s : State) : State := { s with busy := true, seq := seq }

/-- A block about to raise STB over the frame `(bytes, n)`. -/
def aboutToClose (bytes : List Byte) (n : Nat) : State :=
  { sending [⟨.setPin .stb true, .keep⟩, settleWith .keep] booted with
    stb := .low, obs := { Obs.reset with isOpen := true, bytes := bytes, n := n } }

/-- A block two actions into SEND_BYTE 0x01, with DIO low: CLK is low and the bit 1 is next on DIO. -/
def beforeData : State :=
  { sending ((byteActions 0x01#8).drop 2) booted with clk := .low, dio := .low, sr := 0x01#8, bit := 0 }

/-- A block in the middle of a frame, CLK low and about to rise, with the given levels of STB and DIO. -/
def beforeRise (isOpen : Bool) (n : Nat) (acc : Byte) (dio : Level) : State :=
  { sending [⟨.setPin .clk true, .keep⟩, settleWith .shift] booted with
    clk := .low, dio := dio, obs := { Obs.reset with isOpen := isOpen, n := n, acc := acc } }

/-- A stopped block: INIT, then a reserved word (vector V-F3). -/
def stoppedBlock : State := { booted with refused := true }

/-- A faulted block: ENCODE 11, 0. -/
def faultedBlock : State := { booted with fault := .digitRange }

theorem inv_of_checks {s : State} (a : s.rx = []) (b : s.busy = true ↔ s.seq ≠ [])
    (c : s.cfg = true ∧ s.trace = [.configIdle] ∧ s.stb ≠ .z ∧ s.clk ≠ .z ∧ s.dio ≠ .z)
    (d : s.fault ≠ .none ∨ s.refused = true → s.busy = false) (e : s.busy = false → s.stb = .high ∧ s.clk = .high)
    (f : s.initialized = true) (g : legalScript (wireOf s) s.seq = true) (h : s.bit ≤ 8)
    (i : s.obs.isOpen = true ↔ s.stb = .low) (j : s.obs.n < 8) (k : Memory.wf s.dev.ram) : RunInv s :=
  { rx_empty := a, busy_iff := b, cfg_iff := by simp [c], driven := fun _ => c.2.2, stopped_idle := d,
    idle_high := fun h _ => e h, undriven := fun h => by simp [c.1] at h, before_init := fun h => by simp [f] at h,
    after_init := fun _ => .inl c.1, script := g, bit_le := h, open_iff := i, bits_lt := j, ram_wf := k,
    minima := fun x hx => by
      rw [c.2.1, List.mem_singleton] at hx
      rw [hx]
      trivial }

theorem inv_booted : RunInv booted := by apply inv_of_checks <;> decide

theorem inv_reset : RunInv State.reset :=
  { rx_empty := rfl, busy_iff := by decide, cfg_iff := by decide, driven := by decide, stopped_idle := by decide,
    idle_high := by decide, undriven := by decide, before_init := by decide,
    after_init := fun h => (by cases h), script := by decide, bit_le := by decide, open_iff := by decide,
    bits_lt := by decide, ram_wf := by decide, minima := by intro e he; cases he }

theorem inv_stopped : RunInv stoppedBlock := by apply inv_of_checks <;> decide

theorem inv_faulted : RunInv faultedBlock := by apply inv_of_checks <;> decide

theorem inv_beforeData : RunInv beforeData := by apply inv_of_checks <;> decide

theorem inv_lastDelay : RunInv (sending [settleWith .keep] booted) := by apply inv_of_checks <;> decide

theorem inv_frameStart : RunInv (sending (frameActions [0x40#8]) booted) := by apply inv_of_checks <;> decide

theorem inv_presented (w : ReqWord) : RunInv (presented w booted) := { inv_booted with }

theorem inv_presented_reset (w : ReqWord) : RunInv (presented w State.reset) := { inv_reset with }

theorem inv_aboutToClose : RunInv (aboutToClose [0x40#8] 0) := by apply inv_of_checks <;> decide

/-- A block that has accepted INIT and performed nothing yet. -/
def initAccepted : State := { State.reset with initialized := true, busy := true, seq := initActions }

theorem inv_initAccepted : RunInv initAccepted :=
  { rx_empty := rfl, busy_iff := by decide, cfg_iff := by decide, driven := by decide, stopped_idle := by decide,
    idle_high := by decide, undriven := by decide, before_init := by decide, after_init := fun _ => .inr ⟨_, rfl⟩,
    script := by decide, bit_le := by decide, open_iff := by decide, bits_lt := by decide, ram_wf := by decide,
    minima := by intro e he; cases he }

theorem ready_reset : ready State.reset := ⟨rfl, rfl, rfl, rfl⟩

theorem ready_booted : ready booted := ⟨rfl, rfl, rfl, rfl⟩

theorem ready_presented (w : ReqWord) : ready (presented w booted) := ⟨rfl, rfl, rfl, rfl⟩

/-! ## WellFormed: an ill-formed term for each check -/

theorem test_wf_frame_empty : wellFormedFrame [] = false := by decide

theorem test_wf_frame_lone_address : wellFormedFrame [.addr 3#4] = false := by decide

theorem test_wf_frame_lone_data : wellFormedFrame [.data 0x11#8] = false := by decide

theorem test_wf_frame_not_addressed : wellFormedFrame [.cmdMode, .data 0x11#8] = false := by decide

theorem test_wf_frame_second_not_data : wellFormedFrame [.addr 0#4, .cmdMode] = false := by decide

theorem test_wf_frame_request : wellFormedFrame [.init] = false := by decide

theorem test_wf_frame_good : wellFormedFrame [.addr 0#4, .data 0x11#8, .data 0x22#8] = true := by decide

theorem test_wf_program_bus_byte : wellFormedProgram [.init, .cmdMode] = false := by decide

theorem test_wf_program_good : wellFormedProgram [.init, .displayNumber 4#4 5#4 false false] = true := by decide

theorem test_wf_isRequest_bus_byte : (Instr.data 0#8).isRequest = false := by decide

theorem test_wf_isBusByte_request : Instr.init.isBusByte = false := by decide

theorem test_wf_isData_first_byte : (Instr.addr 0#4).isData = false := by decide

theorem test_wf_isCommandByte_address : (Instr.addr 0#4).isCommandByte = false := by decide

theorem test_wf_isAddr_command : Instr.cmdMode.isAddr = false := by decide

/-! ## Decoding: words written out bit by bit from R70 to R72 and R76 to R80 -/

/-- op 000, rsv 00000, A 00000000, B 000 1 1010: dot 1, digit 10. -/
theorem test_decode_encode : decodeRequest 0b000000000000000000011010#24 = .ok (.encode 10#4 true) := by decide

/-- op 001, all else 0. -/
theorem test_decode_init : decodeRequest 0b001000000000000000000000#24 = .ok .init := by decide

/-- op 010, B 01010101. -/
theorem test_decode_sendByte : decodeRequest 0b010000000000000001010101#24 = .ok (.sendByte 0x55#8) := by decide

/-- op 011, B 10001111. -/
theorem test_decode_sendCommand : decodeRequest 0b011000000000000010001111#24 = .ok (.sendCommand 0x8F#8) := by
  decide

/-- op 100, A 00011111, B 10100101. -/
theorem test_decode_sendData : decodeRequest 0b100000000001111110100101#24 = .ok (.sendData 0x1F#8 0xA5#8) := by
  decide

/-- op 101, A 000000 0 1 (dot2 0, dot1 1), B 0000 0010 (d2 0, d1 2): vector V-N3. -/
theorem test_decode_displayNumber :
    decodeRequest 0b101000000000000100000010#24 = .ok (.displayNumber 2#4 0#4 true false) := by decide

theorem test_decode_cmdMode : decodeFirstByte 0b01000000#8 = .ok .cmdMode := by decide

theorem test_decode_cmdDisplayOn : decodeFirstByte 0b10001011#8 = .ok (.cmdDisplayOn 3#3) := by decide

theorem test_decode_addr : decodeFirstByte 0b11000010#8 = .ok (.addr 2#4) := by decide

theorem test_decode_data : decode (.dataByte 0b11000010#8) = .ok (.data 0xC2#8) := by decide

/-- The reserved words of 95, 2.1. -/
theorem test_decode_reserved :
    decodeRequest 0x000020#24 = .error .reservedBits ∧ decodeRequest 0x200001#24 = .error .reservedBits ∧
      decodeRequest 0x400155#24 = .error .reservedBits ∧ decodeRequest 0x81FFFF#24 = .error .reservedBits ∧
      decodeRequest 0xA004AA#24 = .error .reservedBits ∧ decodeRequest 0xC00000#24 = .error .reservedOp ∧
      decodeRequest 0xE00000#24 = .error .reservedOp := by decide

/-- First bytes that R76 does not list. -/
theorem test_decode_undocumented :
    decodeFirstByte 0x00#8 = .error .undocumentedByte ∧ decodeFirstByte 0x41#8 = .error .undocumentedByte ∧
      decodeFirstByte 0x87#8 = .error .undocumentedByte ∧ decodeFirstByte 0x90#8 = .error .undocumentedByte ∧
      decodeFirstByte 0xBF#8 = .error .undocumentedByte ∧ decodeFirstByte 0xD0#8 = .error .undocumentedByte := by
  decide

/-- Vectors V-O1, V-O2, V-C4, V-C5 and a frame of two bytes that is not addressed. -/
theorem test_decode_frame_rejected :
    decodeFrame [] 0 = .error .emptyFrame ∧ decodeFrame [] 3 = .error .partialByte ∧
      decodeFrame [0x00#8] 0 = .error .undocumentedByte ∧ decodeFrame [0xC3#8] 0 = .error .loneAddress ∧
      decodeFrame [0x40#8, 0x11#8] 0 = .error .notAddressed := by decide

/-- Vector V-O3. -/
theorem test_decode_frame_addressed :
    decodeFrame [0xC0#8, 0x11#8, 0x22#8] 0 = .ok [.addr 0#4, .data 0x11#8, .data 0x22#8] := by decide

theorem test_decode_table_word :
    decodeTableWord 24 0xA00054 = some (.displayNumber 4#4 5#4 false false) ∧
      decodeTableWord 24 0xE00000 = none ∧ decodeTableWord 8 0x8D = some (.cmdDisplayOn 5#3) ∧
      decodeTableWord 8 0x00 = some (.data 0#8) ∧ decodeTableWord 16 0 = none := by decide

/-! ## One step, or one acceptance -/

/-- Vector V-E4, before INIT. -/
theorem test_encode_blank_dot : (after (exec (.encode 10#4 true) State.reset)).result = some 0x20#8 := by decide

/-- Vector V-E5: the result stays. -/
theorem test_encode_range :
    let t := after (exec (.encode 11#4 false) { booted with result := some 0x77#8 })
    t.fault = .digitRange ∧ t.result = some 0x77#8 := by decide

/-- The host's view of one fetched word, as the first step after reset. -/
theorem test_init_fetched :
    let t := after (step (State.reset.withFetchWord 24 0x200000))
    t.initialized = true ∧ t.busy = true ∧ t.seq.length = 103 ∧ t.cfg = false ∧ t.stb = .z := by decide

/-- Vector V-F2, once the first INIT has completed. -/
theorem test_init_twice :
    let t := after (step (presented 0x200000#24 booted))
    t.fault = .reinit ∧ t.seq = [] ∧ t.trace = booted.trace := by decide

theorem test_sendByte_list :
    let t := after (exec (.sendByte 0x80#8) booted)
    t.seq.length = 48 ∧ dioBits (pins t.seq) = [false, false, false, false, false, false, false, true] := by decide

theorem test_sendByte_before_init : (after (exec (.sendByte 0#8) State.reset)).fault = .notInit := by decide

/-- Vector V-B14: the first actions, and the last two. -/
theorem test_sendCommand_list :
    let p := pins (after (exec (.sendCommand 0x40#8) booted)).seq
    p.length = 51 ∧ p.take 4 = [.setPin .stb false, .setPin .clk false, .delayAtLeast 10, .setPin .dio false] ∧
      p.drop 49 = [.setPin .stb true, .delayAtLeast 10] := by decide

/-- Vector V-F1. -/
theorem test_sendCommand_before_init :
    let t := after (step (State.reset.withFetchWord 24 0x600040))
    t.fault = .notInit ∧ t.stb = .z ∧ t.trace = [] := by decide

/-- Vector V-D3: the address is masked. -/
theorem test_sendData_masked :
    dioBits (pins (after (exec (.sendData 0x12#8 0xA5#8) booted)).seq) =
      [false, true, false, false, false, false, true, true, true, false, true, false, false, true, false, true] := by
  decide

theorem test_sendData_before_init : (after (exec (.sendData 0#8 0#8) State.reset)).fault = .notInit := by decide

/-- Vector V-N4: the mode byte, then 0xC0 with 0x20, then 0xC2 with 0x20. -/
theorem test_displayNumber_dots :
    let p := pins (after (exec (.displayNumber 10#4 10#4 true true) booted)).seq
    p.length = 249 ∧ p = pinsOfFrame [0x40#8] ++ pinsOfFrame [0xC0#8, 0x20#8] ++ pinsOfFrame [0xC2#8, 0x20#8] := by
  decide +kernel

/-- Vectors V-N7 and V-N9. -/
theorem test_displayNumber_faults :
    (after (exec (.displayNumber 0#4 15#4 false false) booted)).fault = .digitRange ∧
      (after (exec (.displayNumber 11#4 0#4 false false) State.reset)).fault = .notInit := by decide

theorem test_cmdMode : (after (step (State.reset.withFetchWord 8 0x40))).dev.mode = some .writeAutoinc := by decide

/-- Vector V-C3, at the closing strobe rise. -/
theorem test_cmdDisplayOn :
    let t := after (step (aboutToClose [0x88#8] 0))
    t.dev.power = some .on ∧ t.dev.bright = some 0#3 ∧ t.dev.mode = some .writeAutoinc ∧ t.stb = .high := by decide

theorem test_addr : (after (step (booted.withFetchWord 8 0xC7))).dev.ptr = some 7 := by decide

/-- Vector V-D5, at the closing strobe rise. -/
theorem test_data_last_address :
    let t := after (step (aboutToClose [0xCF#8, 0x01#8] 0))
    t.dev.ram = [(15, 0x01#8)] ∧ t.dev.ptr = some 16 ∧ t.rx = [] := by decide

/-- Vector V-O4. -/
theorem test_data_past_end : (after (step (aboutToClose [0xCF#8, 0x11#8, 0x22#8] 0))).dev = Dev.unknown := by decide

/-- Vector V-O2. -/
theorem test_partial_byte : (after (step (aboutToClose [] 3))).dev = Dev.unknown := by decide

/-- Vector V-O5. -/
theorem test_stray_clock :
    let t := after (step (beforeRise false 0 0#8 .high))
    t.obs.stray = 1 ∧ t.dev = Dev.unknown := by decide

/-- R10, R14: a length at or above the minimum need not be a whole number of microseconds, and one below is short. -/
theorem test_delay_lengths :
    records (.delayAtLeast 10) (.delay 10 (21 / 2)) ∧ meetsMinimum (.delay 10 (21 / 2)) ∧
      ¬ meetsMinimum (.delay 10 (19 / 2)) :=
  ⟨⟨21 / 2, by norm_num, rfl⟩, ⟨rfl, by norm_num⟩, fun h => absurd h.2 (by norm_num)⟩

/-- Vector V-O6. -/
theorem test_no_edge :
    let s := sending [⟨.setPin .dio false, .keep⟩] { booted with dio := .low }
    (after (step s)).obs = s.obs ∧ (after (step s)).dev = s.dev ∧
      (after (step s)).trace = s.trace ++ [.setPin .dio false] := by decide

/-- Vector V-F3. -/
theorem test_refused :
    let t := after (step (presented 0xE00000#24 booted))
    t.refused = true ∧ t.fault = .none ∧ t.reqReady = false := by decide

/-- R204: idle with the port free the run has ended well, also while a request waits at the host; a block stopped by a
refusal has not, and neither has one with a request at its port and a further one waiting. -/
theorem test_endsWell :
    endsWell { booted with hostBlink := [0xA00054#24] } ∧ ¬ endsWell stoppedBlock ∧
      ¬ endsWell (presented 0xA00054#24 { booted with hostInput := [0x60008F#24] }) :=
  ⟨⟨rfl, .inl rfl, rfl, rfl⟩, fun h => absurd h.2.2.2 (by decide), fun h => by
    rcases h.2.1 with h | h
    · exact absurd h (by decide)
    · exact absurd h.2 (by decide)⟩

/-- R88, R89: the numbers and the pseudo-requests of the assembler. -/
theorem test_assemble :
    assemble "SEND_DATA" [['0', 'x', '1', 'F'], ['1', '6', '5']] = some (.sendData 0x1F#8 0xA5#8) ∧
      assemble "DISPLAY_ON" [['7']] = some (.sendCommand 0x8F#8) ∧ assemble "DISPLAY_ON" [['8']] = none ∧
      assemble "ENCODE" [['1', '0'], ['2']] = none := by decide

/-! ## Witnesses: the hypotheses of each obligation, met together -/

theorem witness_EncodeOfDecode : decode (.request 0x801FA5#24) = .ok (.sendData 0x1F#8 0xA5#8) := by decide

theorem witness_FrameDecodeEncode :
    wellFormedFrame [.addr 15#4, .data 0#8] = true ∧ decodeFrame [0xCF#8, 0#8] 0 = .ok [.addr 15#4, .data 0#8] := by
  decide

theorem witness_DecodeFollowsTable :
    rowDisplayNumber ∈ requestRows ∧ rowDisplayNumber.selects 0xA003FF#24 = true ∧
      (∃ e, decodeRequest 0xA00400#24 = .error e) ∧ decodeRequest 0x00001F#24 = .ok (.encode 15#4 true) := by
  exact ⟨by decide, by decide, ⟨_, rfl⟩, by decide⟩

theorem witness_ReservedWordRefused :
    ready (presented 0x000020#24 booted) ∧ (presented 0x000020#24 booted).reqValid = true ∧
      reservedWord (presented 0x000020#24 booted).reqWord := by
  refine ⟨ready_presented _, rfl, ?_⟩
  unfold reservedWord
  decide

theorem witness_RequestWords : (Instr.encode 15#4 true).isRequest = true := by decide

theorem witness_AssemblerReadsBack : Instr.init.asmOperands = some [] ∧ 7 < 8 := by decide

theorem witness_EncoderTable : (9#4 : Digit).toNat < 10 ∧ 10 < (11#4 : Digit).toNat := by decide

theorem witness_DotLaw : enc 10#4 false = .ok 0#8 ∧ segRead 10#4 = .ok 0#8 := by decide

theorem witness_EncodeRequest :
    enc 10#4 true = .ok 0x20#8 ∧ (10#4 : Digit).toNat ≤ 10 ∧ 10 < (11#4 : Digit).toNat ∧ (0#4 : Digit).toNat < 10 := by
  decide

theorem witness_AddressByteMasked : booted.initialized = true := by decide

theorem witness_BitsOnDio : State.reset.initialized = false ∧ booted.initialized = true := by decide

theorem witness_MinimumDurations :
    (10#4 : Digit).toNat ≤ 10 ∧ State.reset.initialized = false ∧ booted.initialized = true := by decide

theorem witness_UndelayedPairsOnly : [0x40#8] ≠ [] := by decide

theorem witness_InitAccepted : State.reset.initialized = false := by decide

theorem witness_SendByteAccepted : booted.initialized = true := by decide

theorem witness_SendCommandAccepted : booted.initialized = true := by decide

theorem witness_SendDataAccepted : booted.initialized = true := by decide

theorem witness_DisplayNumberAccepted :
    booted.initialized = true ∧ (10#4 : Digit).toNat ≤ 10 ∧ (0#4 : Digit).toNat ≤ 10 := by decide

theorem witness_DigitRangeFault :
    booted.initialized = true ∧ 10 < (11#4 : Digit).toNat ∧
      (10 < (10#4 : Digit).toNat ∨ 10 < (15#4 : Digit).toNat) := by decide

theorem witness_NotInitFault :
    RunInv State.reset ∧ State.reset.initialized = false ∧ (10#4 : Digit).toNat ≤ 10 := ⟨inv_reset, rfl, by decide⟩

theorem witness_ReinitFault :
    ready (presented 0x200000#24 booted) ∧ (presented 0x200000#24 booted).initialized = true ∧
      (presented 0x200000#24 booted).reqValid = true ∧ (presented 0x200000#24 booted).reqWord = 0x200000#24 :=
  ⟨ready_presented _, rfl, rfl, rfl⟩

theorem witness_ReinitFault_held :
    let s := presented 0x200000#24 (sending (frameActions [0x40#8]) booted)
    s.rx = [] ∧ s.busy = true ∧ s.reqValid = true ∧ s.reqWord = 0x200000#24 := by decide

theorem witness_RequestOutcomes_held :
    let s := presented 0xE00000#24 (sending (frameActions [0x40#8]) booted)
    s.rx = [] ∧ s.busy = true ∧ s.reqValid = true := by decide

theorem witness_RequestOutcomes :
    ready (presented 0xE00000#24 booted) ∧ decodeRequest 0xE00000#24 = .error .reservedOp ∧
      decodeRequest 0xA000B4#24 = .ok (.displayNumber 4#4 11#4 false false) ∧
      contractFault true (.displayNumber 4#4 11#4 false false) = some .digitRange ∧
      decodeRequest 0xA000AA#24 = .ok (.displayNumber 10#4 10#4 false false) ∧
      contractFault true (.displayNumber 10#4 10#4 false false) = none :=
  ⟨ready_presented _, by decide, by decide, by decide, by decide, by decide⟩

theorem witness_RequestOutcomes_before_init :
    let s := presented 0xA0000B#24 State.reset
    ready s ∧ s.reqValid = true ∧ s.initialized = false ∧ s.reqWord = 0xA0000B#24 :=
  ⟨⟨rfl, rfl, rfl, rfl⟩, rfl, rfl, rfl⟩

theorem witness_FaultChangesFaultOnly :
    contractFault booted.initialized .init = some .reinit ∧
      exec .init booted = .next (after (exec .init booted)) ∧
      (after (exec .init booted)).fault ≠ booted.fault := ⟨by decide, exec_after _ _, by decide⟩

theorem witness_StoppedForGood :
    let s := presented 0x200000#24 stoppedBlock
    s.rx = [] ∧ s.busy = false ∧ s.stopped = true ∧ s.reqValid = true := by decide

theorem witness_StoppedForGood_sticky :
    RunInv stoppedBlock ∧ step stoppedBlock = .next (after (step stoppedBlock)) ∧ stoppedBlock.refused = true ∧
      RunInv faultedBlock ∧ step faultedBlock = .next (after (step faultedBlock)) ∧ faultedBlock.fault ≠ .none :=
  ⟨inv_stopped, step_after _, rfl, inv_faulted, step_after _, by decide⟩

theorem witness_StepRunsRequest :
    ready (presented 0x40008F#24 booted) ∧ (hostPresent (presented 0x40008F#24 booted)).reqValid = true ∧
      decodeRequest (hostPresent (presented 0x40008F#24 booted)).reqWord = .ok (.sendByte 0x8F#8) :=
  ⟨ready_presented _, rfl, by decide⟩

/-- The same from the host's queue: the host's turn presents the word in the step that accepts it. -/
theorem witness_StepRunsRequest_queue :
    let s := { booted with hostBlink := [0xA00054#24] }
    ready s ∧ (hostPresent s).reqValid = true ∧
      decodeRequest (hostPresent s).reqWord = .ok (.displayNumber 4#4 5#4 false false) :=
  ⟨⟨rfl, rfl, rfl, rfl⟩, rfl, by decide⟩

theorem witness_StepRunsBusByte :
    (booted.withFetchWord 8 0xC2).rx = [.addr 2#4] ∧
      (booted.withRx [.addr 2#4, .data 0x11#8]).rx = [.addr 2#4, .data 0x11#8] := by decide

theorem closing_aboutToClose (bytes : List Byte) (n : Nat) :
    closing (aboutToClose bytes n) bytes n [settleWith .keep] := ⟨rfl, rfl, rfl, rfl, rfl, rfl, rfl⟩

theorem witness_StepRunsClosedFrame :
    closing (aboutToClose [0xC0#8, 0x11#8] 0) [0xC0#8, 0x11#8] 0 [settleWith .keep] ∧
      decodeFrame [0xC0#8, 0x11#8] 0 = .ok [.addr 0#4, .data 0x11#8] :=
  ⟨closing_aboutToClose _ _, by decide⟩

theorem witness_SequencerStep :
    let s := presented 0x200000#24 (sending [settleWith .keep] booted)
    s.rx = [] ∧ s.busy = true ∧ s.seq = [settleWith .keep] ∧ s.reqValid = true := by decide

/-- A head of each kind: ConfigIdle, a SetPin with the load of a byte, a delay with a shift. -/
theorem witness_SequencerStep_heads :
    initAccepted.rx = [] ∧ initAccepted.busy = true ∧
      (∃ rest, initAccepted.seq = ⟨.configIdle, .keep⟩ :: rest) ∧
      (let s := sending (byteActions 0xA5#8) booted
       s.rx = [] ∧ s.busy = true ∧ ∃ rest, s.seq = ⟨.setPin .clk false, .load 0xA5#8⟩ :: rest) ∧
      let s := sending [settleWith .shift] booted
      s.rx = [] ∧ s.busy = true ∧ s.seq = ⟨.delayAtLeast 10, .shift⟩ :: [] :=
  ⟨rfl, rfl, ⟨_, rfl⟩, ⟨rfl, rfl, _, rfl⟩, rfl, rfl, rfl⟩

theorem witness_TraceOnlyGrows :
    (sending [settleWith .keep] booted).rx = [] ∧
      step (sending [settleWith .keep] booted) = .next (after (step (sending [settleWith .keep] booted))) ∧
      (after (step (sending [settleWith .keep] booted))).trace ≠ booted.trace := by
  refine ⟨rfl, step_after _, fun h => ?_⟩
  exact absurd (congrArg List.length h) (by decide)

theorem witness_IdleHolds :
    booted.rx = [] ∧ booted.busy = false ∧ booted.reqValid = false ∧ booted.hostBlink = [] ∧
      booted.hostInput = [] ∧ RunInv booted ∧ booted.cfg = true := ⟨rfl, rfl, rfl, rfl, rfl, inv_booted, rfl⟩

theorem witness_StatusFlags_initialized :
    let s := presented 0x200000#24 State.reset
    RunInv s ∧ step s = .next (after (step s)) ∧ s.initialized = false ∧ (after (step s)).initialized = true ∧
      s.busy = false ∧ (after (step s)).busy = true ∧ (hostPresent s).accepts = true :=
  ⟨inv_presented_reset _, step_after _, rfl, by decide, rfl, by decide, by decide⟩

theorem witness_StatusFlags_busy_falls :
    let s := sending [settleWith .keep] booted
    RunInv s ∧ step s = .next (after (step s)) ∧ s.initialized = true ∧ s.busy = true ∧
      (after (step s)).busy = false := ⟨inv_lastDelay, step_after _, rfl, rfl, by decide⟩

theorem witness_StatusFlags_fault :
    let s := presented 0x00000B#24 booted
    RunInv s ∧ step s = .next (after (step s)) ∧ (after (step s)).fault ≠ s.fault :=
  ⟨inv_presented _, step_after _, by decide⟩

theorem witness_StatusFlags_refused :
    let s := presented 0xC00000#24 booted
    RunInv s ∧ step s = .next (after (step s)) ∧ s.refused = false ∧ (after (step s)).refused = true :=
  ⟨inv_presented _, step_after _, rfl, by decide⟩

theorem witness_StatusFlags_sticky :
    RunInv stoppedBlock ∧ step stoppedBlock = .next (after (step stoppedBlock)) ∧ stoppedBlock.refused = true ∧
      RunInv faultedBlock ∧ step faultedBlock = .next (after (step faultedBlock)) ∧ faultedBlock.fault ≠ .none :=
  ⟨inv_stopped, step_after _, rfl, inv_faulted, step_after _, by decide⟩

theorem witness_ResultOnlyByEncode :
    let s := presented 0x00001A#24 booted
    s.rx = [] ∧ step s = .next (after (step s)) ∧ (after (step s)).result ≠ s.result ∧ State.reset.result = none ∧
      (after (step s)).result = some 0x20#8 ∧ enc 10#4 true = .ok 0x20#8 :=
  ⟨rfl, step_after _, by decide, rfl, by decide, by decide⟩

theorem witness_LinesOnlyBySetPin :
    RunInv State.reset ∧ State.reset.cfg = false ∧ RunInv initAccepted ∧
      step initAccepted = .next (after (step initAccepted)) ∧ initAccepted.cfg = false ∧
      (after (step initAccepted)).cfg = true ∧ RunInv beforeData ∧
      step beforeData = .next (after (step beforeData)) ∧ beforeData.cfg = true ∧
      (after (step beforeData)).line .dio ≠ beforeData.line .dio :=
  ⟨inv_reset, rfl, inv_initAccepted, step_after _, rfl, by decide, inv_beforeData, step_after _, rfl, by decide⟩

theorem witness_StrobeMovesAtClockHigh :
    let s := sending (frameActions [0x40#8]) booted
    RunInv s ∧ step s = .next (after (step s)) ∧ s.cfg = true ∧ (after (step s)).stb ≠ s.stb ∧
      ∃ x rest, s.seq = ⟨.setPin .stb false, x⟩ :: rest :=
  ⟨inv_frameStart, step_after _, rfl, by decide, _, _, rfl⟩

theorem witness_DataMovesAtClockLow :
    RunInv beforeData ∧ (∃ rest, beforeData.seq = ⟨.setPin .dio true, .keep⟩ :: rest) ∧
      step beforeData = .next (after (step beforeData)) ∧ beforeData.cfg = true ∧
      (after (step beforeData)).dio ≠ beforeData.dio :=
  ⟨inv_beforeData, ⟨_, rfl⟩, step_after _, rfl, by decide⟩

theorem witness_InitConfigures :
    RunInv State.reset ∧ State.reset.initialized = false ∧ (Instr.encode 10#4 true).isRequest = true ∧
      contractFault false (.encode 10#4 true) = none ∧
      exec (.encode 10#4 true) State.reset = .next (after (exec (.encode 10#4 true) State.reset)) :=
  ⟨inv_reset, rfl, rfl, by decide, exec_after _ _⟩

theorem witness_InitConfigures_list :
    initAccepted.initialized = true ∧ Instr.init ≠ .sendByte 0#8 ∧
      exec .init initAccepted = .next (after (exec .init initAccepted)) ∧
      exec (.encode 15#4 false) initAccepted = .next (after (exec (.encode 15#4 false) initAccepted)) ∧
      PinAction.configIdle ∈ pins (after (exec (.encode 15#4 false) initAccepted)).seq :=
  ⟨rfl, by decide, exec_after _ _, exec_after _ _, by decide⟩

theorem witness_InvKept :
    RunInv (aboutToClose [0x40#8] 0) ∧
      step (aboutToClose [0x40#8] 0) = .next (after (step (aboutToClose [0x40#8] 0))) :=
  ⟨inv_aboutToClose, step_after _⟩

theorem witness_ObserverAgreesWithTrace :
    State.reset.rx = [] ∧ agreesWithReplay State.reset ∧ step State.reset = .next (after (step State.reset)) :=
  ⟨rfl, ⟨_, rfl, rfl, rfl, rfl, rfl, rfl, rfl⟩, step_after _⟩

theorem witness_ObserverEdges_strobe :
    let s := sending (frameActions [0x40#8]) booted
    s.rx = [] ∧ s.busy = true ∧ s.stb = .high ∧ ∃ x rest, s.seq = ⟨.setPin .stb false, x⟩ :: rest :=
  ⟨rfl, rfl, rfl, _, _, rfl⟩

/-- The eighth sample and an earlier one, in a frame and outside one. -/
theorem witness_ObserverEdges_rise :
    let s := beforeRise true 7 0x7F#8 .high
    let t := beforeRise true 6 0#8 .low
    let u := beforeRise false 0 0#8 .low
    (s.rx = [] ∧ s.busy = true ∧ s.clk = .low ∧ s.obs.isOpen = true ∧ s.obs.n + 1 = 8) ∧
      (t.clk = .low ∧ t.obs.isOpen = true ∧ t.obs.n + 1 ≠ 8) ∧ (u.clk = .low ∧ u.obs.isOpen = false) ∧
      s.seq = ⟨.setPin .clk true, .keep⟩ :: [settleWith .shift] := by decide

theorem witness_ObserverEdges_fall :
    let s := sending (byteActions 0x01#8) booted
    s.rx = [] ∧ s.busy = true ∧ (∃ x rest, s.seq = ⟨.setPin .clk false, x⟩ :: rest) ∧
      RunInv (aboutToClose [0x40#8] 0) ∧ (aboutToClose [0x40#8] 0).obs.isOpen = true :=
  ⟨rfl, rfl, ⟨_, _, rfl⟩, inv_aboutToClose, rfl⟩

/-- An action of each kind that is no edge: SetPin to the level the line has, a change of DIO, ConfigIdle, a delay. -/
theorem witness_ObserverEdges_no_edge :
    (let s := sending [⟨.setPin .clk true, .keep⟩] booted
     s.rx = [] ∧ s.busy = true ∧ s.line .clk = Level.ofBit true) ∧
      (beforeData.rx = [] ∧ beforeData.busy = true ∧ beforeData.line .dio ≠ Level.ofBit true ∧
        ∃ rest, beforeData.seq = ⟨.setPin .dio true, .keep⟩ :: rest) ∧
      (initAccepted.rx = [] ∧ initAccepted.busy = true ∧ ∃ rest, initAccepted.seq = ⟨.configIdle, .keep⟩ :: rest) ∧
      let s := sending [settleWith .shift] booted
      s.rx = [] ∧ s.busy = true ∧ s.seq = ⟨.delayAtLeast 10, .shift⟩ :: [] :=
  ⟨by decide, ⟨rfl, rfl, by decide, _, rfl⟩, ⟨rfl, rfl, _, rfl⟩, rfl, rfl, rfl⟩

/-- SEND_BYTE on its own completes with clock rises outside a frame. -/
theorem witness_ObserverEdges_stray :
    RunInv booted ∧ ready booted ∧
      ∃ u, completes (.sendByte 0x01#8) booted u ∧ u.obs.stray ≠ booted.obs.stray := by
  refine ⟨inv_booted, ready_booted, ?_⟩
  obtain ⟨u, hu, hB⟩ := steps_sameBlock (byteActions 0x01#8) [] (start (byteActions 0x01#8) booted) rfl
    (by simp [start]) rfl
  have hc := runFirst_byte_closed 0x01#8 [] (start (byteActions 0x01#8) booted) rfl
  refine ⟨u, ⟨_, exec_sendByte 0x01#8 rfl, hu⟩, ?_⟩
  rw [(hB.trans hc).obs]
  decide

theorem witness_ByteAssembled :
    let s := { sending (byteActions 0xA5#8) booted with stb := .low, obs := { Obs.reset with isOpen := true } }
    s.rx = [] ∧ s.busy = true ∧ s.seq = byteActions 0xA5#8 ++ [] ∧ s.clk = .high ∧ s.obs.isOpen = true ∧
      s.obs.acc = 0#8 ∧ s.obs.n = 0 := by decide

theorem witness_RegistersAlongByte :
    let s := sending (byteActions 0xA5#8) booted
    s.rx = [] ∧ s.busy = true ∧ s.seq = byteActions 0xA5#8 ++ [] ∧ 1 ≤ 1 ∧ 8 ≤ 8 := by decide

theorem witness_CommandFrames :
    closing (aboutToClose [0x40#8] 0) [0x40#8] 0 [settleWith .keep] ∧
      closing (aboutToClose [0x88#8 ||| (7#3).setWidth 8] 0) [0x88#8 ||| (7#3).setWidth 8] 0 [settleWith .keep] :=
  ⟨closing_aboutToClose _ _, closing_aboutToClose _ _⟩

theorem witness_AddressAndData :
    let s := booted.withDev { booted.dev with ptr := some 15 }
    s.dev.mode = some .writeAutoinc ∧ s.dev.ptr = some 15 ∧ (15 : Fin 17).val < 16 ∧
      (booted.withDev { booted.dev with ptr := some 16 }).dev.ptr = some 16 ∧ booted.dev.ptr = none ∧
      State.reset.dev.mode = none := by decide

/-- A frame that fits to the last address, one that passes it, and one in an unknown mode. -/
theorem witness_AddressedWrite :
    closing (aboutToClose [0b1100#4 ++ 15#4, 0x11#8] 0) [0b1100#4 ++ 15#4, 0x11#8] 0 [settleWith .keep] ∧
      (aboutToClose [0b1100#4 ++ 15#4, 0x11#8] 0).dev.mode = some .writeAutoinc ∧
      (15#4 : BitVec 4).toNat + [0x11#8].length ≤ 16 ∧
      16 < (15#4 : BitVec 4).toNat + [0x11#8, 0x22#8].length ∧
      closing ((aboutToClose [0b1100#4 ++ 0#4, 0x11#8] 0).withDev Dev.unknown) [0b1100#4 ++ 0#4, 0x11#8] 0
        [settleWith .keep] :=
  ⟨closing_aboutToClose _ _, rfl, by decide, by decide, ⟨rfl, rfl, rfl, rfl, rfl, rfl, rfl⟩⟩

/-- Boundary bytes of each alternative: 0x87 and 0x90 beside the display-on bytes, 0xBF and 0xD0 beside the
addresses. -/
theorem witness_HavocCases :
    closing (aboutToClose [0x87#8] 0) [0x87#8] 0 [settleWith .keep] ∧ (0x87#8 : Byte) ≠ 0x40#8 ∧
      (0x87#8 : Byte).extractLsb' 3 5 ≠ 0b10001#5 ∧ (0x90#8 : Byte).extractLsb' 3 5 ≠ 0b10001#5 ∧
      (0xC0#8 : Byte).extractLsb' 3 5 ≠ 0b10001#5 ∧ (0xBF#8 : Byte).extractLsb' 4 4 ≠ 0b1100#4 ∧
      (0xD0#8 : Byte).extractLsb' 4 4 ≠ 0b1100#4 ∧ closing (aboutToClose [] 0) [] 0 [settleWith .keep] ∧
      closing (aboutToClose [0x40#8] 1) [0x40#8] 1 [settleWith .keep] ∧ (1 : Nat) ≠ 0 ∧
      closing (aboutToClose [0xD0#8, 0x11#8] 0) [0xD0#8, 0x11#8] 0 [settleWith .keep] :=
  ⟨closing_aboutToClose _ _, by decide, by decide, by decide, by decide, by decide, by decide,
    closing_aboutToClose _ _, closing_aboutToClose _ _, by decide, closing_aboutToClose _ _⟩

theorem witness_HavocCases_rest :
    (beforeRise false 0 0#8 .high).rx = [] ∧ (beforeRise false 0 0#8 .high).busy = true ∧
      (beforeRise false 0 0#8 .high).seq = ⟨.setPin .clk true, .keep⟩ :: [settleWith .shift] ∧
      (beforeRise false 0 0#8 .high).clk = .low ∧ (beforeRise false 0 0#8 .high).obs.isOpen = false ∧
      closing (aboutToClose [0b1100#4 ++ 15#4, 0x11#8, 0x22#8] 0) [0b1100#4 ++ 15#4, 0x11#8, 0x22#8] 0
        [settleWith .keep] ∧ 16 < (15#4 : BitVec 4).toNat + [0x11#8, 0x22#8].length :=
  ⟨rfl, rfl, rfl, rfl, rfl, closing_aboutToClose _ _, by decide⟩

theorem witness_RequestFrame :
    (Instr.sendData 0x1F#8 0xA5#8).isRequest = true ∧
      exec (.sendData 0x1F#8 0xA5#8) booted = .next (after (exec (.sendData 0x1F#8 0xA5#8) booted)) ∧
      Instr.sendData 0x1F#8 0xA5#8 ≠ .init ∧ ∀ d dot, Instr.sendData 0x1F#8 0xA5#8 ≠ .encode d dot :=
  ⟨rfl, exec_after _ _, by decide, fun _ _ h => by cases h⟩

theorem witness_BusByteFrame :
    let s := booted.withDev { booted.dev with ptr := some 15 }
    (Instr.data 0x11#8).isBusByte = true ∧ exec (.data 0x11#8) s = .next (after (exec (.data 0x11#8) s)) ∧
      exec .cmdMode s = .next (after (exec .cmdMode s)) ∧
      exec (.cmdDisplayOn 7#3) s = .next (after (exec (.cmdDisplayOn 7#3) s)) ∧
      exec (.addr 15#4) s = .next (after (exec (.addr 15#4) s)) ∧
      s.dev.mode = some .writeAutoinc ∧ s.dev.ptr = some 15 ∧ (15 : Fin 17).val < 16 :=
  ⟨rfl, exec_after _ _, exec_after _ _, exec_after _ _, exec_after _ _, rfl, rfl, by decide⟩

theorem witness_WellFormedOutput :
    (RunInv State.reset ∧ ready State.reset ∧ State.reset.initialized = false) ∧
      (RunInv booted ∧ ready booted ∧ booted.initialized = true) ∧ enc 10#4 false = .ok 0#8 ∧
      enc 10#4 true = .ok 0x20#8 :=
  ⟨⟨inv_reset, ready_reset, rfl⟩, ⟨inv_booted, ready_booted, rfl⟩, by decide, by decide⟩

theorem witness_LinesAfterRequest :
    (RunInv State.reset ∧ ready State.reset ∧ State.reset.initialized = false) ∧
      (RunInv booted ∧ ready booted ∧ booted.initialized = true) ∧ enc 10#4 false = .ok 0#8 ∧
      enc 10#4 true = .ok 0x20#8 :=
  ⟨⟨inv_reset, ready_reset, rfl⟩, ⟨inv_booted, ready_booted, rfl⟩, by decide, by decide⟩

theorem witness_DisplayAfterRender :
    RunInv State.reset ∧ ready State.reset ∧ State.reset.initialized = false ∧
      (∀ i ∈ [Instr.encode 9#4 true, .sendCommand 0x88#8, .sendData 0x0F#8 0x80#8],
        documented i = true ∧ contractFault true i = none) ∧
      (10#4 : Digit).toNat ≤ 10 ∧ (0#4 : Digit).toNat ≤ 10 ∧
      State.reset.reqValid = false ∧ noFurtherRequest State.reset :=
  ⟨inv_reset, ready_reset, rfl, by decide, by decide, by decide, rfl, rfl, rfl⟩

theorem witness_BusyFalls :
    RunInv booted ∧ ready booted ∧ (Instr.sendByte 0#8).isRequest = true ∧
      exec (.sendByte 0#8) booted = .next (after (exec (.sendByte 0#8) booted)) ∧
      (sending [settleWith .keep] booted).rx = [] ∧
      ((sending [settleWith .keep] booted).busy = true ↔ (sending [settleWith .keep] booted).seq ≠ []) :=
  ⟨inv_booted, ready_booted, rfl, exec_after _ _, rfl, by decide⟩

theorem witness_BusyFalls_endsWell :
    stoppedBlock.refused = true ∧ faultedBlock.fault ≠ .none ∧ (sending [settleWith .keep] booted).stopped = false ∧
      (∃ u, steps 1 (sending [settleWith .keep] booted) = .next u ∧ u.reqValid = false ∧ noFurtherRequest u) := by
  obtain ⟨u, h, h1, h2⟩ := steps_port [settleWith .keep] [] (sending [settleWith .keep] booted) rfl rfl rfl rfl
    ⟨rfl, rfl⟩
  exact ⟨rfl, by decide, rfl, u, h, h1, h2⟩

/-- A request at the port, and a free port with a request waiting in no list, in either, and in both. -/
theorem witness_HostOrderOpen :
    (presented 0#24 booted).reqValid = true ∧ booted.reqValid = false ∧
      (let s := { booted with hostBlink := [0xA00054#24] }; s.reqValid = false ∧ s.hostBlink = 0xA00054#24 :: []) ∧
      (let s := { booted with hostInput := [0x60008F#24] }; s.reqValid = false ∧ s.hostInput = 0x60008F#24 :: []) ∧
      let s := { booted with hostBlink := [0xA00054#24], hostInput := [0x60008F#24] }
      s.reqValid = false ∧ s.hostBlink = 0xA00054#24 :: [] ∧ s.hostInput = 0x60008F#24 :: [] := by decide

theorem witness_SourceHostRespectsContract :
    99 ≤ 99 ∧ sourceHostIssues (renderRequest 99 true true) ∧ renderRequest 99 true true ≠ .init :=
  ⟨by decide, .inr (.inl ⟨99, true, true, by decide, rfl⟩), by decide⟩

end Sys2Proof.Tests
end

section
/-! PROOFS. The invariant (R36), said for one step: what the driver's discipline asks of the next action, what an
action makes of the observer and the controller, and that each thing a step can do keeps the invariant. -/

namespace Sys2Proof

open Machine

/-! ## The next action under the driver's discipline -/

/-- The wire after a pin action. -/
def Wire.act (w : Wire) : PinAction → Wire
  | .configIdle => { w with cfg := true, stb := .high, clk := .high }
  | .delayAtLeast _ => w
  | .setPin .stb b => { w with stb := Level.ofBit b }
  | .setPin .clk b => { w with clk := Level.ofBit b }
  | .setPin .dio _ => w

/-- The wire on which the driver's discipline performs a pin action: the clauses of `legalScript`, action by action. -/
def permits : PinAction → Wire → Prop
  | .configIdle, w => w.cfg = false
  | .delayAtLeast t, w => w.cfg = true ∧ t = Config.tMin
  | .setPin .stb b, w => w.cfg = true ∧ w.clk = .high ∧ w.stb = Level.ofBit (!b)
  | .setPin .clk b, w => w.cfg = true ∧ w.clk = Level.ofBit (!b)
  | .setPin .dio b, w => w.cfg = true ∧ w.clk = .low ∧ b = w.sr.getLsbD 0

/-- The discipline asks for the counter's range, for a wire that permits the head, and for the rest on the wire that
the head leaves. -/
theorem legalScript_cons (w : Wire) (m : SeqItem) (rest : List SeqItem) :
    legalScript w (m :: rest) = true ↔
      (w.transfer m.transfer).bit ≤ 8 ∧ permits m.act (w.transfer m.transfer) ∧
        legalScript ((w.transfer m.transfer).act m.act) rest = true := by
  obtain ⟨a, x⟩ := m
  rcases a with _ | ⟨p, b⟩ | t
  · simp [legalScript, permits, Wire.act]
  · cases p <;> simp [legalScript, permits, Wire.act, and_assoc]
  · simp [legalScript, permits, Wire.act, and_assoc]

@[simp] theorem wireOf_withSeq (s : State) (q : List SeqItem) : wireOf (s.withSeq q) = wireOf s := rfl

@[simp] theorem wireOf_transferRegs (x : Transfer) (s : State) :
    wireOf (transferRegs x s) = (wireOf s).transfer x := by
  cases x <;> rfl

@[simp] theorem wireOf_acted (a : PinAction) (s : State) : wireOf (acted a s) = (wireOf s).act a := by
  cases a with
  | configIdle => rfl
  | delayAtLeast t => rfl
  | setPin p b =>
    obtain ⟨o, d, h⟩ := seenEdge_frame p (s.line p) b ((s.withTrace (.setPin p b)).withLine p (Level.ofBit b))
    rw [acted, h]
    cases p <;> simp [wireOf, Wire.act]

@[simp] theorem Wire.transfer_cfg (w : Wire) (x : Transfer) : (w.transfer x).cfg = w.cfg := by
  cases x <;> rfl

@[simp] theorem Wire.transfer_clk (w : Wire) (x : Transfer) : (w.transfer x).clk = w.clk := by
  cases x <;> rfl

@[simp] theorem wireOf_cfg (s : State) : (wireOf s).cfg = s.cfg := rfl

@[simp] theorem wireOf_clk (s : State) : (wireOf s).clk = s.clk := rfl

/-- Lines that are not configured permit ConfigIdle alone (R107). -/
theorem eq_configIdle_of_permits {a : PinAction} {w : Wire} (h : permits a w) (hc : w.cfg = false) :
    a = .configIdle := by
  rcases a with _ | ⟨_ | _ | _, b⟩ | t
  · rfl
  all_goals exact absurd (hc.symm.trans h.1) (by decide)

/-- A permitted action leaves the lines configured. -/
theorem Wire.act_cfg {a : PinAction} {w : Wire} (h : permits a w) : (w.act a).cfg = true := by
  rcases a with _ | ⟨_ | _ | _, b⟩ | t
  · rfl
  all_goals exact h.1

theorem Wire.act_bit (w : Wire) (a : PinAction) : (w.act a).bit = w.bit := by
  rcases a with _ | ⟨_ | _ | _, b⟩ | t <;> rfl

theorem acted_cfg {a : PinAction} {s : State} (h : permits a (wireOf s)) : (acted a s).cfg = true :=
  (congrArg Wire.cfg (wireOf_acted a s)).trans (Wire.act_cfg h)

theorem acted_bit (a : PinAction) (s : State) : (acted a s).bit = s.bit :=
  (congrArg Wire.bit (wireOf_acted a s)).trans (Wire.act_bit _ a)

/-! ## What an action makes of the observer and the controller -/

theorem clockRise_bits_lt {s : State} (h : s.obs.n < 8) : (clockRise s).obs.n < 8 := by
  rcases clockRise_cases s with ⟨-, e⟩ | ⟨-, e⟩ <;> rw [e]
  · exact Obs.sample_n_lt _ h
  · exact h

theorem clockRise_isOpen (s : State) : (clockRise s).obs.isOpen = s.obs.isOpen := by
  rcases clockRise_cases s with ⟨-, e⟩ | ⟨-, e⟩ <;> rw [e]
  · exact (Obs.sample_frame _ _).1
  · rfl

theorem clockRise_ram_wf {s : State} (h : Memory.wf s.dev.ram) : Memory.wf (clockRise s).dev.ram := by
  rcases clockRise_cases s with ⟨-, e⟩ | ⟨-, e⟩ <;> rw [e]
  · exact h
  · exact Memory.wf_nil

/-- An edge keeps the counter of bits below 8 and the display RAM in its canonical form (R143, R145). -/
theorem seenEdge_ranges (p : Pin) (old : Level) (b : Bool) {s : State} (hn : s.obs.n < 8)
    (hw : Memory.wf s.dev.ram) :
    (seenEdge p old b s).obs.n < 8 ∧ Memory.wf (seenEdge p old b s).dev.ram := by
  cases p <;> cases old <;> cases b <;> simp only [seenEdge]
  case stb.high.false => exact ⟨Nat.zero_lt_succ 7, hw⟩
  case stb.low.true =>
    split
    · exact ⟨hn, frameEffect_ram_wf _ _ hw⟩
    · exact ⟨hn, hw⟩
  case clk.low.true => exact ⟨clockRise_bits_lt hn, clockRise_ram_wf hw⟩
  all_goals exact ⟨hn, hw⟩

/-- So does an action. -/
theorem acted_ranges (a : PinAction) {s : State} (hn : s.obs.n < 8) (hw : Memory.wf s.dev.ram) :
    (acted a s).obs.n < 8 ∧ Memory.wf (acted a s).dev.ram := by
  cases a with
  | configIdle => exact ⟨hn, hw⟩
  | delayAtLeast t => exact ⟨hn, hw⟩
  | setPin p b => exact seenEdge_ranges p _ b (by simpa using hn) (by simpa using hw)

/-- CLK and DIO open and close no frame. -/
theorem seenEdge_isOpen_of_ne {p : Pin} (hp : p ≠ .stb) (old : Level) (b : Bool) (s : State) :
    (seenEdge p old b s).obs.isOpen = s.obs.isOpen := by
  cases p
  · exact absurd rfl hp
  · cases old <;> cases b
    case low.true => exact clockRise_isOpen s
    all_goals rfl
  · rfl

/-- A permitted action keeps a frame open exactly while STB is low: the strobe fall opens it, the rise closes it
(R142, R145). -/
theorem acted_open_iff {a : PinAction} {s : State} (ha : permits a (wireOf s))
    (hz : s.cfg = false → s.stb = .z) (h : s.obs.isOpen = true ↔ s.stb = .low) :
    (acted a s).obs.isOpen = true ↔ (acted a s).stb = .low := by
  have hstb : (acted a s).stb = ((wireOf s).act a).stb := congrArg Wire.stb (wireOf_acted a s)
  rw [hstb]
  cases a with
  | configIdle =>
    have hs : s.stb = .z := hz ha
    rw [hs] at h
    simpa [acted, configIdle, Wire.act] using h
  | delayAtLeast t => exact h
  | setPin p b =>
    cases p with
    | stb =>
      have hs : s.stb = Level.ofBit (!b) := ha.2.2
      cases b
      · simp [acted, seenEdge, hs, Level.ofBit, Wire.act, Obs.openFrame]
      · have ho : s.obs.isOpen = true := h.2 hs
        simp [acted, seenEdge, hs, Level.ofBit, Wire.act, Obs.closeFrame, ho]
    | clk =>
      rw [acted, seenEdge_isOpen_of_ne (by decide)]
      exact h
    | dio => exact h

/-! ## An action keeps the invariant -/

/-- A permitted action leaves configured lines driven (R27). -/
theorem linesAfter_driven {a : PinAction} {s t : State} (hl : linesAfter a s t) (ht : t.cfg = true)
    (h : s.cfg = true → s.stb ≠ .z ∧ s.clk ≠ .z ∧ s.dio ≠ .z) : t.stb ≠ .z ∧ t.clk ≠ .z ∧ t.dio ≠ .z := by
  cases a with
  | configIdle =>
    obtain ⟨-, h1, h2, h3⟩ := hl
    rw [h1, h2, h3]
    decide
  | delayAtLeast n =>
    obtain ⟨h0, h1, h2, h3⟩ := hl
    rw [h1, h2, h3]
    exact h (h0 ▸ ht)
  | setPin p b =>
    obtain ⟨h0, h1, h2⟩ := hl
    obtain ⟨d1, d2, d3⟩ := h (h0 ▸ ht)
    have hq : ∀ q, s.line q ≠ .z := fun q => by cases q <;> assumption
    have hall : ∀ q, t.line q ≠ .z := fun q => by
      by_cases e : q = p
      · rw [e, h1]
        cases b <;> decide
      · rw [h2 q e]
        exact hq q
    exact ⟨hall .stb, hall .clk, hall .dio⟩

/-- A permitted action leaves an entry that meets the minimum, and on lines that are not configured it is ConfigIdle's
(R31, R194). -/
theorem records_permitted {a : PinAction} {e : TraceEntry} {w : Wire} (he : records a e) (h : permits a w) :
    meetsMinimum e ∧ (w.cfg = true ∨ e = .configIdle) := by
  rcases a with _ | ⟨_ | _ | _, b⟩ | t
  · rw [show e = .configIdle from he]
    exact ⟨trivial, .inr rfl⟩
  · rw [show e = .setPin .stb b from he]
    exact ⟨trivial, .inl h.1⟩
  · rw [show e = .setPin .clk b from he]
    exact ⟨trivial, .inl h.1⟩
  · rw [show e = .setPin .dio b from he]
    exact ⟨trivial, .inl h.1⟩
  · obtain ⟨d, hd, rfl⟩ := he
    exact ⟨⟨h.2, hd⟩, .inl h.1⟩

/-- In a run the next action is permitted, and the block that performs it is initialized and not stopped. -/
theorem RunInv.head {s : State} {m : SeqItem} {rest : List SeqItem} (h : RunInv s) (hs : s.seq = m :: rest) :
    ((wireOf s).transfer m.transfer).bit ≤ 8 ∧ permits m.act ((wireOf s).transfer m.transfer) ∧
      legalScript (((wireOf s).transfer m.transfer).act m.act) rest = true ∧
      s.busy = true ∧ s.initialized = true ∧ s.fault = .none ∧ s.refused = false := by
  have hscript := h.script
  rw [hs, legalScript_cons] at hscript
  obtain ⟨hbit, hper, hrest⟩ := hscript
  have hbusy : s.busy = true := h.busy_iff.2 (by simp [hs])
  have hstop := mt h.stopped_idle (by simp [hbusy])
  refine ⟨hbit, hper, hrest, hbusy, ?_, by_contra fun hf => hstop (.inl hf), ?_⟩
  · by_contra hi
    have := (h.before_init (by simpa using hi)).2
    simp [hs] at this
  · simpa using fun hf => hstop (.inr hf)

/-- A list whose discipline ends here leaves configured lines with STB and CLK high (R28). -/
theorem legalScript_nil_high {w : Wire} (h : legalScript w [] = true) (hc : w.cfg = true) :
    w.stb = .high ∧ w.clk = .high := by
  simpa [legalScript, hc] using h

/-- The act of the head keeps the invariant. -/
theorem RunInv.act {s : State} {m : SeqItem} {rest : List SeqItem} (h : RunInv s) (hs : s.seq = m :: rest) :
    RunInv (acted m.act (transferRegs m.transfer (s.withSeq rest))) := by
  obtain ⟨hbit, hper, hrest, -, hinit, hfault, hrefused⟩ := h.head hs
  obtain ⟨hseq, hbusy, hrx, finit, ffault, frefused, -⟩ := act_frame m rest s
  obtain ⟨hlines, -⟩ := act_effect m rest s
  obtain ⟨r, n, hx⟩ := transferRegs_frame m.transfer (s.withSeq rest)
  have hw : wireOf ((s.withSeq rest).withRegs r n) = (wireOf s).transfer m.transfer := by simp [← hx]
  rw [hx] at hseq hbusy hrx finit ffault frefused hlines ⊢
  rw [← hw] at hbit hper hrest
  obtain ⟨e, htrace, hrec⟩ := acted_trace m.act ((s.withSeq rest).withRegs r n)
  obtain ⟨hmin, hentry⟩ := records_permitted hrec hper
  have hopen := acted_open_iff hper (fun hc => (h.undriven hc).1) h.open_iff
  obtain ⟨hn, hram⟩ := acted_ranges m.act (s := (s.withSeq rest).withRegs r n) h.bits_lt h.ram_wf
  have hcfg := acted_cfg hper
  rw [← wireOf_acted] at hrest
  rw [show (wireOf ((s.withSeq rest).withRegs r n)).bit = _ from (acted_bit m.act _).symm] at hbit
  generalize acted m.act ((s.withSeq rest).withRegs r n) = t at *
  have hmem : .configIdle ∈ t.trace := by
    rw [htrace]
    rcases hentry with hc | rfl
    · have hs : s.cfg = true := hc
      have : .configIdle ∈ s.trace := not_not.1 (mt h.cfg_iff.2 (by simp [hs]))
      exact List.mem_append_left _ this
    · simp
  refine
    { rx_empty := hrx.trans h.rx_empty
      busy_iff := by simp [hbusy, hseq, busyWith]
      cfg_iff := by simp [hcfg, hmem]
      driven := fun _ => linesAfter_driven hlines hcfg h.driven
      stopped_idle := by simp [ffault, frefused, hfault, hrefused]
      idle_high := fun hb hc => ?_
      undriven := by simp [hcfg]
      before_init := by simp [finit, hinit]
      after_init := fun _ => .inl hcfg
      script := by rw [hseq]; exact hrest
      bit_le := hbit
      open_iff := hopen
      bits_lt := hn
      ram_wf := hram
      minima := ?_ }
  · obtain rfl : rest = [] := by simpa [hbusy, busyWith] using hb
    exact legalScript_nil_high hrest hc
  · rw [htrace]
    exact List.forall_mem_append.2 ⟨h.minima, by simpa using hmin⟩

/-! ## The other steps keep the invariant -/

theorem RunInv.hostPresent {s : State} (h : RunInv s) : RunInv (hostPresent s) := by
  obtain ⟨v, w, b, i, n, hp⟩ := hostPresent_frame s
  rw [hp]
  exact { h with }

theorem RunInv.consumeRequest {s : State} (h : RunInv s) : RunInv (consumeRequest s) := { h with }

theorem RunInv.raiseFault {s : State} (h : RunInv s) (c : FaultCode) (hb : s.busy = false) :
    RunInv (raiseFault c s) := { h with stopped_idle := fun _ => hb }

theorem RunInv.refuse {s : State} (h : RunInv s) (hb : s.busy = false) : RunInv (refuse s) :=
  { h with stopped_idle := fun _ => hb }

theorem RunInv.withResult {s : State} (h : RunInv s) (p : Byte) : RunInv (s.withResult p) := { h with }

/-- Between requests no action is left. -/
theorem RunInv.seq_nil {s : State} (h : RunInv s) (hb : s.busy = false) : s.seq = [] := by
  by_contra hq
  simp [h.busy_iff.2 hq] at hb

/-- Between requests an initialized block has its lines configured at STB and CLK high, and no frame is open
(R28, R107). -/
theorem RunInv.at_rest {s : State} (h : RunInv s) (hb : s.busy = false) (hi : s.initialized = true) :
    s.cfg = true ∧ s.stb = .high ∧ s.clk = .high ∧ s.obs.isOpen = false := by
  have hc : s.cfg = true := by
    rcases h.after_init hi with hc | ⟨rest, hq⟩
    · exact hc
    · simp [h.seq_nil hb] at hq
  obtain ⟨hs, hk⟩ := h.idle_high hb hc
  refine ⟨hc, hs, hk, ?_⟩
  have := (not_congr h.open_iff).2 (by simp [hs])
  simpa using this

/-- A driver request's list that keeps the discipline, started by a ready and initialized block, keeps the
invariant. -/
theorem RunInv.start {s : State} {q : List SeqItem} (h : RunInv s) (hb : s.busy = false)
    (hf : s.fault = .none) (hr : s.refused = false) (hi : s.initialized = true)
    (hq : legalScript (wireOf s) q = true) : RunInv (start q s) := by
  obtain ⟨hc, hs, hk, -⟩ := h.at_rest hb hi
  exact
    { h with
      busy_iff := by simp [Machine.start, busyWith]
      stopped_idle := by simp [Machine.start, hf, hr]
      idle_high := fun _ _ => ⟨hs, hk⟩
      before_init := by simp [Machine.start, hi]
      after_init := fun _ => .inl hc
      script := hq }

/-- ENCODE starts the empty list, which an idle block has already. -/
theorem start_nil_of_idle {s : State} (hq : s.seq = []) (hb : s.busy = false) : start [] s = s := by
  cases s
  simp only at hq hb
  subst hq hb
  rfl

/-- An INIT that is accepted keeps the invariant: its list configures the lines first (R105, R107). -/
theorem RunInv.startInit {s : State} (h : RunInv s) (hf : s.fault = .none) (hr : s.refused = false)
    (hi : s.initialized = false) : RunInv (Machine.start initActions s.withInitialized) := by
  obtain ⟨hc, -⟩ := h.before_init hi
  exact
    { h with
      busy_iff := by simp [Machine.start, busyWith, initActions]
      stopped_idle := by simp [Machine.start, hf, hr]
      idle_high := by simp [Machine.start, hc]
      before_init := by simp [Machine.start]
      after_init := fun _ => .inr ⟨_, rfl⟩
      script := legalScript_init hc h.bit_le }

/-- What a request's meaning makes of a ready block keeps the invariant. -/
theorem RunInv.exec {s t : State} {i : Instr} (h : RunInv s) (hb : s.busy = false) (hf : s.fault = .none)
    (hr : s.refused = false) (hi : i.isRequest = true) (he : Machine.exec i s = .next t) : RunInv t := by
  have ok : ∀ q, s.initialized = true → legalScript (wireOf s) q = true →
      Machine.exec i s = .next (Machine.start q s) → RunInv t := fun q hinit hq hx => by
    cases hx.symm.trans he
    exact h.start hb hf hr hinit hq
  rcases exec_request_cases hi s with ⟨c, -, hx⟩ | ⟨-, ⟨d, dot, p, -, -, hx⟩ | ⟨-, hinit, hx⟩ |
    ⟨hinit, ⟨v, -, hx⟩ | ⟨c, -, hx⟩ | ⟨a, v, -, hx⟩ | ⟨d1, d2, x, y, p1, p2, -, -, -, hx⟩⟩⟩
  · cases hx.symm.trans he
    exact h.raiseFault c hb
  · cases hx.symm.trans he
    rw [start_nil_of_idle (s := s.withResult p) (h.seq_nil hb) hb]
    exact h.withResult p
  · cases hx.symm.trans he
    exact h.startInit hf hr hinit
  all_goals obtain ⟨hc, hs, hk, -⟩ := h.at_rest hb hinit
  · exact ok _ hinit (legalScript_byte_alone v hc hs hk) hx
  · exact ok _ hinit (legalScript_frame_alone [c] hc hs hk h.bit_le) hx
  · exact ok _ hinit (legalScript_frame_alone [addressByte a, v] hc hs hk h.bit_le) hx
  · exact ok _ hinit (legalScript_render p1 p2 hc hs hk h.bit_le) hx

/-! ## What a step can do -/

/-- The step from `s` to `t` is the act of the head of the list, after the host's turn (R33). -/
def performsHead (s t : State) : Prop :=
  ∃ m rest, s.busy = true ∧ s.seq = m :: rest ∧
    t = acted m.act (transferRegs m.transfer ((hostPresent s).withSeq rest))

/-- In the step from `s` to `t` a ready block takes the request at its port after the host's turn: a word that the
decoder rejects is refused, any other runs (R33, R73). -/
def takesRequest (s t : State) : Prop :=
  (hostPresent s).accepts = true ∧ s.busy = false ∧ s.fault = .none ∧ s.refused = false ∧
    ((∃ r, decodeRequest (hostPresent s).reqWord = .error r ∧ t = refuse (consumeRequest (hostPresent s))) ∨
      ∃ i, decodeRequest (hostPresent s).reqWord = .ok i ∧ exec i (consumeRequest (hostPresent s)) = .next t)

/-- A step from a state with no frame waiting performs the head of the list, or takes a request, or is the host's turn
and nothing more. -/
theorem step_outcomes {s t : State} (hr : s.rx = []) (h : step s = .next t) :
    performsHead s t ∨ takesRequest s t ∨ t = hostPresent s := by
  have hp := sameBlock_hostPresent s
  rcases step_cases hr h with ⟨hb, hq⟩ | ⟨hb, hf, hn, hv, hd⟩ | ⟨-, -, ht⟩
  · rcases hs : s.seq with _ | ⟨m, rest⟩
    · rw [sequencerStep_nil (hp.rx.trans hr) (hp.seq.trans hs)] at hq
      cases hq
      exact .inr (.inr rfl)
    · cases (step_busy hr hb hs).symm.trans h
      exact .inl ⟨m, rest, hb, hs, rfl⟩
  · refine .inr (.inl ⟨?_, hb, hf, hn, hd⟩)
    simp [State.accepts, State.reqReady, hv, hp.busy, hp.fault, hp.refused, hb, hf, hn]
  · exact .inr (.inr ht)

/-- The invariant is kept by every step. -/
theorem RunInv.step {s t : State} (h : RunInv s) (hst : Machine.step s = .next t) : RunInv t := by
  have hp := sameBlock_hostPresent s
  rcases step_outcomes h.rx_empty hst with ⟨m, rest, -, hs, rfl⟩ |
    ⟨-, hb, hf, hr, ⟨r, -, rfl⟩ | ⟨i, hd, he⟩⟩ | rfl
  · exact h.hostPresent.act (hp.seq.trans hs)
  · exact h.hostPresent.consumeRequest.refuse (hp.busy.trans hb)
  · exact h.hostPresent.consumeRequest.exec (hp.busy.trans hb) (hp.fault.trans hf) (hp.refused.trans hr)
      (decodeRequest_isRequest hd) he
  · exact h.hostPresent

/-- Settles O43: a step is the act of the head, an acceptance or the host's turn (`step_outcomes`), and each keeps the
invariant. -/
theorem invKept : Obligations.InvKept := fun _ _ h hst => h.step hst

/-- Settles O42, field by field. -/
theorem invAtReset : Obligations.InvAtReset where
  rx_empty := rfl
  busy_iff := by decide
  cfg_iff := by decide
  driven := by decide
  stopped_idle := by decide
  idle_high := by decide
  undriven := by decide
  before_init := by decide
  after_init := by simp [State.reset]
  script := by decide
  bit_le := by decide
  open_iff := by decide
  bits_lt := by decide
  ram_wf := by decide
  minima := by simp [State.reset]

end Sys2Proof
end

section
/-! PROOFS. What one step does to the lines, the trace, the flags and the result, from what a step can do
(`step_outcomes`), what an act does (`act_effect`) and what an acceptance leaves unchanged (`exec_request_frame`). -/

namespace Sys2Proof

open Machine

/-! ## An acceptance -/

/-- A request's next state is a fault's or an acceptance's (`exec_next_cases` without the bus bytes). -/
theorem exec_request_next_cases {i : Instr} {s t : State} (hi : i.isRequest = true) (he : exec i s = .next t) :
    (∃ c, contractFault s.initialized i = some c ∧ t = raiseFault c s) ∨
      contractFault s.initialized i = none ∧ t.fault = s.fault ∧ t.refused = s.refused ∧ t.busy = busyWith t.seq ∧
        t = { s with seq := t.seq, busy := t.busy, initialized := t.initialized, result := t.result } ∧
        (i ≠ .init → t.initialized = s.initialized) ∧ ((∀ d dot, i ≠ .encode d dot) → t.result = s.result) := by
  rcases exec_next_cases he with ⟨hb, -⟩ | ⟨-, h⟩
  · cases i <;> simp [Instr.isRequest, Instr.isBusByte, Instr.place] at hi hb
  · exact h

/-- A request's meaning changes the list, the flags and the result alone (R33, R171). -/
theorem exec_request_frame {i : Instr} {s t : State} (hi : i.isRequest = true) (he : exec i s = .next t) :
    t = { s with seq := t.seq, busy := t.busy, fault := t.fault, initialized := t.initialized,
                 result := t.result } := by
  rcases exec_request_next_cases hi he with ⟨c, -, rfl⟩ | ⟨-, hf, -, -, ht, -⟩
  · rfl
  · rw [hf]
    exact ht

/-- Settles O53: the frame of a request, and which field each outcome of it may change (`exec_request_next_cases`). -/
theorem requestFrame : Obligations.RequestFrame := by
  intro i s t hi he
  have hframe := exec_request_frame hi he
  refine ⟨hframe, ?_⟩
  have hdev : t.dev = s.dev := by rw [hframe]
  rw [hdev]
  rcases exec_request_next_cases hi he with ⟨c, -, rfl⟩ | ⟨-, hf, -, -, -, hinit, hres⟩
  · exact ⟨fun _ => rfl, fun _ => rfl, .inr ⟨rfl, rfl, rfl, rfl⟩, fun _ => rfl⟩
  · exact ⟨hinit, hres, .inl hf, fun _ => rfl⟩

/-- Settles O29, with the acceptance that `step_of_ready` gives. -/
theorem stepRunsRequest : Obligations.StepRunsRequest := by
  have run : ∀ s i, ready s → (hostPresent s).reqValid = true → decodeRequest (hostPresent s).reqWord = .ok i →
      step s = exec i { hostPresent s with reqValid := false } := fun s i hs hv hd => by
    rw [step_of_ready hs hv, acceptRequest, hd]
    rfl
  refine ⟨run, fun s i hs hv hd => ?_⟩
  have hp : hostPresent s = s := hostPresent_of_valid hv
  simpa only [hp] using run s i hs (hp.symm ▸ hv) (hp.symm ▸ hd)

theorem whenReservedZero_error {ok : Bool} {i : Instr} {r : Reject} (h : whenReservedZero ok i = .error r) :
    ok = false := by
  cases ok
  · rfl
  · cases h

/-- A word that the decoder rejects is reserved (R73). -/
theorem reservedWord_of_decodeRequest_error {w : ReqWord} {r : Reject} (h : decodeRequest w = .error r) :
    reservedWord w := by
  have unlisted : ∀ op : BitVec 3, op ≠ 0 → op ≠ 1 → op ≠ 2 → op ≠ 3 → op ≠ 4 → op ≠ 5 → op = 6 ∨ op = 7 := by
    decide
  by_cases hr : reqRsv w = 0
  · simp only [decodeRequest, hr, beq_self_eq_true, Bool.true_and] at h
    split_ifs at h with h0 h1 h2 h3 h4 h5
    case neg =>
      rcases unlisted _ h0 h1 h2 h3 h4 h5 with h6 | h7
      · exact .inl h6
      · exact .inr (.inl h7)
    all_goals have hz := whenReservedZero_error h
    · exact .inr (.inr (.inr (.inl ⟨h0, not_and_or.1 (by simpa using hz)⟩)))
    · exact .inr (.inr (.inr (.inr (.inl ⟨h1, not_and_or.1 (by simpa using hz)⟩))))
    · exact .inr (.inr (.inr (.inr (.inr (.inl ⟨.inl h2, by simpa using hz⟩)))))
    · exact .inr (.inr (.inr (.inr (.inr (.inl ⟨.inr h3, by simpa using hz⟩)))))
    · cases hz
    · exact .inr (.inr (.inr (.inr (.inr (.inr ⟨h5, by simpa using hz⟩)))))
  · exact .inr (.inr (.inl hr))

/-! ## One step of the sequencer -/

theorem linesAfter_hostPresent (a : PinAction) (s t : State) :
    linesAfter a (hostPresent s) t ↔ linesAfter a s t := by
  obtain ⟨v, w, b, i, n, hp⟩ := hostPresent_frame s
  rw [hp]
  cases a <;> exact Iff.rfl

theorem registersAfter_hostPresent (x : Transfer) (s t : State) :
    registersAfter x (hostPresent s) t ↔ registersAfter x s t := by
  obtain ⟨v, w, b, i, n, hp⟩ := hostPresent_frame s
  rw [hp]
  cases x <;> exact Iff.rfl

theorem sameFlags_hostPresent (s t : State) : sameFlags (hostPresent s) t ↔ sameFlags s t := by
  obtain ⟨v, w, b, i, n, hp⟩ := hostPresent_frame s
  rw [hp]
  exact Iff.rfl

theorem hostPresent_trace (s : State) : (hostPresent s).trace = s.trace := by
  obtain ⟨v, w, b, i, n, hp⟩ := hostPresent_frame s
  rw [hp]

theorem transferRegs_withSeq_trace (x : Transfer) (q : List SeqItem) (s : State) :
    (transferRegs x (s.withSeq q)).trace = s.trace := by
  obtain ⟨r, n, h⟩ := transferRegs_frame x (s.withSeq q)
  rw [h]
  rfl

/-- The act of a head appends its one entry to the trace. -/
theorem act_trace (m : SeqItem) (rest : List SeqItem) (s : State) :
    ∃ e, (acted m.act (transferRegs m.transfer (s.withSeq rest))).trace = s.trace ++ [e] ∧ records m.act e := by
  obtain ⟨e, ht, he⟩ := acted_trace m.act (transferRegs m.transfer (s.withSeq rest))
  rw [transferRegs_withSeq_trace] at ht
  exact ⟨e, ht, he⟩

/-- The act of a head leaves the port alone. -/
theorem act_port (m : SeqItem) (rest : List SeqItem) (s : State) :
    (acted m.act (transferRegs m.transfer (s.withSeq rest))).reqValid = s.reqValid ∧
      (acted m.act (transferRegs m.transfer (s.withSeq rest))).reqWord = s.reqWord := by
  obtain ⟨hv, hw, -⟩ := acted_host m.act (transferRegs m.transfer (s.withSeq rest))
  obtain ⟨r, n, hx⟩ := transferRegs_frame m.transfer (s.withSeq rest)
  rw [hv, hw, hx]
  exact ⟨rfl, rfl⟩

/-- Settles O32: a busy step is the act of its head after the host's turn (`step_busy`), whose parts are `act_frame`,
`act_effect`, `act_trace` and `act_port`. -/
theorem sequencerStep : Obligations.SequencerStep := by
  intro s m rest hr hb hs
  obtain ⟨hseq, hbusy, -, hflags⟩ := act_frame m rest (hostPresent s)
  obtain ⟨hlines, hregs⟩ := act_effect m rest (hostPresent s)
  obtain ⟨e, htrace, hrec⟩ := act_trace m rest (hostPresent s)
  rw [hostPresent_trace] at htrace
  refine ⟨_, e, step_busy hr hb hs, hseq, by simp [hbusy, busyWith], htrace, hrec,
    (linesAfter_hostPresent _ _ _).1 hlines, (registersAfter_hostPresent _ _ _).1 hregs,
    (sameFlags_hostPresent _ _).1 hflags, fun hv => ?_⟩
  rw [hostPresent_of_valid hv]
  exact ⟨(act_port m rest s).1.trans hv, (act_port m rest s).2⟩

/-! ## The lines and the trace along a step -/

/-- A step that is no act of the sequencer leaves the lines and the trace alone. -/
theorem step_performs_or_lines_kept {s t : State} (hr : s.rx = []) (h : step s = .next t) :
    performsHead s t ∨
      t.cfg = s.cfg ∧ t.trace = s.trace ∧ ∀ p, t.line p = s.line p := by
  obtain ⟨v, w, b, j, n, hp⟩ := hostPresent_frame s
  rcases step_outcomes hr h with hact | ⟨-, -, -, -, ⟨r, -, rfl⟩ | ⟨i, hd, he⟩⟩ | rfl
  · exact .inl hact
  · rw [hp]
    exact .inr ⟨rfl, rfl, fun p => rfl⟩
  · rw [exec_request_frame (decodeRequest_isRequest hd) he, hp]
    exact .inr ⟨rfl, rfl, fun p => rfl⟩
  · rw [hp]
    exact .inr ⟨rfl, rfl, fun p => rfl⟩

/-- Settles O33: an act appends its own entry, and every other step keeps the trace. -/
theorem traceOnlyGrows : Obligations.TraceOnlyGrows := by
  intro s t hr h
  rcases step_performs_or_lines_kept hr h with ⟨m, rest, hb, hs, rfl⟩ | ⟨-, htrace, -⟩
  · obtain ⟨e, htrace, hrec⟩ := act_trace m rest (hostPresent s)
    rw [hostPresent_trace] at htrace
    exact .inr ⟨hb, m, rest, e, hs, hrec, htrace⟩
  · exact .inl htrace

/-- In a run a step either performs a permitted action on the lines or leaves them alone. -/
theorem RunInv.step_lines {s t : State} (h : RunInv s) (hst : Machine.step s = .next t) :
    (∃ m rest, s.seq = m :: rest ∧ permits m.act ((wireOf s).transfer m.transfer) ∧ linesAfter m.act s t) ∨
      t.cfg = s.cfg ∧ ∀ p, t.line p = s.line p := by
  rcases step_performs_or_lines_kept h.rx_empty hst with ⟨m, rest, -, hs, rfl⟩ | ⟨hcfg, -, hline⟩
  · obtain ⟨-, hper, -⟩ := h.head hs
    exact .inl ⟨m, rest, hs, hper, (linesAfter_hostPresent _ _ _).1 (act_effect m rest (Machine.hostPresent s)).1⟩
  · exact .inr ⟨hcfg, hline⟩

/-- On configured lines a permitted action keeps them configured, and moves a line only by SetPin (R27). -/
theorem linesAfter_permitted {a : PinAction} {w : Wire} {s t : State} (hl : linesAfter a s t) (hper : permits a w)
    (hc : w.cfg = true) :
    t.cfg = s.cfg ∧ ∀ p, t.line p ≠ s.line p → ∃ b, a = .setPin p b ∧ t.line p = Level.ofBit b := by
  cases a with
  | configIdle => simp [permits, hc] at hper
  | delayAtLeast n =>
    obtain ⟨hcfg, hstb, hclk, hdio⟩ := hl
    exact ⟨hcfg, fun p hp => by cases p <;> contradiction⟩
  | setPin q b =>
    obtain ⟨hcfg, hq, hrest⟩ := hl
    refine ⟨hcfg, fun p hp => ?_⟩
    obtain rfl : p = q := by_contra fun hne => hp (hrest p hne)
    exact ⟨b, rfl, hq⟩

/-- In a run on configured lines a step keeps them configured, and a line moves only by the permitted SetPin at the head
of the list, which leaves the other lines alone (R27). -/
theorem RunInv.line_moves {s t : State} (h : RunInv s) (hst : Machine.step s = .next t) (hc : s.cfg = true) :
    t.cfg = true ∧ ∀ p, t.line p ≠ s.line p → ∃ b x rest, s.seq = ⟨.setPin p b, x⟩ :: rest ∧
      t.line p = Level.ofBit b ∧ permits (.setPin p b) ((wireOf s).transfer x) ∧
        ∀ q, q ≠ p → t.line q = s.line q := by
  rcases h.step_lines hst with ⟨⟨a, x⟩, rest, hs, hper, hl⟩ | ⟨hcfg, hline⟩
  · obtain ⟨hcfg, hmove⟩ := linesAfter_permitted hl hper (by simpa using hc)
    refine ⟨hcfg.trans hc, fun p hp => ?_⟩
    obtain ⟨b, rfl, hb⟩ := hmove p hp
    exact ⟨b, x, rest, hs, hb, hper, hl.2.2⟩
  · exact ⟨hcfg.trans hc, fun p hp => absurd (hline p) hp⟩

/-- Settles O37: Z before ConfigIdle is part of the invariant, ConfigIdle is the only permitted action before, and
afterwards only SetPin moves a line. -/
theorem linesOnlyBySetPin : Obligations.LinesOnlyBySetPin := by
  refine ⟨fun s h => h.undriven, fun s t h hst hc ht => ?_, fun s t h hst hc => ?_⟩
  · rcases h.step_lines hst with ⟨m, rest, -, hper, hl⟩ | ⟨hcfg, -⟩
    · rw [eq_configIdle_of_permits hper (by simpa using hc)] at hl
      exact hl.2
    · simp [hcfg, hc] at ht
  · obtain ⟨ht, hmove⟩ := h.line_moves hst hc
    obtain ⟨hstb, hclk, hdio⟩ := (h.step hst).driven ht
    refine ⟨ht, hstb, hclk, hdio, fun p hp => ?_⟩
    obtain ⟨b, x, rest, hs, hb, -⟩ := hmove p hp
    exact ⟨b, x, rest, hs, hb⟩

/-- Settles O39: a SetPin of DIO is permitted only with CLK low and at the bit `sr[0]`, and it leaves CLK alone. -/
theorem dataMovesAtClockLow : Obligations.DataMovesAtClockLow := by
  refine ⟨fun s b rest h hs => ?_, fun s t h hst hc hd => ?_⟩
  · obtain ⟨-, ⟨-, hclk, hb⟩, -⟩ := h.head hs
    exact ⟨hclk, hb⟩
  · obtain ⟨b, x, rest, -, -, ⟨-, hclk, -⟩, hother⟩ := (h.line_moves hst hc).2 .dio hd
    rw [Wire.transfer_clk] at hclk
    exact ⟨hclk, (hother .clk (by decide)).trans hclk⟩

/-! ## The flags and the result along a step -/

/-- A step that accepts no request keeps the flags and the result, but for `busy` in an act of the sequencer. -/
theorem step_takes_or_flags_kept {s t : State} (hr : s.rx = []) (h : step s = .next t) :
    takesRequest s t ∨
      sameFlags s t ∧
        (t.busy = s.busy ∨ s.busy = true ∧ ∃ m rest, s.seq = m :: rest ∧ t.busy = busyWith rest) := by
  rcases step_outcomes hr h with ⟨m, rest, hb, hs, rfl⟩ | hacc | rfl
  · obtain ⟨-, hbusy, -, hflags⟩ := act_frame m rest (hostPresent s)
    exact .inr ⟨(sameFlags_hostPresent _ _).1 hflags, .inr ⟨hb, m, rest, hs, hbusy⟩⟩
  · exact .inl hacc
  · have hp := sameBlock_hostPresent s
    exact .inr ⟨⟨hp.initialized, hp.fault, hp.refused, hp.result⟩, .inl hp.busy⟩

/-- INIT is accepted only by a block that is not initialized, and sets the flag (R105, R175). -/
theorem initialized_of_accepted {i : Instr} {s t : State} (he : exec i s = .next t)
    (hc : contractFault s.initialized i = none) (hkeep : i ≠ .init → t.initialized = s.initialized) :
    t.initialized = s.initialized ∨ i = .init ∧ s.initialized = false ∧ t.initialized = true := by
  by_cases hi : i = .init
  · subst hi
    have hs : s.initialized = false := by simpa [contractFault] using hc
    cases (exec_init hs).symm.trans he
    exact .inr ⟨rfl, hs, rfl⟩
  · exact .inl (hkeep hi)

/-- Settles O35: an act keeps every flag but `busy`, a rejected word sets `refused` alone, and an acceptance is a fault
or starts a list (`exec_request_next_cases`). -/
theorem statusFlags : Obligations.StatusFlags := by
  intro s t h hst
  have hp := sameBlock_hostPresent s
  rcases step_takes_or_flags_kept h.rx_empty hst with
    ⟨hacc, hb, hf, hn, ⟨r, hd, rfl⟩ | ⟨i, hd, he⟩⟩ | ⟨⟨hinit, hfault, hrefused, -⟩, hbusy⟩
  · have hinit : (refuse (consumeRequest (hostPresent s))).initialized = s.initialized := hp.initialized
    have hbusy : (refuse (consumeRequest (hostPresent s))).busy = s.busy := hp.busy
    have hfault : (refuse (consumeRequest (hostPresent s))).fault = s.fault := hp.fault
    simp +contextual [hinit, hbusy, hfault, hb, hf, hn, hacc, reservedWord_of_decodeRequest_error hd]
  · have hu : (consumeRequest (hostPresent s)).initialized = s.initialized := hp.initialized
    rcases exec_request_next_cases (decodeRequest_isRequest hd) he with
      ⟨c, hc, rfl⟩ | ⟨hc, hfault, hrefused, hbusy, -, hkeep, -⟩
    · have hinit : (raiseFault c (consumeRequest (hostPresent s))).initialized = s.initialized := hp.initialized
      have hbusy : (raiseFault c (consumeRequest (hostPresent s))).busy = s.busy := hp.busy
      have hrefused : (raiseFault c (consumeRequest (hostPresent s))).refused = s.refused := hp.refused
      have hfault : (raiseFault c (consumeRequest (hostPresent s))).fault = c := rfl
      simp +contextual [hinit, hbusy, hrefused, hfault, hb, hf, hn, hacc, hd, ← hu, hc]
    · have hfault : t.fault = s.fault := hfault.trans hp.fault
      have hrefused : t.refused = s.refused := hrefused.trans hp.refused
      have hinit := initialized_of_accepted he hc hkeep
      rw [hu] at hinit
      have hrise : t.busy = true → t.seq ≠ [] := by simp [hbusy, busyWith]
      rcases hinit with hinit | ⟨rfl, hinit, ht⟩
      · simp +contextual [hinit, hfault, hrefused, hb, hf, hn, hacc, hrise]
      · simp +contextual [hinit, ht, hfault, hrefused, hb, hf, hn, hacc, hd, hrise]
  · rcases hbusy with hbusy | ⟨hb, m, rest, hs, hbusy⟩
    · simp +contextual [hinit, hfault, hrefused, hbusy]
    · simp +contextual [hinit, hfault, hrefused, hbusy, hb, hs, busyWith]

/-- Settles O36: a step that changes the result is an acceptance, of an ENCODE (`requestFrame`) whose digit is in
range. -/
theorem resultOnlyByEncode : Obligations.ResultOnlyByEncode := by
  refine ⟨rfl, fun s d dot p hp => ⟨_, exec_encode s hp, rfl⟩, fun s t hr hst hne => ?_, fun s hs => ?_,
    fun s v hs => ?_⟩
  · have hp := sameBlock_hostPresent s
    rcases step_takes_or_flags_kept hr hst with
      ⟨hacc, -, -, -, ⟨r, -, rfl⟩ | ⟨i, hd, he⟩⟩ | ⟨⟨-, -, -, hres⟩, -⟩
    · exact absurd hp.result hne
    · refine ⟨hacc, ?_⟩
      obtain ⟨-, -, hkeep, -⟩ := requestFrame i _ _ (decodeRequest_isRequest hd) he
      obtain ⟨d, dot, rfl⟩ : ∃ d dot, i = .encode d dot := by
        by_contra hi
        exact hne ((hkeep fun d dot e => hi ⟨d, dot, e⟩).trans hp.result)
      rcases enc_cases d dot with ⟨hrange, -⟩ | ⟨-, p, henc⟩
      · cases (exec_encode_fault dot _ hrange).symm.trans he
        exact absurd hp.result hne
      · cases (exec_encode _ henc).symm.trans he
        exact ⟨d, dot, p, hd, henc, rfl⟩
    · exact absurd hres hne
  · simp [readResult, hs]
  · simp [readResult, hs]

/-- Settles O41: each value is read off the definition. -/
theorem resetState : Obligations.ResetState :=
  ⟨rfl, rfl, rfl, rfl, rfl, rfl, rfl, rfl, rfl, rfl, rfl, rfl, fun _ => rfl, rfl, rfl, rfl, rfl, rfl, rfl, rfl, rfl,
    rfl, rfl, rfl, rfl⟩

end Sys2Proof
end

section
/-! PROOFS. Whole runs: the registers and the lines after some bits of a byte (R108), and after each request's last
action (R28, R115), from the acts of a request's list (`runFirst`). -/

namespace Sys2Proof

open Machine

/-! ## Some bits of a byte -/

theorem bitsFrom_add (a b : Nat) (sr : Byte) : bitsFrom (a + b) sr = bitsFrom a sr ++ bitsFrom b (sr >>> a) := by
  induction a generalizing sr with
  | zero => simp [bitsFrom]
  | succ a ih =>
    rw [show a + 1 + b = a + b + 1 by omega, bitsFrom, ih, bitsFrom, List.append_assoc, ← BitVec.shiftRight_add,
      Nat.add_comm 1 a]

theorem bitsFrom_length (k : Nat) (sr : Byte) : (bitsFrom k sr).length = 6 * k := by
  induction k generalizing sr with
  | zero => rfl
  | succ k ih =>
    simp [bitsFrom, ih, bitActions]
    omega

/-- The actions of the first `k` bits of a byte, for `k` from 1 on. -/
def firstBits (k : Nat) (v : Byte) : List SeqItem := bitActions (.load v) v ++ bitsFrom (k - 1) (v >>> 1)

theorem firstBits_length {k : Nat} (v : Byte) (hk : 1 ≤ k) : (firstBits k v).length = 6 * k := by
  simp [firstBits, bitsFrom_length, bitActions]
  omega

/-- A byte's list cut after its first `k` bits. -/
theorem byteActions_eq_firstBits {k : Nat} (v : Byte) (h1 : 1 ≤ k) (h8 : k ≤ 8) :
    byteActions v = firstBits k v ++ bitsFrom (8 - k) (v >>> k) := by
  obtain ⟨j, rfl⟩ := Nat.exists_eq_add_of_le h1
  have hj : 7 = (1 + j - 1) + (8 - (1 + j)) := by omega
  rw [firstBits, byteActions, List.append_assoc]
  nth_rw 1 [hj]
  rw [bitsFrom_add, ← BitVec.shiftRight_add, Nat.add_sub_cancel_left]

/-- The acts of the first `k` bits of a byte: `k` bits, the register loaded first (R108). -/
theorem runFirst_firstBits {k : Nat} (v : Byte) (rest : List SeqItem) (s : State) (hk : 1 ≤ k) :
    SameBlock (runFirst (firstBits k v) rest s) (bitsEffect k v ((s.withSeq rest).withRegs v 0)) := by
  obtain ⟨j, rfl⟩ := Nat.exists_eq_add_of_le' hk
  rw [firstBits, Nat.add_sub_cancel, runFirst_append, bitsEffect]
  have hbit := runFirst_bit (.load v) v (bitsFrom j (v >>> 1) ++ rest) s
  rw [show transferRegs (.load v) (s.withSeq (bitsFrom j (v >>> 1) ++ rest)) =
    (s.withRegs v 0).withSeq (bitsFrom j (v >>> 1) ++ rest) from rfl, ← bitEffect_withSeq] at hbit
  refine (sameBlock_runFirst _ _ hbit).trans ((runFirst_bits j (v >>> 1) rest _ rfl rfl).trans ?_)
  refine sameBlock_bits _ _ ?_
  show SameBlock ((bitEffect _ _).withSeq rest) _
  rw [bitEffect_withSeq]
  exact SameBlock.refl _

/-- Bits leave STB alone (R110). -/
theorem bitsEffect_stb (k : Nat) (sr : Byte) (s : State) : (bitsEffect k sr s).stb = s.stb := by
  induction k generalizing sr s with
  | zero => rfl
  | succ k ih =>
    rw [bitsEffect, ih, bitEffect]
    rcases clockRise_cases { transferRegs .shift s with clk := .high, dio := Level.ofBit (sr.getLsbD 0) } with
      ⟨-, h⟩ | ⟨-, h⟩ <;> rw [h] <;> rfl

/-- Settles O47: the steps of the first `k` bits are the acts of their list, which `bitsEffect_lines` computes. -/
theorem registersAlongByte : Obligations.RegistersAlongByte := by
  intro s v rest k hr hb hs h1 h8
  have hcut : s.seq = firstBits k v ++ (bitsFrom (8 - k) (v >>> k) ++ rest) := by
    rw [hs, byteActions_eq_firstBits v h1 h8, List.append_assoc]
  have hbusy : s.busy = busyWith s.seq := by
    rw [hb, hs]
    rfl
  obtain ⟨u, hu, hsame⟩ := steps_sameBlock (firstBits k v) _ s hr hcut hbusy
  rw [firstBits_length v h1] at hu
  have hrun := hsame.trans (runFirst_firstBits v _ s h1)
  obtain ⟨hsr, hbit, hlines⟩ := bitsEffect_lines k v
    ((s.withSeq (bitsFrom (8 - k) (v >>> k) ++ rest)).withRegs v 0) rfl
  obtain ⟨hclk, hdio⟩ := hlines h1
  exact ⟨u, hu, hrun.sr.trans hsr, hrun.bit.trans (hbit.trans (Nat.zero_add k)), hrun.clk.trans hclk,
    hrun.dio.trans hdio, hrun.stb.trans (bitsEffect_stb _ _ _)⟩

/-! ## After a request's last action -/

/-- The lines and the registers when the byte `b` was the last one sent: STB and CLK high, DIO at its bit 7, the shift
register empty, the counter at 8. -/
def RestsAfter (b : Byte) (u : State) : Prop :=
  u.stb = .high ∧ u.clk = .high ∧ u.dio = Level.ofBit (b.getLsbD 7) ∧ u.sr = 0#8 ∧ u.bit = 8

theorem RestsAfter.of_sameBlock {b : Byte} {s t : State} (h : RestsAfter b t) (hs : SameBlock s t) :
    RestsAfter b s := by
  obtain ⟨h1, h2, h3, h4, h5⟩ := h
  exact ⟨hs.stb.trans h1, hs.clk.trans h2, hs.dio.trans h3, hs.sr.trans h4, hs.bit.trans h5⟩

/-- A frame begun with STB high leaves the block resting after its last byte, and the lines configured as they were. -/
theorem runFirst_frame_rests (b : Byte) (bs : List Byte) (rest : List SeqItem) {s : State} (h : s.stb = .high) :
    RestsAfter ((b :: bs).getLast (List.cons_ne_nil b bs)) (runFirst (frameActions (b :: bs)) rest s) ∧
      (runFirst (frameActions (b :: bs)) rest s).cfg = s.cfg := by
  have hf := runFirst_frame b bs rest s h
  exact ⟨⟨hf.stb, hf.clk, hf.dio, hf.sr, hf.bit⟩, hf.cfg⟩

/-- A byte sent outside a frame with STB high leaves the block resting after it (R110). -/
theorem runFirst_byte_rests (v : Byte) (rest : List SeqItem) {s : State} (h : s.stb = .high)
    (ho : s.obs.isOpen = false) : RestsAfter v (runFirst (byteActions v) rest s) := by
  have hb := runFirst_byte_closed v rest s ho
  exact ⟨hb.stb.trans h, hb.clk, hb.dio, hb.sr, hb.bit⟩

/-- INIT's list leaves the lines configured and the block resting after the brightness command (R105). -/
theorem runFirst_init_rests (s : State) :
    RestsAfter Config.cmdBright (runFirst initActions [] s) ∧ (runFirst initActions [] s).cfg = true := by
  have hconfig := runFirst_config ((frameActions [Config.cmdMode] ++ frameActions [Config.cmdBright]) ++ []) s
  rw [show initActions = [configAction] ++ (frameActions [Config.cmdMode] ++ frameActions [Config.cmdBright]) from rfl,
    runFirst_append, runFirst_append]
  obtain ⟨⟨hstb, -⟩, hcfg⟩ := runFirst_frame_rests Config.cmdMode [] (frameActions [Config.cmdBright] ++ []) hconfig.stb
  obtain ⟨hrest, hcfg'⟩ := runFirst_frame_rests Config.cmdBright [] [] hstb
  exact ⟨hrest, hcfg'.trans (hcfg.trans hconfig.cfg)⟩

/-- DISPLAY_NUMBER's list leaves the block resting after the second pattern (R124). -/
theorem runFirst_render_rests (p1 p2 : Byte) {s : State} (h : s.stb = .high) :
    RestsAfter p2 (runFirst (renderActions p1 p2) [] s) := by
  rw [renderActions, runFirst_append, runFirst_append]
  obtain ⟨⟨h1, -⟩, -⟩ := runFirst_frame_rests Config.cmdMode [] _ h
  obtain ⟨⟨h2, -⟩, -⟩ := runFirst_frame_rests (addressByte Config.digit1Addr) [p1] _ h1
  exact (runFirst_frame_rests (addressByte Config.digit2Addr) [p2] [] h2).1

/-- A request that starts the list `q` completes, with the block that the acts of `q` give. -/
theorem completes_of_start {i : Instr} {s s' : State} {q : List SeqItem} (he : exec i s = .next (start q s'))
    (hr : s'.rx = []) : ∃ u, completes i s u ∧ SameBlock u (runFirst q [] (start q s')) := by
  obtain ⟨u, hu, hsame⟩ := steps_sameBlock q [] (start q s') hr (by simp [start]) rfl
  exact ⟨u, ⟨_, he, hu⟩, hsame⟩

theorem completes_rests {i : Instr} {s : State} {q : List SeqItem} {b : Byte} (he : exec i s = .next (start q s))
    (hr : s.rx = []) (hb : RestsAfter b (runFirst q [] (start q s))) : ∃ u, completes i s u ∧ RestsAfter b u := by
  obtain ⟨u, hu, hsame⟩ := completes_of_start he hr
  exact ⟨u, hu, hb.of_sameBlock hsame⟩

/-- The steps that perform the first `l` of a list append the entries of `l` to the trace, one each (R31). -/
theorem steps_trace (l rest : List SeqItem) (s : State) (hr : s.rx = []) (hs : s.seq = l ++ rest)
    (hb : s.busy = busyWith s.seq) :
    ∃ u es, steps l.length s = .next u ∧ u.trace = s.trace ++ es ∧
      List.Forall₂ (fun e m => records (SeqItem.act m) e) es l := by
  induction l generalizing s with
  | nil => exact ⟨s, [], rfl, by simp, .nil⟩
  | cons m l ih =>
    have hs' : s.seq = m :: (l ++ rest) := hs
    have hst := step_busy hr (by rw [hb, hs']; rfl) hs'
    obtain ⟨f1, f2, f3, -⟩ := act_frame m (l ++ rest) (hostPresent s)
    obtain ⟨e, he, hrec⟩ := act_trace m (l ++ rest) (hostPresent s)
    rw [hostPresent_trace] at he
    obtain ⟨u, es, hu, ht, hes⟩ := ih _ (f3.trans ((sameBlock_hostPresent s).rx.trans hr)) f1 (by rw [f2, f1])
    exact ⟨u, e :: es, by simp [steps, hst, hu], by rw [ht, he, List.append_assoc, List.singleton_append],
      .cons hrec hes⟩

/-- A list that ends with the strobe rise and the settle delay leaves their two entries last (R115). -/
theorem completes_last_entries {i : Instr} {s u : State} {pre : List SeqItem}
    (he : exec i s = .next (start (pre ++ [⟨.setPin .stb true, .keep⟩, settleWith .keep]) s)) (hr : s.rx = [])
    (hu : completes i s u) :
    ∃ old, ∃ d : Rat, 10 ≤ d ∧ u.trace = old ++ [.setPin .stb true, .delay 10 d] := by
  obtain ⟨t, ht, hsteps⟩ := hu
  cases he.symm.trans ht
  obtain ⟨u', es, hu', htrace, hes⟩ := steps_trace (pre ++ [⟨.setPin .stb true, .keep⟩, settleWith .keep]) []
    (start (pre ++ [⟨.setPin .stb true, .keep⟩, settleWith .keep]) s) hr (List.append_nil _).symm rfl
  cases hu'.symm.trans hsteps
  obtain ⟨rise, es', hrise, hrest, hdrop⟩ := List.forall₂_cons_right_iff.1 (List.forall₂_drop_append es pre _ hes)
  obtain ⟨delay, es'', ⟨d, hd, hdelay⟩, hnil, rfl⟩ := List.forall₂_cons_right_iff.1 hrest
  obtain rfl := List.forall₂_nil_right_iff.1 hnil
  obtain rfl : rise = .setPin .stb true := hrise
  obtain rfl : delay = .delay 10 d := hdelay
  refine ⟨s.trace ++ es.take pre.length, d, by exact_mod_cast hd, ?_⟩
  rw [htrace, List.append_assoc, ← hdrop, List.take_append_drop]
  rfl

/-- Settles O56: each request's list leaves the block at rest after its last byte, from a ready state of a run, whose
lines are at rest too. -/
theorem linesAfterRequest : Obligations.LinesAfterRequest := by
  refine ⟨fun s h hready hi => ?_, fun s h ⟨hr, hb, _, _⟩ hi => ?_⟩
  · obtain ⟨u, hu, hsame⟩ := completes_of_start (exec_init hi) h.rx_empty
    obtain ⟨hrest, hcfg⟩ := runFirst_init_rests (start initActions s.withInitialized)
    exact ⟨u, hu, hsame.cfg.trans hcfg, hrest.of_sameBlock hsame⟩
  · obtain ⟨-, hstb, -, hopen⟩ := h.at_rest hb hi
    refine ⟨fun v => completes_rests (exec_sendByte v hi) hr (runFirst_byte_rests v [] hstb hopen), fun c => ?_,
      fun a v => completes_rests (exec_sendData a v hi) hr (runFirst_frame_rests _ [v] [] hstb).1,
      fun d1 d2 dot1 dot2 p1 p2 h1 h2 =>
        completes_rests (exec_displayNumber hi h1 h2) hr (runFirst_render_rests p1 p2 hstb)⟩
    obtain ⟨u, hu, h1, h2, h3, h4, h5⟩ :=
      completes_rests (exec_sendCommand c hi) hr (runFirst_frame_rests c [] [] hstb).1
    exact ⟨u, hu, h1, h2, h3, h4, h5,
      completes_last_entries (pre := ⟨.setPin .stb false, .keep⟩ :: [c].flatMap byteActions)
        (exec_sendCommand c hi) hr hu⟩

end Sys2Proof
end

section
/-! PROOFS. Resending a frame (R61): the controller's effect of a documented frame, taken twice, is its effect taken
once. -/

namespace Sys2Proof.Machine

theorem busEffects_append (is js : List Instr) (d : Dev) :
    busEffects (is ++ js) d = busEffects js (busEffects is d) :=
  List.foldl_append

/-- Bus bytes whose effect is idempotent on the controller end in the same state when they are received twice. -/
theorem receiveAll_resend {is : List Instr} (h : ∀ i ∈ is, i.isBusByte = true)
    (hd : ∀ d, busEffects is (busEffects is d) = busEffects is d) (s : State) :
    ∃ t, receiveAll is s = .next t ∧ receiveAll (is ++ is) s = .next t := by
  refine ⟨_, receiveAll_busEffects h s, ?_⟩
  rw [receiveAll_busEffects (List.forall_mem_append.2 ⟨h, h⟩), busEffects_append, hd]

/-- An addressed write of one byte in the documented mode is stored at its address (R150, R151). -/
theorem Dev.setPtr_store_of_mode {d : Dev} (a : BitVec 4) (v : Byte) (h : d.mode = some .writeAutoinc) :
    (d.setPtr a).store v =
      { d with ram := Memory.write d.ram a.toNat v, ptr := some ⟨a.toNat + 1, by omega⟩ } :=
  Dev.store_of_ptr (d := d.setPtr a) (p := ptrOf a) v h rfl a.isLt

/-- Outside the documented mode it leaves nothing known (R153). -/
theorem Dev.setPtr_store_of_unknown {d : Dev} (a : BitVec 4) (v : Byte) (h : d.mode = none) :
    (d.setPtr a).store v = Dev.unknown :=
  Dev.store_havoc v (.inl h)

/-- A second write of the same byte goes to the same address, or again leaves nothing known. -/
theorem Dev.setPtr_store_resend (a : BitVec 4) (v : Byte) (d : Dev) :
    (((d.setPtr a).store v).setPtr a).store v = (d.setPtr a).store v := by
  rcases hm : d.mode with _ | ⟨⟩
  · rw [setPtr_store_of_unknown a v hm, setPtr_store_of_unknown a v rfl]
  · rw [setPtr_store_of_mode a v hm, setPtr_store_of_mode]
    · simp only [Memory.write_write_same]
    · exact hm

/-- Settles O52: each of the three frames has an idempotent effect on the controller. -/
theorem resendingIsIdempotent : Obligations.ResendingIsIdempotent :=
  ⟨receiveAll_resend (is := [.cmdMode]) (by decide) fun _ => rfl,
    fun s b => receiveAll_resend (is := [.cmdDisplayOn b]) (by simp [Instr.isBusByte, Instr.place]) (fun _ => rfl) s,
    fun s a v => receiveAll_resend (is := [.addr a, .data v]) (by simp [Instr.isBusByte, Instr.place])
      (Dev.setPtr_store_resend a v) s⟩

end Sys2Proof.Machine
end

section
/-! PROOFS. The lists of pin actions: the model's lists are those of R108 and R109, built from the six actions of a
bit, and what they drive DIO to (R56, R106, R119) and where they hold no delay (R66) follows bit by bit. -/

namespace Sys2Proof

open Machine

/-! ## The model's lists as R108 and R109 list them -/

/-- The six pin actions of one bit (R108). -/
def bitPins (b : Bool) : List PinAction :=
  [.setPin .clk false, .delayAtLeast 10, .setPin .dio b, .delayAtLeast 10, .setPin .clk true, .delayAtLeast 10]

theorem pinsOfByte_eq_bitPins (v : Byte) : pinsOfByte v = (List.range 8).flatMap fun i => bitPins (v.getLsbD i) := rfl

@[simp] theorem pins_append (p q : List SeqItem) : pins (p ++ q) = pins p ++ pins q := List.map_append

@[simp] theorem pins_bitActions (x : Transfer) (sr : Byte) : pins (bitActions x sr) = bitPins (sr.getLsbD 0) := rfl

theorem pins_bitsFrom (k : Nat) (sr : Byte) :
    pins (bitsFrom k sr) = (List.range k).flatMap fun i => bitPins (sr.getLsbD i) := by
  induction k generalizing sr with
  | zero => rfl
  | succ k ih =>
    rw [bitsFrom, pins_append, pins_bitActions, ih, List.range_succ_eq_map, List.flatMap_cons, List.flatMap_map]
    simp [Nat.add_comm]

theorem pins_byteActions (v : Byte) : pins (byteActions v) = pinsOfByte v := by
  calc pins (byteActions v) = pins (bitsFrom 8 v) := by simp only [byteActions, bitsFrom, pins_append, pins_bitActions]
    _ = pinsOfByte v := pins_bitsFrom 8 v

theorem pins_flatMap_byteActions (bytes : List Byte) :
    pins (bytes.flatMap byteActions) = bytes.flatMap pinsOfByte := by
  induction bytes with
  | nil => rfl
  | cons b bs ih => rw [List.flatMap_cons, pins_append, pins_byteActions, ih, List.flatMap_cons]

theorem pins_frameActions (bytes : List Byte) : pins (frameActions bytes) = pinsOfFrame bytes := by
  calc pins (frameActions bytes)
      = .setPin .stb false :: pins (bytes.flatMap byteActions ++ [⟨.setPin .stb true, .keep⟩, settleWith .keep]) := rfl
    _ = pinsOfFrame bytes := by
      rw [pins_append, pins_flatMap_byteActions]
      rfl

theorem pins_initActions : pins initActions = .configIdle :: (pinsOfFrame [0x40#8] ++ pinsOfFrame [0x8F#8]) := by
  rw [← pins_frameActions, ← pins_frameActions, ← pins_append]
  rfl

/-! ## The levels on DIO -/

@[simp] theorem dioBits_append (p q : List PinAction) : dioBits (p ++ q) = dioBits p ++ dioBits q := by
  induction p with
  | nil => rfl
  | cons a p ih =>
    rcases a with _ | ⟨_ | _ | _, b⟩ | t <;> simp [dioBits, ih]

@[simp] theorem dioBits_bitPins (b : Bool) : dioBits (bitPins b) = [b] := rfl

theorem dioBits_flatMap_bitPins (l : List Nat) (f : Nat → Bool) :
    dioBits (l.flatMap fun i => bitPins (f i)) = l.map f := by
  induction l with
  | nil => rfl
  | cons i l ih => rw [List.flatMap_cons, dioBits_append, dioBits_bitPins, ih, List.map_cons, List.singleton_append]

@[simp] theorem dioBits_pinsOfByte (v : Byte) : dioBits (pinsOfByte v) = (List.range 8).map fun i => v.getLsbD i :=
  dioBits_flatMap_bitPins _ _

/-- The strobe actions of a frame put nothing on DIO. -/
theorem dioBits_pinsOfFrame (bytes : List Byte) : dioBits (pinsOfFrame bytes) = dioBits (bytes.flatMap pinsOfByte) := by
  simp [pinsOfFrame, dioBits]

/-- Settles O14: a list drives DIO to the bits of its bytes, in the order in which it sends them. -/
theorem bitsOnDio : Obligations.BitsOnDio := by
  have hmode : dioBits (pinsOfFrame [0x40#8]) = [false, false, false, false, false, false, true, false] := by decide
  have hbright : dioBits (pinsOfFrame [0x8F#8]) = [true, true, true, true, false, false, false, true] := by decide
  refine ⟨fun v => ?_, fun s hi => ⟨_, exec_init hi, ?_, pins_initActions, hmode, hbright⟩,
    fun s addr value hi => ⟨_, exec_sendData addr value hi, pins_frameActions _, ?_⟩, by decide, by decide⟩
  · rw [pins_byteActions, dioBits_pinsOfByte]
    simp
  · calc dioBits (pins initActions) = dioBits (pinsOfFrame [0x40#8] ++ pinsOfFrame [0x8F#8]) := by
          rw [pins_initActions, dioBits]
      _ = _ := by rw [dioBits_append, hmode, hbright]
  · calc dioBits (pins (dataActions addr value)) = dioBits ([addressByte addr, value].flatMap pinsOfByte) := by
          rw [dataActions, pins_frameActions, dioBits_pinsOfFrame]
      _ = _ := by simp only [List.flatMap_cons, List.flatMap_nil, List.append_nil, dioBits_append, dioBits_pinsOfByte]

/-! ## Consecutive actions without a delay -/

@[simp] theorem undelayedPairs_delay_cons (t : Nat) (l : List PinAction) :
    undelayedPairs (.delayAtLeast t :: l) = undelayedPairs l := by
  cases l <;> simp [undelayedPairs, isDelay]

@[simp] theorem undelayedPairs_cons_delay (a : PinAction) (t : Nat) (l : List PinAction) :
    undelayedPairs (a :: .delayAtLeast t :: l) = undelayedPairs l := by
  simp [undelayedPairs, isDelay]

theorem undelayedPairs_cons_cons {a b : PinAction} (l : List PinAction) (ha : isDelay a = false)
    (hb : isDelay b = false) : undelayedPairs (a :: b :: l) = (a, b) :: undelayedPairs (b :: l) := by
  simp [undelayedPairs, ha, hb]

/-- Each phase of a bit ends with a delay, so a bit adds no pair, whatever follows it (R108). -/
theorem undelayedPairs_bitPins_append (b : Bool) (l : List PinAction) :
    undelayedPairs (bitPins b ++ l) = undelayedPairs l := by
  simp [bitPins]

theorem undelayedPairs_pinsOfByte_append (v : Byte) (l : List PinAction) :
    undelayedPairs (pinsOfByte v ++ l) = undelayedPairs l := by
  rw [pinsOfByte_eq_bitPins]
  induction List.range 8 with
  | nil => rfl
  | cons i is ih => rw [List.flatMap_cons, List.append_assoc, undelayedPairs_bitPins_append, ih]

theorem undelayedPairs_bytes_append (bytes : List Byte) (l : List PinAction) :
    undelayedPairs (bytes.flatMap pinsOfByte ++ l) = undelayedPairs l := by
  induction bytes with
  | nil => rfl
  | cons b bs ih => rw [List.flatMap_cons, List.append_assoc, undelayedPairs_pinsOfByte_append, ih]

/-- A byte's list begins with the first clock fall (R108). -/
theorem pinsOfByte_eq_cons (v : Byte) : ∃ l, pinsOfByte v = .setPin .clk false :: l := ⟨_, rfl⟩

/-- A frame of at least one byte adds one pair, its strobe fall with its first clock fall (R66, R109). -/
theorem undelayedPairs_pinsOfFrame_append {bytes : List Byte} (h : bytes ≠ []) (l : List PinAction) :
    undelayedPairs (pinsOfFrame bytes ++ l) = (.setPin .stb false, .setPin .clk false) :: undelayedPairs l := by
  obtain ⟨b, bs, rfl⟩ := List.exists_cons_of_ne_nil h
  obtain ⟨p, hp⟩ := pinsOfByte_eq_cons b
  have hbytes := undelayedPairs_bytes_append (b :: bs) (.setPin .stb true :: .delayAtLeast 10 :: l)
  rw [undelayedPairs_cons_delay, List.flatMap_cons, hp, List.append_assoc] at hbytes
  rw [pinsOfFrame, List.flatMap_cons, hp]
  simp only [List.append_assoc, List.cons_append, List.nil_append] at hbytes ⊢
  rw [undelayedPairs_cons_cons _ rfl rfl, hbytes]

theorem undelayedPairs_pinsOfFrame {bytes : List Byte} (h : bytes ≠ []) :
    undelayedPairs (pinsOfFrame bytes) = [(.setPin .stb false, .setPin .clk false)] := by
  simpa [undelayedPairs] using undelayedPairs_pinsOfFrame_append h []

/-- The pair of a ConfigIdle that a frame follows (R66, R105). -/
theorem undelayedPairs_config_frame (bytes : List Byte) (l : List PinAction) :
    undelayedPairs (.configIdle :: (pinsOfFrame bytes ++ l)) =
      (.configIdle, .setPin .stb false) :: undelayedPairs (pinsOfFrame bytes ++ l) :=
  undelayedPairs_cons_cons _ rfl rfl

/-- Settles O16: bits end with a delay, so the only pairs are those at the strobe fall of each frame. -/
theorem undelayedPairsOnly : Obligations.UndelayedPairsOnly := by
  refine ⟨fun v => ?_, fun bytes hb => ?_, ?_, fun p1 p2 => ?_⟩
  · rw [pins_byteActions]
    exact ⟨by simpa [undelayedPairs] using undelayedPairs_pinsOfByte_append v [], rfl⟩
  · rw [pins_frameActions]
    exact ⟨undelayedPairs_pinsOfFrame hb, by rw [pinsOfFrame, List.getLast?_append]; rfl⟩
  · rw [pins_initActions, undelayedPairs_config_frame, undelayedPairs_pinsOfFrame_append (by simp),
      undelayedPairs_pinsOfFrame (by simp)]
  · simp only [renderActions, pins_append, pins_frameActions, List.append_assoc]
    rw [undelayedPairs_pinsOfFrame_append (by simp), undelayedPairs_pinsOfFrame_append (by simp),
      undelayedPairs_pinsOfFrame (by simp)]

end Sys2Proof
end

section
/-! PROOFS. The encoding (R70 to R90). The operand fields of a request byte read back and determine it; from them
decoding and encoding are inverse. That a word selects a row of the opcode table (R74) is said of its fields, and with
`Laws.TableRow` it follows that the rows, the decoder and R73's reserved words agree. -/

namespace Sys2Proof

open Machine

/-! ## Operands packed into a byte -/

/-- ENCODE's operand B (R72): the fields read back. -/
theorem encodeOperand_fields : ∀ (digit : Digit) (dot : Bool),
    (0#3 ++ BitVec.ofBool dot ++ digit).extractLsb' 5 3 = 0#3 ∧
      (0#3 ++ BitVec.ofBool dot ++ digit).extractLsb' 0 4 = digit ∧
      (0#3 ++ BitVec.ofBool dot ++ digit)[4] = dot := by
  decide

/-- DISPLAY_NUMBER's operand A (R72): the fields read back. -/
theorem dotsOperand_fields : ∀ dot1 dot2 : Bool,
    (0#6 ++ BitVec.ofBool dot2 ++ BitVec.ofBool dot1).extractLsb' 2 6 = 0#6 ∧
      (0#6 ++ BitVec.ofBool dot2 ++ BitVec.ofBool dot1)[0] = dot1 ∧
      (0#6 ++ BitVec.ofBool dot2 ++ BitVec.ofBool dot1)[1] = dot2 := by
  decide

/-- DISPLAY_NUMBER's operand B (R72): the fields read back. -/
theorem digitsOperand_fields : ∀ d1 d2 : Digit,
    (d2 ++ d1).extractLsb' 0 4 = d1 ∧ (d2 ++ d1).extractLsb' 4 4 = d2 := by
  decide

theorem encodeOperand_of_fields : ∀ b : Byte, b.extractLsb' 5 3 = 0#3 →
    0#3 ++ BitVec.ofBool (b.getLsbD 4) ++ b.extractLsb' 0 4 = b := by
  decide

theorem dotsOperand_of_fields : ∀ a : Byte, a.extractLsb' 2 6 = 0#6 →
    0#6 ++ BitVec.ofBool (a.getLsbD 1) ++ BitVec.ofBool (a.getLsbD 0) = a := by
  decide

theorem digitsOperand_of_fields : ∀ b : Byte, b.extractLsb' 4 4 ++ b.extractLsb' 0 4 = b := by
  decide

/-! ## Decoding and encoding -/

@[simp] theorem whenReservedZero_true (i : Instr) : whenReservedZero true i = .ok i := rfl

theorem whenReservedZero_ok {ok : Bool} {i j : Instr} (h : whenReservedZero ok i = .ok j) : ok = true ∧ i = j := by
  cases ok
  · cases h
  · cases h
    exact ⟨rfl, rfl⟩

theorem decodeFirstByte_displayOn_append : ∀ b : BitVec 3, decodeFirstByte (0b10001#5 ++ b) = .ok (.cmdDisplayOn b) := by
  decide

/-- Settles O1: the fields of a request word read back (`reqOp_requestWord` and its companions), and so do the
operands packed into them. -/
theorem decodeOfEncode : Obligations.DecodeOfEncode := by
  intro i
  cases i with
  | encode digit dot =>
    obtain ⟨hrsv, hdigit, hdot⟩ := encodeOperand_fields digit dot
    simp [encode, decode, decodeRequest, hrsv, hdigit, hdot]
  | displayNumber d1 d2 dot1 dot2 =>
    obtain ⟨hrsv, hdot1, hdot2⟩ := dotsOperand_fields dot1 dot2
    obtain ⟨hd1, hd2⟩ := digitsOperand_fields d1 d2
    simp [encode, decode, decodeRequest, hrsv, hdot1, hdot2, hd1, hd2]
  | init => simp [encode, decode, decodeRequest]
  | sendByte value => simp [encode, decode, decodeRequest]
  | sendCommand cmd => simp [encode, decode, decodeRequest]
  | sendData addr value => simp [encode, decode, decodeRequest]
  | cmdMode => rfl
  | cmdDisplayOn brightness => exact decodeFirstByte_displayOn_append brightness
  | addr a => exact decodeFirstByte_addr a
  | data value => rfl

/-- A word whose reserved bits are 0 is put together from its fields, in the form the encoder uses. -/
theorem request_requestWord_of_fields {w : ReqWord} {op : BitVec 3} {a b : Byte} (hop : reqOp w = op)
    (hr : reqRsv w = 0) (ha : a = reqA w) (hb : b = reqB w) : Code.request (requestWord op a b) = .request w := by
  subst hop ha hb
  rw [← requestWord_fields w hr]

/-- What a request word decodes to is encoded as that word (R74). -/
theorem encode_of_decodeRequest {w : ReqWord} {i : Instr} (h : decodeRequest w = .ok i) : encode i = .request w := by
  simp only [decodeRequest] at h
  split_ifs at h with h0 h1 h2 h3 h4 h5
  all_goals
    obtain ⟨hz, rfl⟩ := whenReservedZero_ok h
    simp only [Bool.and_eq_true, beq_iff_eq] at hz
  · obtain ⟨⟨hr, ha⟩, hb⟩ := hz
    exact request_requestWord_of_fields h0 hr ha.symm (encodeOperand_of_fields _ hb)
  · obtain ⟨⟨hr, ha⟩, hb⟩ := hz
    exact request_requestWord_of_fields h1 hr ha.symm hb.symm
  · obtain ⟨hr, ha⟩ := hz
    exact request_requestWord_of_fields h2 hr ha.symm rfl
  · obtain ⟨hr, ha⟩ := hz
    exact request_requestWord_of_fields h3 hr ha.symm rfl
  · exact request_requestWord_of_fields h4 hz rfl rfl
  · obtain ⟨hr, ha⟩ := hz
    exact request_requestWord_of_fields h5 hr (dotsOperand_of_fields _ ha) (digitsOperand_of_fields _)

/-- Settles O2, at each of the three places. -/
theorem encodeOfDecode : Obligations.EncodeOfDecode := by
  intro c i h
  cases c with
  | request w => exact encode_of_decodeRequest h
  | firstByte b => exact encode_of_decodeFirstByte h
  | dataByte b =>
    cases h
    rfl

/-! ## The opcode table -/

/-- A word selects a row only if each of its fields agrees with the row's on the bits that are fixed (R70, R74). -/
theorem Row.fields_of_selects {r : Row 24} {w : ReqWord} (h : r.selects w = true) :
    reqOp w &&& reqOp r.mask = reqOp r.pattern ∧ reqRsv w &&& reqRsv r.mask = reqRsv r.pattern ∧
      reqA w &&& reqA r.mask = reqA r.pattern ∧ reqB w &&& reqB r.mask = reqB r.pattern := by
  simp only [← beq_iff_eq.1 h, reqOp, reqRsv, reqA, reqB, BitVec.extractLsb'_and, and_self]

/-- Two rows that disagree on a bit that both fix are selected by no common word. -/
theorem requestRows_disjoint {w : ReqWord} {r q : Row 24} (hr : r ∈ requestRows) (hq : q ∈ requestRows)
    (hrw : r.selects w = true) (hqw : q.selects w = true) : r = q := by
  have agree : ∀ r ∈ requestRows, ∀ q ∈ requestRows, r.pattern &&& q.mask = q.pattern &&& r.mask → r = q := by decide
  refine agree r hr q hq ?_
  rw [← beq_iff_eq.1 hrw, ← beq_iff_eq.1 hqw]
  ac_rfl

/-- No row is selected by a reserved word: a row fixes the operation and every bit that R73 reserves for it. -/
theorem not_reservedWord_of_selects {w : ReqWord} {r : Row 24} (hr : r ∈ requestRows) (h : r.selects w = true) :
    ¬ reservedWord w := by
  have fixed : ∀ r ∈ requestRows, reqOp r.mask = 7#3 ∧ reqRsv r.mask = 31#5 ∧ reqRsv r.pattern = 0#5 := by decide
  have and7 : ∀ op : BitVec 3, op &&& 7#3 = op := by decide
  have and31 : ∀ rsv : BitVec 5, rsv &&& 31#5 = rsv := by decide
  have and255 : ∀ a : Byte, a &&& 0xFF#8 = a := by decide
  have high3 : ∀ b : Byte, b &&& 0xE0#8 = 0#8 → b.extractLsb' 5 3 = 0#3 := by decide
  have high6 : ∀ a : Byte, a &&& 0xFC#8 = 0#8 → a.extractLsb' 2 6 = 0#6 := by decide
  obtain ⟨hop, hrsv, ha, hb⟩ := Row.fields_of_selects h
  obtain ⟨mop, mrsv, prsv⟩ := fixed r hr
  rw [mop, and7] at hop
  rw [mrsv, and31, prsv] at hrsv
  simp only [requestRows, List.mem_cons, List.not_mem_nil, or_false] at hr
  rcases hr with rfl | rfl | rfl | rfl | rfl | rfl
  · have hop : reqOp w = 0#3 := hop
    have ha : reqA w = 0#8 := (and255 _).symm.trans ha
    simp [reservedWord, hop, hrsv, ha, high3 _ hb]
  · have hop : reqOp w = 1#3 := hop
    have ha : reqA w = 0#8 := (and255 _).symm.trans ha
    have hb : reqB w = 0#8 := (and255 _).symm.trans hb
    simp [reservedWord, hop, hrsv, ha, hb]
  · have hop : reqOp w = 2#3 := hop
    have ha : reqA w = 0#8 := (and255 _).symm.trans ha
    simp [reservedWord, hop, hrsv, ha]
  · have hop : reqOp w = 3#3 := hop
    have ha : reqA w = 0#8 := (and255 _).symm.trans ha
    simp [reservedWord, hop, hrsv, ha]
  · have hop : reqOp w = 4#3 := hop
    simp [reservedWord, hop, hrsv]
  · have hop : reqOp w = 5#3 := hop
    simp [reservedWord, hop, hrsv, high6 _ ha]

/-- The encoding of a request selects the row that bears its mnemonic (R74). -/
theorem selects_of_encode {i : Instr} {w : ReqWord} (h : encode i = .request w) :
    ∃ r ∈ requestRows, r.mnemonic = i.mnemonic ∧ r.selects w = true := by
  have row : Laws.TableRow.Statement i := by
    cases i with
    | encode digit dot => exact Laws.TableRow.encode digit dot
    | init => exact Laws.TableRow.init
    | sendByte value => exact Laws.TableRow.sendByte value
    | sendCommand cmd => exact Laws.TableRow.sendCommand cmd
    | sendData addr value => exact Laws.TableRow.sendData addr value
    | displayNumber d1 d2 dot1 dot2 => exact Laws.TableRow.displayNumber d1 d2 dot1 dot2
    | cmdMode => exact Laws.TableRow.cmdMode
    | cmdDisplayOn brightness => exact Laws.TableRow.cmdDisplayOn brightness
    | addr a => exact Laws.TableRow.addr a
    | data value => exact Laws.TableRow.data value
  simp only [Laws.TableRow.Statement, h] at row
  exact row.2

/-- A word that decodes selects the row of its instruction. -/
theorem selects_of_decodeRequest {w : ReqWord} {i : Instr} (h : decodeRequest w = .ok i) :
    ∃ r ∈ requestRows, r.mnemonic = i.mnemonic ∧ r.selects w = true :=
  selects_of_encode (encode_of_decodeRequest h)

/-- The decoder rejects exactly the words that R73 reserves. -/
theorem decodeRequest_error_iff (w : ReqWord) : (∃ e, decodeRequest w = .error e) ↔ reservedWord w := by
  refine ⟨fun ⟨e, he⟩ => reservedWord_of_decodeRequest_error he, fun hres => ?_⟩
  rcases hd : decodeRequest w with e | i
  · exact ⟨e, rfl⟩
  · obtain ⟨r, hr, -, hsel⟩ := selects_of_decodeRequest hd
    exact absurd hres (not_reservedWord_of_selects hr hsel)

/-- A word that selects a row decodes, and to an instruction of that row, since no other row is selected. -/
theorem decodeRequest_of_selects {w : ReqWord} {r : Row 24} (hr : r ∈ requestRows) (h : r.selects w = true) :
    ∃ i, decodeRequest w = .ok i ∧ i.mnemonic = r.mnemonic := by
  rcases hd : decodeRequest w with e | i
  · exact absurd (reservedWord_of_decodeRequest_error hd) (not_reservedWord_of_selects hr h)
  · obtain ⟨q, hq, hname, hsel⟩ := selects_of_decodeRequest hd
    exact ⟨i, rfl, by rw [requestRows_disjoint hr hq h hsel, hname]⟩

theorem requestRows_mnemonic_injective : ∀ r ∈ requestRows, ∀ q ∈ requestRows, r.mnemonic = q.mnemonic → r = q := by
  decide

/-- Settles O4, from the encoding of what a word decodes to and the reserved words, which select no row. -/
theorem decodeFollowsTable : Obligations.DecodeFollowsTable := by
  refine ⟨fun w r hr => ⟨decodeRequest_of_selects hr, fun ⟨i, hi, hname⟩ => ?_⟩,
    fun w r hr q hq => requestRows_disjoint hr hq, fun w => ⟨fun he r hr => ?_, fun hnone => ?_⟩,
    decodeRequest_error_iff, fun w i => encode_of_decodeRequest⟩
  · obtain ⟨q, hq, hqname, hsel⟩ := selects_of_decodeRequest hi
    exact requestRows_mnemonic_injective q hq r hr (hqname.trans hname) ▸ hsel
  · exact Bool.eq_false_iff.2 fun hsel =>
      not_reservedWord_of_selects hr hsel ((decodeRequest_error_iff w).1 he)
  · rcases hd : decodeRequest w with e | i
    · exact ⟨e, rfl⟩
    · obtain ⟨r, hr, -, hsel⟩ := selects_of_decodeRequest hd
      rw [hnone r hr] at hsel
      cases hsel

/-- Settles O5: a ready block accepts what its port presents, and the decoder rejects it. -/
theorem reservedWordRefused : Obligations.ReservedWordRefused := by
  intro s hs hv hres
  have hp : hostPresent s = s := hostPresent_of_valid hv
  obtain ⟨e, he⟩ := (decodeRequest_error_iff s.reqWord).2 hres
  refine ⟨false, ?_⟩
  rw [step_of_ready hs (hp.symm ▸ hv), hp, acceptRequest, he]
  rfl

/-! ## Request words -/

/-- The fields of a request word do not overlap, so their shifted values can be OR'd (R90). -/
theorem requestWord_eq_or (op : BitVec 3) (a b : Byte) :
    requestWord op a b = (op.setWidth 24 <<< 21) ||| (a.setWidth 24 <<< 8) ||| b.setWidth 24 := by
  ext i hi
  simp [requestWord]
  grind

/-- Settles O6: every request's encoding is written as a `requestWord`, and its shifted form is `requestWord_eq_or`. -/
theorem requestWords : Obligations.RequestWords := by
  refine ⟨requestWord_eq_or, fun i hi => ?_, by decide, by decide, by decide⟩
  cases i with
  | encode digit dot => exact ⟨_, _, _, rfl⟩
  | init => exact ⟨_, _, _, rfl⟩
  | sendByte value => exact ⟨_, _, _, rfl⟩
  | sendCommand cmd => exact ⟨_, _, _, rfl⟩
  | sendData addr value => exact ⟨_, _, _, rfl⟩
  | displayNumber d1 d2 dot1 dot2 => exact ⟨_, _, _, rfl⟩
  | _ => cases hi

/-- Settles O7: one closed word a row. -/
theorem decodeSamples : Obligations.DecodeSamples := by
  unfold Obligations.DecodeSamples
  decide

/-! ## The assembler -/

@[simp] theorem fitBits_toNat {n : Nat} (v : BitVec n) : fitBits n v.toNat = some v := by
  simp [fitBits, v.isLt]

@[simp] theorem fitFlag_toNat (b : Bool) : fitFlag b.toNat = some b := by
  cases b <;> rfl

/-- Settles O8: each operand fits its field and gives it back. -/
theorem assemblerReadsBack : Obligations.AssemblerReadsBack := by
  refine ⟨fun i vs h => ?_, by decide, fun l hl => ?_, by decide, by decide, fun d1 d2 => ?_⟩
  · cases i with
    | encode digit dot => cases h; simp [assembleOperands, Instr.mnemonic]
    | init => cases h; rfl
    | sendByte value => cases h; simp [assembleOperands, Instr.mnemonic]
    | sendCommand cmd => cases h; simp [assembleOperands, Instr.mnemonic]
    | sendData addr value => cases h; simp [assembleOperands, Instr.mnemonic]
    | displayNumber d1 d2 dot1 dot2 => cases h; simp [assembleOperands, Instr.mnemonic]
    | _ => cases h
  · have hfit : fitBits 3 l = some (BitVec.ofNat 3 l) := if_pos hl
    have hwide : (BitVec.ofNat 3 l).setWidth 8 = BitVec.ofNat 8 l := by
      apply BitVec.eq_of_toNat_eq
      simp
      omega
    simp [assembleOperands, hfit, Instr.displayOn, hwide]
  · simp [assembleOperands, Instr.showDigits]

/-! ## The address byte -/

/-- The address byte is the ADDR byte of the low four address bits (R79, R84). -/
theorem addressByte_eq_append : ∀ addr : Byte, addressByte addr = 0b1100#4 ++ addr.extractLsb' 0 4 := by decide

/-- Settles O12: the byte is an ADDR byte, and SEND_DATA's list is a frame of it (`exec_sendData`). -/
theorem addressByteMasked : Obligations.AddressByteMasked := by
  refine ⟨fun addr => ?_, fun s addr value hi => ?_, by decide⟩
  · refine ⟨rfl, ?_⟩
    rw [addressByte_eq_append]
    exact ⟨BitVec.extractLsb'_append_eq_left, BitVec.extractLsb'_append_eq_right, decodeFirstByte_addr _⟩
  · exact ⟨_, exec_sendData addr value hi, rfl, pins_frameActions _⟩

end Sys2Proof
end

section
/-! PROOFS. The segment encoder (R95 to R100): the pattern with and without the dot is said once of a table entry that
reads, and ENCODE's effect and fault are `exec_encode` and `exec_encode_fault`. -/

namespace Sys2Proof

open Machine

/-! ## The pattern with and without the dot -/

theorem withDot_eq_or (p : Byte) (dot : Bool) : withDot p dot = p ||| if dot then 0x20#8 else 0x00#8 := by
  cases dot <;> simp [withDot]

/-- OR'ing the dot bit in changes nothing exactly when bit 5 is already 1 (R97). -/
theorem or_dotMask_eq_self_iff : ∀ p : Byte, p ||| 0x20#8 = p ↔ p.getLsbD 5 = true := by decide

theorem enc_false {d : Digit} {p : Byte} (h : segRead d = .ok p) : enc d false = .ok p := enc_of_ok false h

theorem enc_true {d : Digit} {p : Byte} (h : segRead d = .ok p) : enc d true = .ok (p ||| 0x20#8) := enc_of_ok true h

theorem enc_blank : enc 10#4 false = .ok 0x00#8 := enc_false segRead_blank

theorem enc_blank_dot : enc 10#4 true = .ok 0x20#8 := enc_true segRead_blank

/-- What the encoder answers without the dot is what the segment table reads. -/
theorem segRead_of_enc_false {d : Digit} {p : Byte} (h : enc d false = .ok p) : segRead d = .ok p := by
  rcases hr : segRead d with c | q
  · simp [enc, hr] at h
  · rw [← h, enc_false hr]

theorem enc_true_eq_false_iff {d : Digit} {p : Byte} (h : segRead d = .ok p) :
    enc d true = enc d false ↔ p.getLsbD 5 = true := by
  rw [enc_true h, enc_false h, Except.ok.injEq, or_dotMask_eq_self_iff]

/-- Settles O9, from what the segment table reads at a digit, at blank and above. -/
theorem encoderTable : Obligations.EncoderTable :=
  ⟨fun _ h => ⟨enc_false (segRead_digit h), enc_true (segRead_digit h)⟩, enc_blank, enc_blank_dot,
    fun _ dot h => enc_error dot h⟩

/-- Settles O10: every pattern the encoder gives is a table entry with the dot bit OR'd in. -/
theorem dotLaw : Obligations.DotLaw :=
  ⟨fun _ _ h => enc_true (segRead_of_enc_false h), enc_blank_dot,
    fun _ dot p h => withDot_eq_or p dot ▸ enc_of_ok dot h, fun _ _ h => enc_true_eq_false_iff h⟩

/-! ## The request ENCODE -/

/-- ENCODE's word is its operand B alone, and the dot stands above the digit (R72, R95). -/
theorem encode_encode_eq_or (d : Digit) (dot : Bool) :
    encode (.encode d dot) = .request (((BitVec.ofBool dot).setWidth 24 <<< 4) ||| d.setWidth 24) := by
  have hword : ∀ (d : Digit) (dot : Bool), requestWord 0b000#3 0#8 (0#3 ++ BitVec.ofBool dot ++ d) =
      ((BitVec.ofBool dot).setWidth 24 <<< 4) ||| d.setWidth 24 := by decide
  exact congrArg Code.request (hword d dot)

/-- Settles O11, from the word, ENCODE's effect and fault in every state, and the encoder's table. -/
theorem encodeRequest : Obligations.EncodeRequest :=
  ⟨encode_encode_eq_or, fun s _ _ _ h => exec_encode s h, fun _ dot h => enc_ok dot h,
    fun s _ dot h => exec_encode_fault dot s h, enc_blank, enc_blank_dot,
    fun _ h => enc_true_eq_false_iff (segRead_digit h), by decide, fun s => exec_encode s enc_blank_dot⟩

end Sys2Proof
end

section
/-! PROOFS. The serial driver (R105 to R130). Each accepted request starts the list of pin actions that its rule names;
a byte's actions touch neither STB nor the configuration, so INIT alone configures the lines; and STB moves only with
CLK high. -/

namespace Sys2Proof

open Machine

/-! ## The lists of a byte and of a frame -/

theorem byteActions_length (v : Byte) : (byteActions v).length = 48 := by
  rw [byteActions, List.length_append, bitsFrom_length]
  rfl

theorem frameActions_length (bytes : List Byte) : (frameActions bytes).length = 48 * bytes.length + 3 := by
  have hbytes : (bytes.flatMap byteActions).length = 48 * bytes.length := by
    simp [List.length_flatMap, byteActions_length, Nat.mul_comm]
  simp [frameActions, hbytes]

/-- Settles O13: the model's lists are the rules' (`pins_byteActions`, `pins_frameActions`), and each bit counts six. -/
theorem actionLists : Obligations.ActionLists :=
  ⟨fun v => ⟨pins_byteActions v, byteActions_length v⟩,
    fun bytes => ⟨pins_frameActions bytes, frameActions_length bytes⟩⟩

/-! ## What the lists hold -/

/-- A byte's actions drive CLK and DIO and wait: nothing else (R108, R110). -/
theorem mem_pinsOfByte {a : PinAction} {v : Byte} (h : a ∈ pinsOfByte v) :
    (∃ b, a = .setPin .clk b) ∨ (∃ b, a = .setPin .dio b) ∨ a = .delayAtLeast 10 := by
  rw [pinsOfByte_eq_bitPins] at h
  obtain ⟨i, -, ha⟩ := List.mem_flatMap.1 h
  simp only [bitPins, List.mem_cons, List.not_mem_nil, or_false] at ha
  rcases ha with rfl | rfl | rfl | rfl | rfl | rfl <;> simp

theorem setPin_stb_notMem_pinsOfByte (b : Bool) (v : Byte) : PinAction.setPin .stb b ∉ pinsOfByte v := fun h => by
  simpa using mem_pinsOfByte h

theorem configIdle_notMem_pinsOfByte (v : Byte) : PinAction.configIdle ∉ pinsOfByte v := fun h => by
  simpa using mem_pinsOfByte h

theorem configIdle_notMem_pinsOfFrame (bytes : List Byte) : PinAction.configIdle ∉ pinsOfFrame bytes := by
  simp [pinsOfFrame, configIdle_notMem_pinsOfByte]

/-- A render's list is three frames: the mode command, digit 1, digit 2 (R124, R125). -/
theorem pins_renderActions (p1 p2 : Byte) :
    pins (renderActions p1 p2) = pinsOfFrame [0x40#8] ++ pinsOfFrame [0xC0#8, p1] ++ pinsOfFrame [0xC2#8, p2] := by
  simp only [renderActions, pins_append, pins_frameActions]
  rfl

theorem configIdle_notMem_renderActions (p1 p2 : Byte) : PinAction.configIdle ∉ pins (renderActions p1 p2) := by
  simp [pins_renderActions, configIdle_notMem_pinsOfFrame]

/-! ## INIT alone configures the lines -/

/-- A request other than INIT that leaves a ConfigIdle to perform is a fault, which left the list alone (R107, R171). -/
theorem exec_request_seq_of_configIdle {i : Instr} {s t : State} (hi : i.isRequest = true) (hn : i ≠ .init)
    (he : exec i s = .next t) (hmem : PinAction.configIdle ∈ pins t.seq) : t.seq = s.seq := by
  have started : ∀ {q : List SeqItem} {u : State}, exec i s = .next (start q u) → PinAction.configIdle ∉ pins q →
      t.seq = s.seq := fun hs hq => by
    cases hs.symm.trans he
    exact absurd hmem hq
  rcases exec_request_cases hi s with ⟨c, -, hs⟩ | ⟨-, ⟨d, dot, p, -, -, hs⟩ | ⟨rfl, -⟩ |
    ⟨-, ⟨v, -, hs⟩ | ⟨c, -, hs⟩ | ⟨a, v, -, hs⟩ | ⟨d1, d2, dot1, dot2, p1, p2, -, -, -, hs⟩⟩⟩
  · cases hs.symm.trans he
    rfl
  · exact started hs List.not_mem_nil
  · exact absurd rfl hn
  · exact started hs (pins_byteActions v ▸ configIdle_notMem_pinsOfByte v)
  · exact started hs (pins_frameActions [c] ▸ configIdle_notMem_pinsOfFrame [c])
  · exact started hs (pins_frameActions [addressByte a, v] ▸ configIdle_notMem_pinsOfFrame _)
  · exact started hs (configIdle_notMem_renderActions p1 p2)

/-- Settles O40: the lines are Z before INIT by the invariant, the requests that an uninitialized block accepts are
ENCODE and INIT (`exec_request_cases`), and no request but INIT starts a list with a ConfigIdle. -/
theorem initConfigures : Obligations.InitConfigures := by
  refine ⟨fun s h hinit => h.undriven (h.before_init hinit).1, fun s i hi hi0 hn hc => ?_,
    fun s t i hi hn he => ⟨?_, exec_request_seq_of_configIdle hi hn he⟩⟩
  · rcases exec_request_cases hi s with ⟨c, hfault, -⟩ | ⟨-, ⟨d, dot, -, rfl, -⟩ | ⟨hinit, -⟩ | ⟨hdone, -⟩⟩
    · cases hc.symm.trans hfault
    · exact ⟨d, dot, rfl⟩
    · exact absurd hinit hn
    · cases hi0.symm.trans hdone
  · rw [exec_request_frame hi he]

/-! ## STB moves with CLK high -/

/-- Settles O38: a SetPin of STB is permitted only with CLK high, and it leaves CLK alone. -/
theorem strobeMovesAtClockHigh : Obligations.StrobeMovesAtClockHigh := by
  refine ⟨fun s t h hst hc hd => ?_, fun s b x rest h hs => ?_⟩
  · obtain ⟨b, x, rest, -, -, ⟨-, hclk, -⟩, hother⟩ := (h.line_moves hst hc).2 .stb hd
    rw [Wire.transfer_clk] at hclk
    exact ⟨hclk, (hother .clk (by decide)).trans hclk⟩
  · obtain ⟨-, ⟨-, hclk, -⟩, -⟩ := h.head hs
    rwa [Wire.transfer_clk] at hclk

/-! ## The accepted requests -/

/-- Settles O17: INIT's list configures the lines and sends its two frames (`pins_initActions`). -/
theorem initAccepted : Obligations.InitAccepted := fun _ hi => ⟨_, exec_init hi, pins_initActions⟩

/-- Settles O18: the list is the byte's, and a byte's actions do not touch STB. -/
theorem sendByteAccepted : Obligations.SendByteAccepted := fun _ v hi =>
  ⟨_, exec_sendByte v hi, pins_byteActions v, fun b => pins_byteActions v ▸ setPin_stb_notMem_pinsOfByte b v⟩

/-- Settles O19: the list is the command's frame. -/
theorem sendCommandAccepted : Obligations.SendCommandAccepted := fun _ c hi =>
  ⟨_, exec_sendCommand c hi, pins_frameActions [c]⟩

/-- Settles O20: the list is the frame of the address byte and the value. -/
theorem sendDataAccepted : Obligations.SendDataAccepted := fun _ addr value hi =>
  ⟨_, exec_sendData addr value hi, pins_frameActions [addressByte addr, value]⟩

/-- Settles O21: digits up to 10 have patterns (`enc_ok`), and the list is the render's three frames. -/
theorem displayNumberAccepted : Obligations.DisplayNumberAccepted := by
  intro s d1 d2 dot1 dot2 hi h1 h2
  obtain ⟨p1, henc1⟩ := enc_ok dot1 h1
  obtain ⟨p2, henc2⟩ := enc_ok dot2 h2
  exact ⟨_, p1, p2, henc1, henc2, exec_displayNumber hi henc1 henc2, pins_renderActions p1 p2⟩

end Sys2Proof
end

section
/-! PROOFS. The observer in step and on the trace (R140). Lines, observer and controller are one part of the state
(`viewOf`) that an action changes by itself, so replaying the entry that an action leaves changes it alike. -/

namespace Sys2Proof

open Machine

/-! ## The part of the state that the observer sees -/

/-- The lines, the observer and the controller, in a state that is at reset otherwise. -/
def viewOf (s : State) : State :=
  { State.reset with cfg := s.cfg, stb := s.stb, clk := s.clk, dio := s.dio, obs := s.obs, dev := s.dev }

theorem viewOf_eq_iff {s t : State} :
    viewOf s = viewOf t ↔
      s.cfg = t.cfg ∧ s.stb = t.stb ∧ s.clk = t.clk ∧ s.dio = t.dio ∧ s.obs = t.obs ∧ s.dev = t.dev := by
  simp [viewOf]

theorem viewOf_hostPresent (s : State) : viewOf (hostPresent s) = viewOf s := by
  obtain ⟨v, w, b, i, n, hp⟩ := hostPresent_frame s
  rw [hp]
  rfl

@[simp] theorem viewOf_transferRegs_withSeq (x : Transfer) (q : List SeqItem) (s : State) :
    viewOf (transferRegs x (s.withSeq q)) = viewOf s := by
  cases x <;> rfl

/-- What an edge makes of the view depends on the view alone. -/
theorem viewOf_seenEdge (p : Pin) (old : Level) (b : Bool) (s : State) :
    viewOf (seenEdge p old b s) = seenEdge p old b (viewOf s) := by
  cases p <;> cases old <;> cases b <;> simp only [seenEdge, clockRise]
  case stb.high.false => rfl
  case stb.low.true =>
    change viewOf (if s.obs.isOpen then _ else _) = if s.obs.isOpen then _ else _
    split <;> rfl
  case clk.low.true =>
    change viewOf (if s.obs.isOpen then _ else _) = if s.obs.isOpen then _ else _
    split <;> rfl

/-- States with the same view have the same view after the same action. -/
theorem viewOf_acted {s t : State} (a : PinAction) (h : viewOf s = viewOf t) :
    viewOf (acted a s) = viewOf (acted a t) := by
  cases a with
  | configIdle =>
    change (viewOf s).withIdleLines = (viewOf t).withIdleLines
    rw [h]
  | delayAtLeast n => exact h
  | setPin p b =>
    obtain ⟨-, hstb, hclk, hdio, -⟩ := viewOf_eq_iff.1 h
    have hline : s.line p = t.line p := by cases p <;> assumption
    have hdriven : ∀ u : State, viewOf ((u.withTrace (.setPin p b)).withLine p (Level.ofBit b)) =
        (viewOf u).withLine p (Level.ofBit b) := fun u => by cases p <;> rfl
    simp only [acted, viewOf_seenEdge, hdriven, hline, h]

/-- A step that does not perform an action leaves the trace and the view alone. -/
theorem step_performs_or_view_kept {s t : State} (hr : s.rx = []) (h : step s = .next t) :
    performsHead s t ∨ t.trace = s.trace ∧ viewOf t = viewOf s := by
  rcases step_outcomes hr h with hact | ⟨-, -, -, -, ⟨r, -, rfl⟩ | ⟨i, hd, he⟩⟩ | rfl
  · exact .inl hact
  · exact .inr ⟨hostPresent_trace s, viewOf_hostPresent s⟩
  · rw [exec_request_frame (decodeRequest_isRequest hd) he]
    exact .inr ⟨hostPresent_trace s, viewOf_hostPresent s⟩
  · exact .inr ⟨hostPresent_trace s, viewOf_hostPresent s⟩

/-! ## The trace replayed -/

/-- What a trace entry makes of a state in which no frame waits. -/
def entryActed : TraceEntry → State → State
  | .configIdle, s => acted .configIdle s
  | .setPin p b, s => acted (.setPin p b) s
  | .delay t d, s => s.withTrace (.delay t d)

theorem replayEntry_eq (e : TraceEntry) {s : State} (hr : s.rx = []) : replayEntry e s = .next (entryActed e s) := by
  cases e with
  | configIdle => exact takeFrame_of_empty (s := configIdle s) hr
  | setPin p b => exact takeFrame_setPin p b hr
  | delay t d => exact takeFrame_of_empty (s := s.withTrace (.delay t d)) hr

theorem entryActed_rx (e : TraceEntry) {s : State} (hr : s.rx = []) : (entryActed e s).rx = [] := by
  have hacted : ∀ a, (acted a s).rx = [] := fun a => by
    obtain ⟨-, -, hrx, -⟩ := acted_frame a s
    exact hrx.trans hr
  cases e with
  | configIdle => exact hacted _
  | setPin p b => exact hacted _
  | delay t d => exact hr

/-- Replaying a trace takes its entries one after another, and never stops. -/
theorem replay_eq_foldl (es : List TraceEntry) {s : State} (hr : s.rx = []) :
    replay es s = .next (es.foldl (fun u e => entryActed e u) s) := by
  induction es generalizing s with
  | nil => rfl
  | cons e es ih => rw [replay, replayEntry_eq e hr, List.foldl_cons, ← ih (entryActed_rx e hr)]

/-- The state in which the replay of a trace from power-on ends. -/
def replayed (es : List TraceEntry) : State := es.foldl (fun u e => entryActed e u) State.reset

theorem replayed_append_singleton (es : List TraceEntry) (e : TraceEntry) :
    replayed (es ++ [e]) = entryActed e (replayed es) := by
  rw [replayed, List.foldl_append, List.foldl_cons, List.foldl_nil, replayed]

theorem agreesWithReplay_iff (s : State) : agreesWithReplay s ↔ viewOf (replayed s.trace) = viewOf s := by
  rw [agreesWithReplay, replay_eq_foldl s.trace (s := State.reset) rfl, viewOf_eq_iff]
  simp [replayed]

/-- Replaying the entry that an action leaves gives the view that the action gives (R140): the length of a delay is all
that they may differ in, and nobody sees it. -/
theorem viewOf_entryActed {a : PinAction} {e : TraceEntry} {s t : State} (he : records a e)
    (h : viewOf s = viewOf t) : viewOf (entryActed e s) = viewOf (acted a t) := by
  cases a with
  | configIdle =>
    obtain rfl : e = .configIdle := he
    exact viewOf_acted .configIdle h
  | setPin p b =>
    obtain rfl : e = .setPin p b := he
    exact viewOf_acted (.setPin p b) h
  | delayAtLeast n =>
    obtain ⟨d, -, rfl⟩ := he
    exact h

/-- Settles O44: an action and the replay of its entry change the view alike, and no other step changes view or
trace. -/
theorem observerAgreesWithTrace : Obligations.ObserverAgreesWithTrace := by
  refine ⟨(agreesWithReplay_iff _).2 rfl, fun s t hr hs hst => (agreesWithReplay_iff t).2 ?_⟩
  have hview := (agreesWithReplay_iff s).1 hs
  rcases step_performs_or_view_kept hr hst with ⟨m, rest, -, -, rfl⟩ | ⟨htrace, hkept⟩
  · obtain ⟨e, htrace, he⟩ := act_trace m rest (hostPresent s)
    rw [htrace, hostPresent_trace, replayed_append_singleton]
    refine viewOf_entryActed he ?_
    rw [viewOf_transferRegs_withSeq, viewOf_hostPresent, hview]
  · rw [htrace, hkept, hview]

end Sys2Proof
end

section
/-! PROOFS. The frames with a stated meaning (R148 to R150, R153): a command byte alone, or an address byte with data
bytes. What each closed frame makes of the controller follows. -/

namespace Sys2Proof

open Machine

/-! ## Decoding a frame -/

/-- A first byte that decodes is a command byte or an address byte, as R76 lists them. -/
theorem decodeFirstByte_ok_cases {b : Byte} {i : Instr} (h : decodeFirstByte b = .ok i) :
    (i.isCommandByte = true ∧ i.isAddr = false ∧ (b = 0x40#8 ∨ b.extractLsb' 3 5 = 0b10001#5)) ∨
      ∃ a, i = .addr a ∧ b.extractLsb' 4 4 = 0b1100#4 := by
  simp only [decodeFirstByte] at h
  split_ifs at h with hmode hdisplay haddr <;> cases h
  · exact .inl ⟨rfl, rfl, .inl hmode⟩
  · exact .inl ⟨rfl, rfl, .inr hdisplay⟩
  · exact .inr ⟨_, rfl, haddr⟩

theorem decodeFrame_singleton {b : Byte} {i : Instr} (h : decodeFirstByte b = .ok i) (hi : i.isAddr = false) :
    decodeFrame [b] 0 = .ok [i] := by
  simp [decodeFrame, h, hi]

theorem decodeFrame_addressed {b : Byte} {a : BitVec 4} {vs : List Byte} (h : decodeFirstByte b = .ok (.addr a))
    (hv : vs ≠ []) : decodeFrame (b :: vs) 0 = .ok (.addr a :: vs.map .data) := by
  obtain ⟨v, vs, rfl⟩ := List.exists_cons_of_ne_nil hv
  simp [decodeFrame, h, Instr.isAddr]

/-- The frames that decode: a command byte alone, or an address byte with at least one data byte. -/
theorem decodeFrame_ok_cases {bytes : List Byte} {n : Nat} {is : List Instr} (h : decodeFrame bytes n = .ok is) :
    n = 0 ∧
      ((∃ b i, bytes = [b] ∧ is = [i] ∧ decodeFirstByte b = .ok i ∧ i.isCommandByte = true) ∨
        ∃ b a vs, bytes = b :: vs ∧ vs ≠ [] ∧ is = .addr a :: vs.map .data ∧ decodeFirstByte b = .ok (.addr a)) := by
  simp only [decodeFrame] at h
  split_ifs at h with hn
  refine ⟨not_not.1 hn, ?_⟩
  rcases bytes with _ | ⟨b, _ | ⟨v, vs⟩⟩
  · cases h
  · rcases hb : decodeFirstByte b with r | i
    · simp [hb] at h
    · rcases decodeFirstByte_ok_cases hb with ⟨hc, ha, -⟩ | ⟨a, rfl, -⟩
      · simp only [hb, ha] at h
        cases h
        exact .inl ⟨b, i, rfl, rfl, hb, hc⟩
      · simp [hb, Instr.isAddr] at h
  · rcases hb : decodeFirstByte b with r | i
    · simp [hb] at h
    · rcases decodeFirstByte_ok_cases hb with ⟨-, ha, -⟩ | ⟨a, rfl, -⟩
      · simp [hb, ha] at h
      · simp only [hb] at h
        cases h
        exact .inr ⟨b, a, v :: vs, rfl, by simp, rfl, hb⟩

/-! ## Frames and their bytes -/

theorem encodeFrame_map_data (vs : List Byte) : encodeFrame (vs.map .data) = vs := by
  simp [encodeFrame, List.filterMap_map, encode, Code.busByte?]

theorem encodeFrame_cons_of_firstByte {b : Byte} {i : Instr} (is : List Instr) (h : decodeFirstByte b = .ok i) :
    encodeFrame (i :: is) = b :: encodeFrame is := by
  simp [encodeFrame, encode_of_decodeFirstByte h, Code.busByte?]

/-- A list of data bytes is the list of their values. -/
theorem eq_map_data_of_all_isData {is : List Instr} (h : is.all Instr.isData = true) :
    ∃ vs : List Byte, is = vs.map .data := by
  induction is with
  | nil => exact ⟨[], rfl⟩
  | cons i is ih =>
    rw [List.all_cons, Bool.and_eq_true] at h
    obtain ⟨hi, his⟩ := h
    obtain ⟨vs, rfl⟩ := ih his
    cases i with
    | data v => exact ⟨v :: vs, rfl⟩
    | _ => cases hi

theorem all_isData_map_data (vs : List Byte) : (vs.map Instr.data).all Instr.isData = true := by
  simp [Instr.isData, Instr.place]

/-- A command byte's encoding is a first byte that decodes to it. -/
theorem decodeFirstByte_of_isCommandByte {i : Instr} (h : i.isCommandByte = true) :
    ∃ b, decodeFirstByte b = .ok i ∧ i.isAddr = false := by
  cases i with
  | cmdMode => exact ⟨0x40#8, rfl, rfl⟩
  | cmdDisplayOn l => exact ⟨_, decodeFirstByte_displayOn_append l, rfl⟩
  | _ => cases h

/-- A well-formed frame is a command byte, or an address byte with data bytes (R81). -/
theorem wellFormedFrame_cases {is : List Instr} (h : wellFormedFrame is = true) :
    (∃ i, is = [i] ∧ i.isCommandByte = true) ∨ ∃ a, ∃ vs : List Byte, vs ≠ [] ∧ is = .addr a :: vs.map .data := by
  rcases is with _ | ⟨i, _ | ⟨j, is⟩⟩
  · cases h
  · exact .inl ⟨i, rfl, h⟩
  · simp only [wellFormedFrame, Bool.and_eq_true] at h
    obtain ⟨hi, hdata⟩ := h
    obtain ⟨vs, hvs⟩ := eq_map_data_of_all_isData hdata
    rw [hvs]
    cases i with
    | addr a => exact .inr ⟨a, vs, List.map_eq_nil_iff.not.1 (hvs ▸ List.cons_ne_nil j is), rfl⟩
    | _ => cases hi

theorem wellFormedFrame_addressed (a : BitVec 4) {vs : List Byte} (hv : vs ≠ []) :
    wellFormedFrame (.addr a :: vs.map .data) = true := by
  obtain ⟨v, vs, rfl⟩ := List.exists_cons_of_ne_nil hv
  exact all_isData_map_data (v :: vs)

/-- Settles O3: both directions go through a frame's two forms (`wellFormedFrame_cases`, `decodeFrame_ok_cases`). -/
theorem frameDecodeEncode : Obligations.FrameDecodeEncode := by
  refine ⟨fun is h => ?_, fun bytes n is h => ?_⟩
  · rcases wellFormedFrame_cases h with ⟨i, rfl, hi⟩ | ⟨a, vs, hv, rfl⟩
    · obtain ⟨b, hb, ha⟩ := decodeFirstByte_of_isCommandByte hi
      rw [encodeFrame_cons_of_firstByte [] hb]
      exact decodeFrame_singleton hb ha
    · have hb := decodeFirstByte_addr a
      rw [encodeFrame_cons_of_firstByte _ hb, encodeFrame_map_data]
      exact decodeFrame_addressed hb hv
  · obtain ⟨rfl, ⟨b, i, rfl, rfl, hb, hi⟩ | ⟨b, a, vs, rfl, hv, rfl, hb⟩⟩ := decodeFrame_ok_cases h
    · exact ⟨rfl, hi, encodeFrame_cons_of_firstByte [] hb⟩
    · refine ⟨rfl, wellFormedFrame_addressed a hv, ?_⟩
      rw [encodeFrame_cons_of_firstByte _ hb, encodeFrame_map_data]

/-! ## What a closed frame makes of the controller -/

theorem frameEffect_of_ok {bytes : List Byte} {n : Nat} {is : List Instr} (d : Dev)
    (h : decodeFrame bytes n = .ok is) : frameEffect bytes n d = busEffects is d := by
  simp [frameEffect, h]

theorem frameEffect_of_error {bytes : List Byte} {n : Nat} {r : Reject} (d : Dev)
    (h : decodeFrame bytes n = .error r) : frameEffect bytes n d = Dev.unknown := by
  simp [frameEffect, h]

theorem frameEffect_mode (d : Dev) : frameEffect [0x40#8] 0 d = d.setMode := rfl

/-- A display-control byte alone sets the display (R149). -/
theorem frameEffect_display {b : Byte} {l : BitVec 3} (d : Dev) (h : decodeFirstByte b = .ok (.cmdDisplayOn l)) :
    frameEffect [b] 0 d = d.setDisplay l :=
  frameEffect_of_ok d (decodeFrame_singleton h rfl)

/-- An addressed frame sets the write address and stores its data bytes in order (R150, R151). -/
theorem frameEffect_addressed {b : Byte} {a : BitVec 4} {vs : List Byte} (d : Dev)
    (h : decodeFirstByte b = .ok (.addr a)) (hv : vs ≠ []) :
    frameEffect (b :: vs) 0 d = busEffects (vs.map .data) (d.setPtr a) :=
  frameEffect_of_ok d (decodeFrame_addressed h hv)

/-- An addressed frame that cannot be completed leaves nothing known (R152, R153). -/
theorem frameEffect_addressed_unknown {d : Dev} {b : Byte} {a : BitVec 4} {vs : List Byte}
    (h : decodeFirstByte b = .ok (.addr a)) (hv : vs ≠ []) (hd : d.mode = none ∨ 16 < a.toNat + vs.length) :
    frameEffect (b :: vs) 0 d = Dev.unknown := by
  rw [frameEffect_addressed d h hv]
  rcases hm : d.mode with _ | ⟨⟩
  · exact busEffects_data_unknown vs (d := d.setPtr a) hm hv
  · have hlen : 16 < a.toNat + vs.length := hd.resolve_left (by simp [hm])
    exact busEffects_data_past vs (d := d.setPtr a) (p := ptrOf a) hm rfl hlen

/-- The frames that R153 names have no stated meaning. -/
theorem frameEffect_undocumented {bytes : List Byte} {n : Nat} (d : Dev)
    (h : n ≠ 0 ∨ bytes = [] ∨ (∃ b, bytes = [b] ∧ b ≠ 0x40#8 ∧ b.extractLsb' 3 5 ≠ 0b10001#5) ∨
      ∃ b v vs, bytes = b :: v :: vs ∧ b.extractLsb' 4 4 ≠ 0b1100#4) :
    frameEffect bytes n d = Dev.unknown := by
  rcases hd : decodeFrame bytes n with r | is
  · exact frameEffect_of_error d hd
  · exfalso
    obtain ⟨rfl, ⟨b, i, rfl, -, hb, hi⟩ | ⟨b, a, vs, rfl, hv, -, hb⟩⟩ := decodeFrame_ok_cases hd
    · rcases decodeFirstByte_ok_cases hb with ⟨-, -, hlisted⟩ | ⟨a, rfl, -⟩
      · rcases hlisted with rfl | hdisplay
        · simp at h
        · simp [hdisplay] at h
      · cases hi
    · rcases decodeFirstByte_ok_cases hb with ⟨hi, -⟩ | ⟨-, -, haddr⟩
      · cases hi
      · simp [hv, haddr] at h

end Sys2Proof
end

section
/-! PROOFS. The controller. A bus byte is its effect on the controller (`exec_busEffect`); the step that closes a frame
is the frame's effect (`frameEffect`), and every other step of the sequencer is read off the act of its head. -/

namespace Sys2Proof

open Machine

/-! ## A bus byte -/

/-- Settles O54: each bus byte replaces the controller by its effect, whose other fields stay. -/
theorem busByteFrame : Obligations.BusByteFrame := by
  have effect : ∀ {i : Instr} {s t : State}, i.isBusByte = true → exec i s = .next t →
      t = s.withDev (busEffect i s.dev) := fun hi he => by
    cases (exec_busEffect hi _).symm.trans he
    rfl
  refine ⟨fun i s t hi he => ?_, fun s t he => ?_, fun s t b he => ?_, fun s t a he => ?_,
    fun s t v p he hm hp h => ?_⟩
  · rw [effect hi he]
    rfl
  · rw [effect rfl he]
    exact ⟨rfl, rfl, rfl, fun _ => rfl⟩
  · rw [effect rfl he]
    exact ⟨rfl, rfl, fun _ => rfl⟩
  · rw [effect rfl he]
    exact ⟨rfl, rfl, rfl, fun _ => rfl⟩
  · have hdev : t.dev = s.dev.store v := by
      rw [effect rfl he]
      rfl
    rw [hdev, Dev.store_of_ptr v hm hp h]
    exact ⟨rfl, rfl, rfl, fun x hx => Memory.read_write_other _ v hx⟩

/-- A write stores the one byte at its address. -/
theorem storedFrom_write (m : Memory) (a : Nat) (v : Byte) : storedFrom m (Memory.write m a v) a [v] := by
  refine ⟨fun j hj => ?_, fun x hx => Memory.read_write_other m v ?_⟩
  · obtain rfl : j = 0 := by simpa using hj
    exact Memory.read_write_same m a v
  · simp only [List.length_singleton] at hx
    omega

/-- Settles O49: ADDR's effect is read off, and DATA is stored or leaves nothing known. -/
theorem addressAndData : Obligations.AddressAndData := by
  refine ⟨fun s a => rfl, fun s v p h hm hp => ⟨_, ?_, storedFrom_write s.dev.ram p.val v⟩, fun s v h => ?_⟩
  · rw [exec_busEffect rfl, busEffect, Dev.store_of_ptr v hm hp h]
    rfl
  · have hlast : s.dev.mode = none ∨ s.dev.ptr = none ∨ ∃ p, s.dev.ptr = some p ∧ 16 ≤ p.val :=
      h.imp_right (Or.imp_right fun hp => ⟨16, hp, Nat.le_refl 16⟩)
    rw [exec_busEffect rfl, busEffect, Dev.store_havoc v hlast]
    rfl

/-- Settles O30: with a frame waiting, the step takes it. -/
theorem stepRunsBusByte : Obligations.StepRunsBusByte := by
  have take : ∀ s i is, s.rx = i :: is → step s = receiveAll (i :: is) { s with rx := [] } := fun s i is h => by
    simp only [step, stepState, h, takeFrame]
    rfl
  refine ⟨fun s i h => ?_, take⟩
  obtain ⟨t, ht⟩ := exec_next i { s with rx := [] }
  rw [take s i [] h, receiveAll_cons [] ht, ht, receiveAll_nil]

/-! ## A step of the sequencer -/

/-- Whatever the host does in its turn, a step of the sequencer leaves the observer and the controller as the action at
the head of the list makes them. -/
theorem step_obs_dev {s : State} {m : SeqItem} {rest : List SeqItem} (hr : s.rx = []) (hb : s.busy = true)
    (hs : s.seq = m :: rest) :
    ∃ t, step s = .next t ∧ t.obs = (acted m.act s).obs ∧ t.dev = (acted m.act s).dev := by
  refine ⟨_, step_busy hr hb hs, ?_⟩
  have hview := viewOf_acted (s := transferRegs m.transfer ((hostPresent s).withSeq rest)) (t := s) m.act
    (by rw [viewOf_transferRegs_withSeq, viewOf_hostPresent])
  obtain ⟨-, -, -, -, hobs, hdev⟩ := viewOf_eq_iff.1 hview
  exact ⟨hobs, hdev⟩

/-- The strobe rise of an open frame records the frame, and the controller takes it (R145). -/
theorem acted_strobe_rise {s : State} (hl : s.stb = .low) (ho : s.obs.isOpen = true) :
    (acted (.setPin .stb true) s).obs = s.obs.closeFrame ∧
      (acted (.setPin .stb true) s).dev = frameEffect s.obs.bytes s.obs.n s.dev := by
  simp [acted, seenEdge, State.line, hl, ho]

/-- The strobe fall opens a frame (R142). -/
theorem acted_strobe_fall {s : State} (hl : s.stb = .high) :
    (acted (.setPin .stb false) s).obs = s.obs.openFrame ∧ (acted (.setPin .stb false) s).dev = s.dev := by
  simp [acted, seenEdge, State.line, hl]

/-- A clock rise in a frame samples DIO (R143). -/
theorem acted_clock_rise_open {s : State} (hl : s.clk = .low) (ho : s.obs.isOpen = true) :
    (acted (.setPin .clk true) s).obs = s.obs.sample (s.dio == .high) ∧
      (acted (.setPin .clk true) s).dev = s.dev := by
  simp [acted, seenEdge, clockRise, State.line, hl, ho]

/-- A clock rise outside a frame is counted, and leaves nothing known of the controller (R146). -/
theorem acted_clock_rise_closed {s : State} (hl : s.clk = .low) (ho : s.obs.isOpen = false) :
    (acted (.setPin .clk true) s).obs = s.obs.countStray ∧ (acted (.setPin .clk true) s).dev = Dev.unknown := by
  simp [acted, seenEdge, clockRise, State.line, hl, ho]

/-- The observer sees no edge in the action: a clock fall, a line driven to the level it has, any change of DIO,
ConfigIdle, a delay (R141). -/
def noEdge (a : PinAction) (s : State) : Prop :=
  a = .setPin .clk false ∨ (∃ p b, a = .setPin p b ∧ s.line p = Level.ofBit b) ∨ (∃ b, a = .setPin .dio b) ∨
    a = .configIdle ∨ ∃ n, a = .delayAtLeast n

theorem acted_noEdge {a : PinAction} {s : State} (h : noEdge a s) :
    (acted a s).obs = s.obs ∧ (acted a s).dev = s.dev := by
  rcases h with rfl | ⟨p, b, rfl, hl⟩ | ⟨b, rfl⟩ | rfl | ⟨n, rfl⟩
  · cases hl : s.line .clk <;> simp [acted, seenEdge, hl]
  · cases p <;> cases b <;> simp [acted, seenEdge, hl, Level.ofBit]
  · simp [acted, seenEdge]
  · exact ⟨rfl, rfl⟩
  · exact ⟨rfl, rfl⟩

theorem step_noEdge {s : State} {m : SeqItem} {rest : List SeqItem} (hr : s.rx = []) (hb : s.busy = true)
    (hs : s.seq = m :: rest) (h : noEdge m.act s) : ∃ t, step s = .next t ∧ t.obs = s.obs ∧ t.dev = s.dev := by
  obtain ⟨t, ht, hobs, hdev⟩ := step_obs_dev hr hb hs
  obtain ⟨hobs', hdev'⟩ := acted_noEdge h
  exact ⟨t, ht, hobs.trans hobs', hdev.trans hdev'⟩

/-! ## The step that closes a frame -/

/-- The step that closes a frame records it, and the controller takes it (R145). -/
theorem step_closing {s : State} {bytes : List Byte} {n : Nat} {rest : List SeqItem} (h : closing s bytes n rest) :
    ∃ t, step s = .next t ∧ t.obs = { s.obs with isOpen := false, frames := s.obs.frames ++ [⟨bytes, n⟩] } ∧
      t.dev = frameEffect bytes n s.dev := by
  obtain ⟨hr, hb, hs, hl, ho, rfl, rfl⟩ := h
  obtain ⟨t, ht, hobs, hdev⟩ := step_obs_dev hr hb hs
  obtain ⟨hobs', hdev'⟩ := acted_strobe_rise hl ho
  exact ⟨t, ht, hobs.trans hobs', hdev.trans hdev'⟩

/-- The strobe rise of an open frame with a stated meaning, as an update of the whole state. -/
theorem acted_strobe_rise_eq {s : State} {is : List Instr} (hl : s.stb = .low) (ho : s.obs.isOpen = true)
    (hd : decodeFrame s.obs.bytes s.obs.n = .ok is) :
    acted (.setPin .stb true) s =
      { s with trace := s.trace ++ [.setPin .stb true], stb := .high, obs := s.obs.closeFrame,
               dev := busEffects is s.dev } := by
  simp only [acted, seenEdge, State.line, hl, State.withLine, State.withTrace, ho, if_true, frameEffect_of_ok _ hd]
  rfl

/-- Settles O31: the act of the strobe rise applies the effects of the frame's instructions, which receiving them
applies too. -/
theorem stepRunsClosedFrame : Obligations.StepRunsClosedFrame := by
  intro s bytes rest is h hd
  obtain ⟨hr, hb, hs, hl, ho, rfl, hn⟩ := h
  have hsame := sameBlock_hostPresent s
  have hact := acted_strobe_rise_eq (s := (hostPresent s).withSeq rest) (is := is) (hsame.stb.trans hl)
    ((congrArg Obs.isOpen hsame.obs).trans ho) (by simpa [hsame.obs, hn] using hd)
  have hstep : step s = .next (acted (.setPin .stb true) ((hostPresent s).withSeq rest)) := step_busy hr hb hs
  obtain ⟨v, w, b, i, n, hp⟩ := hostPresent_frame s
  rw [hstep, hact, receiveAll_busEffects (decodeFrame_busBytes hd), hp, ← hn]
  rfl

/-- Settles O48: the instructions are read off, and the closing steps are the frames' effects. -/
theorem commandFrames : Obligations.CommandFrames := by
  refine ⟨fun s => rfl, fun s b => rfl, fun s rest h => ?_, fun s b rest h => ?_⟩
  · obtain ⟨t, ht, hobs, hdev⟩ := step_closing h
    exact ⟨t, ht, hdev.trans (frameEffect_mode s.dev), by rw [hobs]⟩
  · obtain ⟨t, ht, hobs, hdev⟩ := step_closing h
    rw [frameEffect_display s.dev (decodeFirstByte_displayOn b)] at hdev
    exact ⟨t, ht, hdev, by rw [hobs]⟩

/-- Settles O50: the closing step stores the data bytes (`busEffects_data`), or leaves nothing known. -/
theorem addressedWrite : Obligations.AddressedWrite := by
  intro s a vs rest hv h
  obtain ⟨t, ht, -, hdev⟩ := step_closing h
  refine ⟨t, ht, fun hm hlen => ?_, fun hd => ?_⟩
  · rw [hdev, frameEffect_addressed s.dev (decodeFirstByte_addr a) hv]
    exact busEffects_data vs (d := s.dev.setPtr a) (p := ptrOf a) hm rfl hlen
  · rw [hdev, frameEffect_addressed_unknown (decodeFirstByte_addr a) hv hd]

/-- Settles O51: the closing steps are the frames' effects, which are unknown, and so is what an out-of-frame clock
leaves. -/
theorem havocCases : Obligations.HavocCases := by
  refine ⟨fun s bytes n rest h hbytes => ?_, fun s x rest hr hb hs hl ho => ?_, fun s a vs rest h hv hd => ?_,
    rfl, rfl, rfl, rfl, fun a => rfl⟩
  · obtain ⟨t, ht, hobs, hdev⟩ := step_closing h
    exact ⟨t, ht, hdev.trans (frameEffect_undocumented s.dev hbytes), by rw [hobs], by rw [hobs]⟩
  · obtain ⟨t, ht, -, hdev⟩ := step_obs_dev hr hb hs
    exact ⟨t, ht, hdev.trans (acted_clock_rise_closed hl ho).2⟩
  · obtain ⟨t, ht, -, hdev⟩ := step_closing h
    exact ⟨t, ht, hdev.trans (frameEffect_addressed_unknown (decodeFirstByte_addr a) hv hd)⟩

/-! ## A byte in an open frame -/

/-- The observer samples the bits of a register from bit 0 on. -/
theorem sampleBits_eq_foldl (k : Nat) (sr : Byte) (o : Obs) :
    sampleBits k sr o = (List.range k).foldl (fun o i => o.sample (sr.getLsbD i)) o := by
  induction k generalizing sr o with
  | zero => rfl
  | succ k ih =>
    rw [sampleBits, ih, List.range_succ_eq_map, List.foldl_cons, List.foldl_map]
    simp [Nat.add_comm]

/-- Settles O46: the samples are `sampleBits`, and the 48 steps are the acts of the byte's list. -/
theorem byteAssembled : Obligations.ByteAssembled := by
  refine ⟨fun o v ha hn => ?_, fun s v rest hr hb hs hc ho ha hn => ?_⟩
  · rw [← sampleBits_eq_foldl, sampleBits_byte v o ha hn]
  · have hbusy : s.busy = busyWith s.seq := by
      rw [hb, hs]
      rfl
    obtain ⟨u, hu, hsame⟩ := steps_sameBlock (byteActions v) rest s hr hs hbusy
    rw [byteActions_length] at hu
    have hrun := hsame.trans (runFirst_byte_open v rest s ho ha hn)
    exact ⟨u, hu, hrun.seq, hrun.obs, hrun.dev, hrun.clk⟩

end Sys2Proof
end

section
/-! PROOFS. Whole requests (R156, R157): an accepted request other than SEND_BYTE puts the frames of its operation on
the wire, complete, and the controller takes them; from the frames follow the wire's counts and the display. -/

namespace Sys2Proof

open Machine

/-! ## Frames on the wire -/

/-- The effect of closed frames without a partial byte, one after another. -/
def framesEffect (frames : List (List Byte)) (d : Dev) : Dev := frames.foldl (fun e bytes => frameEffect bytes 0 e) d

/-- From `s` to `u` the wire carried exactly these frames, each without a partial byte and with no clock outside them,
and the controller took them. -/
def Sends (frames : List (List Byte)) (s u : State) : Prop :=
  u.obs.frames = s.obs.frames ++ frames.map (fun bytes => ⟨bytes, 0⟩) ∧ u.obs.stray = s.obs.stray ∧
    u.dev = framesEffect frames s.dev

theorem Sends.refl (s : State) : Sends [] s s := ⟨by simp, rfl, rfl⟩

theorem Sends.trans {fs gs : List (List Byte)} {s t u : State} (h : Sends fs s t) (k : Sends gs t u) :
    Sends (fs ++ gs) s u := by
  obtain ⟨h1, h2, h3⟩ := h
  obtain ⟨k1, k2, k3⟩ := k
  refine ⟨by rw [k1, h1, List.map_append, List.append_assoc], k2.trans h2, ?_⟩
  rw [k3, h3, framesEffect, framesEffect, framesEffect, List.foldl_append]

theorem Sends.of_obs_dev {frames : List (List Byte)} {s t u : State} (h : Sends frames s t) (ho : u.obs = t.obs)
    (hd : u.dev = t.dev) : Sends frames s u := by
  rw [Sends, ho, hd]
  exact h

/-- A frame begun with STB high is sent, and leaves STB high (R109). -/
theorem runFirst_frame_sends (b : Byte) (bs : List Byte) (rest : List SeqItem) {s : State} (hs : s.stb = .high) :
    Sends [b :: bs] s (runFirst (frameActions (b :: bs)) rest s) ∧
      (runFirst (frameActions (b :: bs)) rest s).stb = .high := by
  have h := runFirst_frame b bs rest s hs
  exact ⟨⟨by rw [h.obs]; rfl, by rw [h.obs], h.dev⟩, h.stb⟩

/-- So are frames one after another. -/
theorem runFirst_frames_sends {frames : List (List Byte)} (hne : ∀ bytes ∈ frames, bytes ≠ []) (rest : List SeqItem)
    {s : State} (hs : s.stb = .high) : Sends frames s (runFirst (frames.flatMap frameActions) rest s) := by
  induction frames generalizing s with
  | nil => exact Sends.refl s
  | cons bytes frames ih =>
    obtain ⟨b, bs, rfl⟩ := List.exists_cons_of_ne_nil (hne bytes List.mem_cons_self)
    obtain ⟨hsends, hstb⟩ := runFirst_frame_sends b bs (frames.flatMap frameActions ++ rest) hs
    rw [List.flatMap_cons, runFirst_append]
    exact hsends.trans (ih (fun x hx => hne x (List.mem_cons_of_mem _ hx)) hstb)

/-! ## A request's frames -/

/-- The frames of the rule R81 that a request puts on the wire: SEND_BYTE puts none, nor does ENCODE. -/
def requestFrames : Instr → List (List Byte)
  | .init => [[0x40#8], [0x8F#8]]
  | .sendCommand c => [[c]]
  | .sendData a v => [[addressByte a, v]]
  | .displayNumber d1 d2 dot1 dot2 =>
    match enc d1 dot1, enc d2 dot2 with
    | .ok p1, .ok p2 => [[0x40#8], [0xC0#8, p1], [0xC2#8, p2]]
    | _, _ => []
  | .encode _ _ => []
  | .sendByte _ => []
  | .cmdMode => []
  | .cmdDisplayOn _ => []
  | .addr _ => []
  | .data _ => []

theorem requestFrames_displayNumber {d1 d2 : Digit} {dot1 dot2 : Bool} {p1 p2 : Byte} (h1 : enc d1 dot1 = .ok p1)
    (h2 : enc d2 dot2 = .ok p2) :
    requestFrames (.displayNumber d1 d2 dot1 dot2) = [[0x40#8], [0xC0#8, p1], [0xC2#8, p2]] := by
  simp [requestFrames, h1, h2]

theorem initActions_eq : initActions = [configAction] ++ (requestFrames .init).flatMap frameActions := by
  simp [initActions, requestFrames]

theorem renderActions_eq (p1 p2 : Byte) :
    renderActions p1 p2 = [[0x40#8], [0xC0#8, p1], [0xC2#8, p2]].flatMap frameActions := by
  have h1 : addressByte Config.digit1Addr = 0xC0#8 := by decide
  have h2 : addressByte Config.digit2Addr = 0xC2#8 := by decide
  simp [renderActions, h1, h2]

/-- A digit that has a pattern is at most 10. -/
theorem toNat_le_of_enc {d : Digit} {dot : Bool} {p : Byte} (h : enc d dot = .ok p) : d.toNat ≤ 10 := by
  rcases enc_cases d dot with ⟨-, he⟩ | ⟨hle, -⟩
  · cases he.symm.trans h
  · exact hle

/-- INIT's list: the lines are configured, then the two frames are sent (R105). -/
theorem runFirst_init_sends (s : State) : Sends (requestFrames .init) s (runFirst initActions [] s) := by
  have hconfig := runFirst_config ((requestFrames .init).flatMap frameActions ++ []) s
  have hstart : Sends [] s (runFirst [configAction] ((requestFrames .init).flatMap frameActions ++ []) s) :=
    (Sends.refl s).of_obs_dev hconfig.obs hconfig.dev
  rw [initActions_eq, runFirst_append]
  exact hstart.trans (runFirst_frames_sends (by simp) [] hconfig.stb)

/-- A request that starts a list of frames completes and sends them. -/
theorem completes_sends_of_start {i : Instr} {s : State} {frames : List (List Byte)}
    (hne : ∀ bytes ∈ frames, bytes ≠ []) (he : exec i s = .next (start (frames.flatMap frameActions) s))
    (hr : s.rx = []) (hs : s.stb = .high) : ∃ u, completes i s u ∧ Sends frames s u := by
  obtain ⟨u, hu, hsame⟩ := completes_of_start he hr
  have hsends := runFirst_frames_sends hne [] (s := start (frames.flatMap frameActions) s) hs
  exact ⟨u, hu, Sends.of_obs_dev (s := s) hsends hsame.obs hsame.dev⟩

/-- An accepted request other than SEND_BYTE completes, and sends exactly its frames (R156). -/
theorem completes_sends {i : Instr} {s : State} (h : RunInv s) (hready : ready s) (hi : i.isRequest = true)
    (hc : contractFault s.initialized i = none) (hbyte : ∀ v, i ≠ .sendByte v) :
    ∃ u, completes i s u ∧ Sends (requestFrames i) s u := by
  obtain ⟨hr, hb, -, -⟩ := hready
  rcases exec_request_cases hi s with ⟨c, hfault, -⟩ | ⟨-, ⟨d, dot, p, rfl, -, he⟩ | ⟨rfl, -, he⟩ |
    ⟨hinit, ⟨v, rfl, -⟩ | ⟨c, rfl, he⟩ | ⟨a, v, rfl, he⟩ | ⟨d1, d2, dot1, dot2, p1, p2, rfl, h1, h2, he⟩⟩⟩
  · cases hc.symm.trans hfault
  · exact ⟨_, ⟨_, he, rfl⟩, (Sends.refl s).of_obs_dev rfl rfl⟩
  · obtain ⟨u, hu, hsame⟩ := completes_of_start he hr
    have hsends := runFirst_init_sends (start initActions s.withInitialized)
    exact ⟨u, hu, Sends.of_obs_dev (s := s) hsends hsame.obs hsame.dev⟩
  · exact absurd rfl (hbyte v)
  · obtain ⟨-, hstb, -⟩ := h.at_rest hb hinit
    exact completes_sends_of_start (frames := [[c]]) (by simp) (by simpa using he) hr hstb
  · obtain ⟨-, hstb, -⟩ := h.at_rest hb hinit
    exact completes_sends_of_start (frames := [[addressByte a, v]]) (by simp) (by simpa [dataActions] using he) hr hstb
  · obtain ⟨-, hstb, -⟩ := h.at_rest hb hinit
    rw [requestFrames_displayNumber h1 h2]
    exact completes_sends_of_start (by simp) (renderActions_eq p1 p2 ▸ he) hr hstb

/-- SEND_BYTE completes, with eight clocks outside a frame and none in one (R110, R146). -/
theorem completes_sendByte {s : State} (v : Byte) (h : RunInv s) (hready : ready s) (hinit : s.initialized = true) :
    ∃ u, completes (.sendByte v) s u ∧ u.obs.frames = s.obs.frames ∧ u.obs.stray = s.obs.stray + 8 := by
  obtain ⟨hr, hb, -, -⟩ := hready
  obtain ⟨-, -, -, hopen⟩ := h.at_rest hb hinit
  obtain ⟨u, hu, hsame⟩ := completes_of_start (exec_sendByte v hinit) hr
  have hrun := hsame.trans (runFirst_byte_closed v [] (start (byteActions v) s) hopen)
  exact ⟨u, hu, by rw [hrun.obs]; rfl, by rw [hrun.obs]; rfl⟩

/-! ## The state after a request -/

/-- The invariant is kept by any number of steps. -/
theorem RunInv.steps {s t : State} {n : Nat} (h : RunInv s) (hst : Sys2Proof.steps n s = .next t) : RunInv t := by
  induction n generalizing s with
  | zero =>
    cases hst
    exact h
  | succ n ih =>
    obtain ⟨m, hm⟩ := step_next s
    simp only [Sys2Proof.steps, hm] at hst
    exact ih (h.step hm) hst

/-- After an accepted request's last action the block is ready again, in a state that keeps the invariant, and only INIT
has changed whether it is initialized. -/
theorem completes_ready {i : Instr} {s u : State} (h : RunInv s) (hready : ready s) (hi : i.isRequest = true)
    (hc : contractFault s.initialized i = none) (hu : completes i s u) :
    RunInv u ∧ ready u ∧ (i = .init ∨ s.initialized = true → u.initialized = true) := by
  obtain ⟨hr, hb, hf, hn⟩ := hready
  obtain ⟨t, ht, hsteps⟩ := hu
  have hinv : RunInv t := h.exec hb hf hn hi ht
  obtain ⟨t', ht', hfault, hrefused, hbusy, -, hkeep, -⟩ := exec_of_accepted hi hc
  cases ht.symm.trans ht'
  obtain ⟨u', hu', -, hidle, hrx, hinit, hf', hn', -⟩ :=
    steps_list t.seq [] t hinv.rx_empty (List.append_nil _).symm hbusy
  cases hsteps.symm.trans hu'
  refine ⟨hinv.steps hsteps, ⟨hrx, hidle, hf'.trans (hfault.trans hf), hn'.trans (hrefused.trans hn)⟩, fun hor => ?_⟩
  rw [hinit]
  rcases hor with rfl | hdone
  · have hs : s.initialized = false := by simpa [contractFault] using hc
    cases (exec_init hs).symm.trans ht
    rfl
  · rcases initialized_of_accepted ht hc hkeep with hsame | ⟨-, -, hset⟩
    · exact hsame.trans hdone
    · exact hset

/-- Settles O55: each request sends its frames (`completes_sends`), and SEND_BYTE none. -/
theorem wellFormedOutput : Obligations.WellFormedOutput := by
  have sends : ∀ {s i}, RunInv s → ready s → i.isRequest = true → contractFault s.initialized i = none →
      (∀ v, i ≠ .sendByte v) → ∃ u, completes i s u ∧ u.busy = false ∧
        u.obs.frames = s.obs.frames ++ (requestFrames i).map (fun bytes => ⟨bytes, 0⟩) ∧
        u.obs.stray = s.obs.stray := fun h hready hi hc hbyte => by
    obtain ⟨u, hu, hframes, hstray, -⟩ := completes_sends h hready hi hc hbyte
    obtain ⟨-, ⟨-, hidle, -⟩, -⟩ := completes_ready h hready hi hc hu
    exact ⟨u, hu, hidle, hframes, hstray⟩
  refine ⟨fun s h hready hinit => sends h hready rfl (by simp [contractFault, hinit]) (by simp),
    fun s h hready hinit => ⟨fun v => ?_,
      fun c => sends h hready rfl (by simp [contractFault, hinit]) (by simp),
      fun a v => sends h hready rfl (by simp [contractFault, hinit]) (by simp),
      fun d1 d2 dot1 dot2 p1 p2 h1 h2 => ?_⟩⟩
  · obtain ⟨u, hu, hframes, hstray⟩ := completes_sendByte v h hready hinit
    obtain ⟨-, ⟨-, hidle, -⟩, -⟩ := completes_ready h hready rfl (by simp [contractFault, hinit]) hu
    exact ⟨u, hu, hidle, hframes, hstray⟩
  · have hc : contractFault s.initialized (.displayNumber d1 d2 dot1 dot2) = none := by
      simp [contractFault, hinit, toNat_le_of_enc h1, toNat_le_of_enc h2]
    have hsends := sends h hready rfl hc (by simp)
    rwa [requestFrames_displayNumber h1 h2] at hsends

/-- A request that completes with a clock outside a frame is a SEND_BYTE (R146): a fault and a bus byte perform no
action, and every other request sends its frames. -/
theorem sendByte_of_stray {i : Instr} {s u : State} (h : RunInv s) (hready : ready s) (hu : completes i s u)
    (hne : u.obs.stray ≠ s.obs.stray) : ∃ v, i = .sendByte v := by
  by_contra hbyte
  have hq : s.seq = [] := by
    obtain ⟨-, hb, -⟩ := hready
    exact h.seq_nil hb
  obtain ⟨t, ht, hsteps⟩ := hu
  have performs : t.seq = [] → t.obs ≠ s.obs := fun hnil hobs => by
    rw [hnil] at hsteps
    cases hsteps
    exact hne (congrArg Obs.stray hobs)
  rcases exec_next_cases ht with ⟨-, rfl⟩ | ⟨hi, ⟨c, -, rfl⟩ | ⟨hc, -⟩⟩
  · exact performs hq rfl
  · exact performs hq rfl
  · obtain ⟨u', hu', -, hstray, -⟩ := completes_sends h hready hi hc fun v hv => hbyte ⟨v, hv⟩
    obtain rfl := completes_unique hu' ⟨t, ht, hsteps⟩
    exact hne hstray

/-- Settles O45: the step of an action that is an edge is that edge's, any other leaves observer and controller alone,
and only SEND_BYTE clocks outside a frame. -/
theorem observerEdges : Obligations.ObserverEdges := by
  refine ⟨fun s x rest hr hb hs hl => ?_, fun s x rest hr hb hs hl ho => ?_, fun s x rest hr hb hs hl ho => ?_,
    fun s x rest hr hb hs => step_noEdge hr hb hs (.inl rfl),
    fun s a x rest hr hb hs ha => step_noEdge hr hb hs (.inr ha),
    fun i s u h hready => sendByte_of_stray h hready, ⟨rfl, rfl⟩, fun s h => h.open_iff.1⟩
  · obtain ⟨t, ht, hobs, hdev⟩ := step_obs_dev hr hb hs
    obtain ⟨hobs', hdev'⟩ := acted_strobe_fall hl
    exact ⟨t, ht, hdev.trans hdev', hobs.trans hobs'⟩
  · obtain ⟨t, ht, hobs, hdev⟩ := step_obs_dev hr hb hs
    obtain ⟨hobs', hdev'⟩ := acted_clock_rise_open hl ho
    refine ⟨t, ht, hdev.trans hdev', (hobs.trans hobs').trans ?_⟩
    simp only [Obs.sample, Config.byteBits, beq_iff_eq]
  · obtain ⟨t, ht, hobs, hdev⟩ := step_obs_dev hr hb hs
    obtain ⟨hobs', hdev'⟩ := acted_clock_rise_closed hl ho
    exact ⟨t, ht, hobs.trans hobs', hdev.trans hdev'⟩

end Sys2Proof
end

section
/-! PROOFS. The display (R157): documented requests keep the controller in the documented mode and on, at the brightness
last set, and a render stores its two patterns. -/

namespace Sys2Proof

open Machine

/-! ## What a request's frames make of the controller -/

/-- The controller is in the documented mode and on, at the brightness `b`. -/
def ShowsAt (b : BitVec 3) (d : Dev) : Prop :=
  d.mode = some .writeAutoinc ∧ d.power = some .on ∧ d.bright = some b

/-- An addressed frame of one data byte stores it, in the documented mode (R150, R151). -/
theorem frameEffect_write {d : Dev} {b : Byte} {a : BitVec 4} (v : Byte) (h : decodeFirstByte b = .ok (.addr a))
    (hm : d.mode = some .writeAutoinc) :
    frameEffect [b, v] 0 d = { d with ram := Memory.write d.ram a.toNat v, ptr := some ⟨a.toNat + 1, by omega⟩ } := by
  rw [frameEffect_addressed d h (List.cons_ne_nil v [])]
  exact Dev.setPtr_store_of_mode a v hm

/-- INIT's frames bring the controller into the documented mode, on at full brightness, whatever it was (R105). -/
theorem showsAt_init (d : Dev) : ShowsAt 7#3 (framesEffect (requestFrames .init) d) := ⟨rfl, rfl, rfl⟩

/-- A render's frames store the two patterns at the digits' addresses, and change nothing else that is shown (R124). -/
theorem framesEffect_render {b : BitVec 3} {d : Dev} (p1 p2 : Byte) (h : ShowsAt b d) :
    let e := framesEffect [[0x40#8], [0xC0#8, p1], [0xC2#8, p2]] d
    ShowsAt b e ∧ Memory.read e.ram 0 = some p1 ∧ Memory.read e.ram 2 = some p2 := by
  obtain ⟨hm, hp, hb⟩ := h
  have haddr1 : decodeFirstByte 0xC0#8 = .ok (.addr 0#4) := by decide
  have haddr2 : decodeFirstByte 0xC2#8 = .ok (.addr 2#4) := by decide
  have heffect : framesEffect [[0x40#8], [0xC0#8, p1], [0xC2#8, p2]] d =
      frameEffect [0xC2#8, p2] 0 (frameEffect [0xC0#8, p1] 0 (frameEffect [0x40#8] 0 d)) := rfl
  rw [heffect, frameEffect_mode, frameEffect_write p1 haddr1 (Dev.setMode_mode d), frameEffect_write p2 haddr2 rfl]
  refine ⟨⟨rfl, hp, hb⟩, ?_, Memory.read_write_same _ _ _⟩
  rw [Memory.read_write_other _ _ (by decide)]
  exact Memory.read_write_same _ _ _

theorem decodeFirstByte_of_display : ∀ c : Byte, c.extractLsb' 3 5 = 0b10001#5 →
    decodeFirstByte c = .ok (.cmdDisplayOn (c.extractLsb' 0 3)) := by decide

/-- The frames of a documented request that violates no contract keep the controller in the documented mode and on, and
a display-control command alone changes the brightness (R157). -/
theorem showsAt_requestFrames {i : Instr} {b : BitVec 3} {d : Dev} (hdoc : documented i = true)
    (hc : contractFault true i = none) (h : ShowsAt b d) :
    ShowsAt (brightnessAfter b [i]) (framesEffect (requestFrames i) d) := by
  obtain ⟨hm, hp, hb⟩ := h
  cases i with
  | encode digit dot => exact ⟨hm, hp, hb⟩
  | sendCommand c =>
    simp only [documented, Bool.or_eq_true, beq_iff_eq] at hdoc
    rcases hdoc with rfl | hdisplay
    · exact ⟨rfl, hp, hb⟩
    · have heffect := frameEffect_display d (decodeFirstByte_of_display c hdisplay)
      rw [brightnessAfter, if_pos hdisplay, requestFrames, framesEffect, List.foldl_cons, heffect]
      exact ⟨hm, rfl, rfl⟩
  | sendData a v =>
    have haddr := decodeFirstByte_addr (a.extractLsb' 0 4)
    rw [← addressByte_eq_append] at haddr
    rw [requestFrames, framesEffect, List.foldl_cons, frameEffect_write v haddr hm]
    exact ⟨hm, hp, hb⟩
  | displayNumber d1 d2 dot1 dot2 =>
    rcases enc_cases d1 dot1 with ⟨h1, -⟩ | ⟨-, p1, henc1⟩
    · simp [contractFault, h1] at hc
    rcases enc_cases d2 dot2 with ⟨h2, -⟩ | ⟨-, p2, henc2⟩
    · simp [contractFault, h2] at hc
    rw [requestFrames_displayNumber henc1 henc2]
    exact (framesEffect_render p1 p2 ⟨hm, hp, hb⟩).1
  | init => cases hc
  | _ => cases hdoc

/-! ## A run of documented requests -/

theorem brightnessAfter_cons (b : BitVec 3) (i : Instr) (is : List Instr) :
    brightnessAfter b (i :: is) = brightnessAfter (brightnessAfter b [i]) is := by
  cases i <;> rfl

/-- A documented request is a request, and not SEND_BYTE. -/
theorem isRequest_of_documented {i : Instr} (h : documented i = true) :
    i.isRequest = true ∧ ∀ v, i ≠ .sendByte v := by
  refine ⟨?_, by rintro v rfl; cases h⟩
  cases i with
  | encode | init | sendCommand | sendData | displayNumber => rfl
  | _ => cases h

/-- The host presents nothing, and has nothing to present. -/
def HostDone (s : State) : Prop := s.reqValid = false ∧ noFurtherRequest s

/-- A request's run leaves such a host's port free. -/
theorem completes_hostDone {i : Instr} {s u : State} (hr : s.rx = []) (hi : i.isRequest = true)
    (hc : contractFault s.initialized i = none) (hu : completes i s u) (hw : HostDone s) : HostDone u := by
  obtain ⟨t, ht, hsteps⟩ := hu
  obtain ⟨t', ht', -, -, hbusy, hframe, -⟩ := exec_of_accepted hi hc
  cases ht.symm.trans ht'
  have hdone : t.rx = [] ∧ HostDone t := by
    rw [hframe]
    exact ⟨hr, hw⟩
  obtain ⟨hrx, hv, hnone⟩ := hdone
  obtain ⟨u', hu', hport⟩ := steps_port t.seq [] t hrx (List.append_nil _).symm hbusy hv hnone
  cases hsteps.symm.trans hu'
  exact hport

theorem steps_hostDone {s : State} (hr : s.rx = []) (hb : s.busy = false) (hw : HostDone s) (n : Nat) :
    steps n s = .next s := by
  induction n with
  | zero => rfl
  | succ n ih => simp only [steps, step_idle hr hb hw.1 hw.2, ih]

/-- Documented requests that violate no contract complete one after another, from a ready and initialized block on
(R157). -/
theorem completesAll_documented {is : List Instr} {s : State} {b : BitVec 3} (h : RunInv s) (hready : ready s)
    (hinit : s.initialized = true) (hshow : ShowsAt b s.dev)
    (his : ∀ i ∈ is, documented i = true ∧ contractFault true i = none) :
    ∃ u, completesAll is s u ∧ RunInv u ∧ ready u ∧ u.initialized = true ∧ ShowsAt (brightnessAfter b is) u.dev ∧
      (HostDone s → HostDone u) := by
  induction is generalizing s b with
  | nil => exact ⟨s, rfl, h, hready, hinit, hshow, id⟩
  | cons i is ih =>
    obtain ⟨hdoc, hc⟩ := his i List.mem_cons_self
    obtain ⟨hi, hbyte⟩ := isRequest_of_documented hdoc
    have hc' : contractFault s.initialized i = none := hinit ▸ hc
    obtain ⟨m, hm, -, -, hdev⟩ := completes_sends h hready hi hc' hbyte
    obtain ⟨hinv, hready', hinit'⟩ := completes_ready h hready hi hc' hm
    obtain ⟨u, hu, hinvU, hreadyU, hinitU, hshowU, hhost⟩ := ih hinv hready' (hinit' (.inr hinit))
      (hdev ▸ showsAt_requestFrames hdoc hc hshow) fun j hj => his j (List.mem_cons_of_mem _ hj)
    exact ⟨u, ⟨m, hm, hu⟩, hinvU, hreadyU, hinitU, brightnessAfter_cons b i is ▸ hshowU,
      fun hw => hhost (completes_hostDone hready.1 hi hc' hm hw)⟩

/-- INIT, documented requests and a render complete, and leave the block ready and the display as rendered (R157). -/
theorem completesAll_render {s : State} {rs : List Instr} {d1 d2 : Digit} {dot1 dot2 : Bool} {p1 p2 : Byte}
    (h : RunInv s) (hready : ready s) (hinit : s.initialized = false)
    (hrs : ∀ i ∈ rs, documented i = true ∧ contractFault true i = none) (henc1 : enc d1 dot1 = .ok p1)
    (henc2 : enc d2 dot2 = .ok p2) :
    ∃ u, completesAll (.init :: rs ++ [.displayNumber d1 d2 dot1 dot2]) s u ∧ ready u ∧
      ShowsAt (brightnessAfter 7#3 rs) u.dev ∧ Memory.read u.dev.ram 0 = some p1 ∧ Memory.read u.dev.ram 2 = some p2 ∧
      (HostDone s → HostDone u) := by
  have hc : contractFault s.initialized .init = none := by simp [contractFault, hinit]
  obtain ⟨t, ht, -, -, hdevT⟩ := completes_sends h hready rfl hc (by simp)
  obtain ⟨hinvT, hreadyT, hinitT⟩ := completes_ready h hready rfl hc ht
  obtain ⟨m, hm, hinvM, hreadyM, hinitM, hshowM, hhostM⟩ := completesAll_documented hinvT hreadyT (hinitT (.inl rfl))
    (hdevT ▸ showsAt_init s.dev) hrs
  have hcM : contractFault m.initialized (.displayNumber d1 d2 dot1 dot2) = none := by
    simp [contractFault, hinitM, toNat_le_of_enc henc1, toNat_le_of_enc henc2]
  obtain ⟨u, hu, -, -, hdevU⟩ := completes_sends hinvM hreadyM rfl hcM (by simp)
  obtain ⟨-, hreadyU, -⟩ := completes_ready hinvM hreadyM rfl hcM hu
  rw [requestFrames_displayNumber henc1 henc2] at hdevU
  obtain ⟨hshow, hread1, hread2⟩ := framesEffect_render p1 p2 hshowM
  rw [← hdevU] at hshow hread1 hread2
  exact ⟨u, ⟨t, ht, completesAll_append hm ⟨u, hu, rfl⟩⟩, hreadyU, hshow, hread1, hread2, fun hw =>
    completes_hostDone hreadyM.1 rfl hcM hu (hhostM (completes_hostDone hready.1 rfl hc ht hw))⟩

/-- Settles O57: the run exists (`completesAll_render`), no other state completes it, and an idle block with a host that
presents nothing stays as it is. -/
theorem displayAfterRender : Obligations.DisplayAfterRender := by
  intro s rs d1 d2 dot1 dot2 h hready hinit hrs h1 h2
  obtain ⟨p1, henc1⟩ := enc_ok dot1 h1
  obtain ⟨p2, henc2⟩ := enc_ok dot2 h2
  obtain ⟨u, hu, ⟨hrx, hidle, hfault, -⟩, ⟨hmode, hpower, hbright⟩, hread1, hread2, hhost⟩ :=
    completesAll_render h hready hinit hrs henc1 henc2
  refine ⟨⟨u, hu⟩, fun v hv => ?_⟩
  obtain rfl := completesAll_unique hu hv
  have himage : ∀ a, u.dev.image a = u.dev.ram.read a.toNat := fun a => by simp [Dev.image, hpower]
  exact ⟨hidle, hfault, hmode, hpower, hbright, p1, p2, henc1, henc2, hread1, hread2, (himage _).trans hread1,
    (himage _).trans hread2, fun hv hw => hhost ⟨hv, hw⟩, fun hv hw => steps_hostDone hrx hidle ⟨hv, hw⟩⟩

end Sys2Proof
end

section
/-! PROOFS. Faults, refusals and what is held: what a step makes of a request at the port of a busy, a ready and a
stopped block (R170 to R177), of an idle block (R189), and of the requests that wait at the host (R187). -/

namespace Sys2Proof

open Machine

/-! ## A request that violates its contract -/

/-- Settles O22: either digit out of range is the encoder's one error. -/
theorem digitRangeFault : Obligations.DigitRangeFault :=
  ⟨fun s _ dot hd => exec_encode_fault dot s hd, fun _ _ _ dot1 dot2 hi hd => exec_displayNumber_fault dot1 dot2 hi hd⟩

/-- Settles O23: NOT_INIT is the contract violation of each driver request before INIT, ENCODE in range is accepted, and
the invariant has no line configured before INIT. -/
theorem notInitFault : Obligations.NotInitFault := by
  refine ⟨fun s hi => ?_, fun s h hi => h.undriven (h.before_init hi).1⟩
  have fault : ∀ i, contractFault s.initialized i = some .notInit → exec i s = .next { s with fault := .notInit } :=
    fun i hc => exec_of_contractFault hc
  refine ⟨fun v => fault _ ?_, fun c => fault _ ?_, fun a v => fault _ ?_, fun d1 d2 dot1 dot2 => fault _ ?_,
    fun d dot hd => ?_⟩
  case refine_5 =>
    obtain ⟨p, hp⟩ := enc_ok dot hd
    exact ⟨_, exec_encode s hp, rfl⟩
  all_goals simp [contractFault, hi]

/-- Settles O26: a violation changes `fault` alone (`exec_of_contractFault`), and of the things an instruction can do
(`exec_next_cases`) no other changes `fault`. -/
theorem faultChangesFaultOnly : Obligations.FaultChangesFaultOnly := by
  refine ⟨⟨rfl, rfl, rfl, rfl⟩, fun s => rfl, fun i s c hc => exec_of_contractFault hc, fun i s t he hne => ?_⟩
  rcases exec_next_cases he with ⟨-, rfl⟩ | ⟨-, ⟨c, hc, rfl⟩ | ⟨-, hfault, -⟩⟩
  · exact absurd rfl hne
  · exact ⟨hc, rfl⟩
  · exact absurd hfault hne

/-! ## A presented request -/

/-- While the block is busy its step holds the presented request and keeps the flags and the result (R60, R176). -/
theorem step_holds_request {s : State} (hr : s.rx = []) (hb : s.busy = true) (hv : s.reqValid = true) :
    ∃ t, step s = .next t ∧ t.reqValid = true ∧ t.reqWord = s.reqWord ∧ sameFlags s t := by
  rcases hs : s.seq with _ | ⟨m, rest⟩
  · refine ⟨s, ?_, hv, rfl, rfl, rfl, rfl, rfl⟩
    rw [step_of_busy hr hb, hostPresent_of_valid hv, sequencerStep_nil hr hs]
  · obtain ⟨t, -, ht, -, -, -, -, -, -, hflags, hheld⟩ := sequencerStep s m rest hr hb hs
    exact ⟨t, ht, (hheld hv).1, (hheld hv).2, hflags⟩

/-- A ready block refuses a presented word that is reserved (R172). -/
theorem step_refuses {s : State} {r : Reject} (h : ready s) (hv : s.reqValid = true)
    (hd : decodeRequest s.reqWord = .error r) : step s = .next { s with reqValid := false, refused := true } := by
  have hp := hostPresent_of_valid hv
  rw [step_of_ready h (hp.symm ▸ hv), hp, acceptRequest, hd]
  rfl

/-- A ready block faults on a presented request that violates its contract (R171). -/
theorem step_faults {s : State} {i : Instr} {c : FaultCode} (h : ready s) (hv : s.reqValid = true)
    (hd : decodeRequest s.reqWord = .ok i) (hc : contractFault s.initialized i = some c) :
    step s = .next { s with reqValid := false, fault := c } := by
  rw [stepRunsRequest.2 s i h hv hd]
  exact exec_of_contractFault hc

/-- Settles O24: REINIT is INIT's contract violation after INIT, at a ready port too; a busy block holds the request. -/
theorem reinitFault : Obligations.ReinitFault := by
  have hd : decodeRequest 0x200000#24 = .ok .init := by decide
  refine ⟨fun s hi => exec_init_fault hi, fun s h hi hv hw => ⟨false, ?_⟩, fun s hr hb hv hw => ?_⟩
  · exact step_faults h hv (hw ▸ hd) (by simp [contractFault, hi])
  · obtain ⟨t, ht, hvalid, hword, -, hfault, -⟩ := step_holds_request hr hb hv
    exact ⟨t, ht, hvalid, hword.trans hw, hfault⟩

/-- Settles O25: a busy block holds the request, and at a ready block the decoder's answer and then the request's
contract tell refusal, fault and acceptance apart. -/
theorem requestOutcomes : Obligations.RequestOutcomes := by
  refine ⟨fun s hr hb hv => step_holds_request hr hb hv, fun s h hv =>
    ⟨fun r hd => ⟨false, step_refuses h hv hd⟩,
      fun i hd => ⟨fun c hc => ⟨false, step_faults h hv hd hc⟩, fun hc => ⟨false, ?_⟩⟩, fun hi hw => ⟨false, ?_⟩⟩⟩
  · have ⟨_, _, hfault, hrefused⟩ := h
    obtain ⟨t, he, htf, htr, hbusy, -⟩ :=
      exec_of_accepted (s := { s with reqValid := false }) (decodeRequest_isRequest hd) hc
    exact ⟨t, (stepRunsRequest.2 s i h hv hd).trans he, he, htf.trans hfault, htr.trans hrefused,
      by simp [hbusy, busyWith]⟩
  · have hd : decodeRequest 0xA0000B#24 = .ok (.displayNumber 11#4 0#4 false false) := by decide
    exact step_faults h hv (hw ▸ hd) (by simp [contractFault, hi])

/-- Settles O28. -/
theorem stepAlwaysAnswers : Obligations.StepAlwaysAnswers := ⟨step_next, exec_next⟩

/-! ## A stopped block and an idle one -/

theorem stopped_iff (s : State) : s.stopped = true ↔ s.fault ≠ .none ∨ s.refused = true := by
  simp [State.stopped]

/-- A stopped block takes no request (R177). -/
theorem reqReady_of_stopped {s : State} (h : s.stopped = true) : s.reqReady = false := by
  rcases (stopped_iff s).1 h with hf | hn
  · simp [State.reqReady, hf]
  · simp [State.reqReady, hn]

/-- A run that has stopped has not ended well (R204). -/
theorem not_endsWell_of_stopped {s : State} (h : s.stopped = true) : ¬ endsWell s := by
  rintro ⟨-, -, hfault, hrefused⟩
  simp [State.stopped, hfault, hrefused] at h

/-- The step of a stopped block is the host's turn and nothing more. -/
theorem step_stopped {s : State} (hr : s.rx = []) (hb : s.busy = false) (h : s.stopped = true) :
    step s = .next (hostPresent s) := by
  have hp := sameBlock_hostPresent s
  have hstop : (hostPresent s).stopped = true := by simpa [State.stopped, hp.fault, hp.refused] using h
  simp [step, stepState, hr, blockStep, hp.busy, hb, State.accepts, reqReady_of_stopped hstop]

/-- `u` is `s` but for the host's side: the port, the requests still to present and the draws. -/
def SameButHost (s u : State) : Prop :=
  u = { s with reqValid := u.reqValid, reqWord := u.reqWord, hostBlink := u.hostBlink, hostInput := u.hostInput,
               draws := u.draws }

theorem sameButHost_hostPresent (s : State) : SameButHost s (hostPresent s) := by
  obtain ⟨v, w, b, i, n, hp⟩ := hostPresent_frame s
  rw [hp]
  rfl

theorem SameButHost.trans {s t u : State} (h : SameButHost s t) (k : SameButHost t u) : SameButHost s u := by
  rw [SameButHost] at *
  rw [h] at k
  exact k

theorem SameButHost.stopped {s u : State} (h : SameButHost s u) : u.stopped = s.stopped := by
  rw [h]
  rfl

/-- A stopped block stays so for any number of steps, and its port holds what is presented (R177). -/
theorem steps_stopped {s : State} (hr : s.rx = []) (hb : s.busy = false) (h : s.stopped = true) (n : Nat) :
    ∃ u, steps n s = .next u ∧ SameButHost s u ∧ (s.reqValid = true → u = s) := by
  induction n generalizing s with
  | zero => exact ⟨s, rfl, rfl, fun _ => rfl⟩
  | succ n ih =>
    have hp := sameBlock_hostPresent s
    have hturn := sameButHost_hostPresent s
    obtain ⟨u, hu, hsame, hheld⟩ := ih (hp.rx.trans hr) (hp.busy.trans hb) (hturn.stopped.trans h)
    refine ⟨u, by simp only [steps, step_stopped hr hb h, hu], hturn.trans hsame, fun hv => ?_⟩
    rw [hostPresent_of_valid hv] at hheld
    exact hheld hv

/-- Settles O27: a stopped block's steps are the host's turns (`steps_stopped`), and only the acceptance of a request,
which a stopped block does not reach, changes `fault` or `refused`. -/
theorem stoppedForGood : Obligations.StoppedForGood := by
  refine ⟨fun s hr hb h n => ?_, fun s t h hst => ?_⟩
  · obtain ⟨u, hu, hsame, hheld⟩ := steps_stopped hr hb h n
    have hstop : u.stopped = true := hsame.stopped.trans h
    refine ⟨u, hu, reqReady_of_stopped hstop, hsame, not_endsWell_of_stopped hstop, fun hv => ?_⟩
    obtain rfl := hheld hv
    exact ⟨hv, rfl⟩
  · rcases step_takes_or_flags_kept h.rx_empty hst with ⟨-, -, hf, hn, -⟩ | ⟨⟨-, hfault, hrefused, -⟩, -⟩
    · simp [hf, hn]
    · exact ⟨fun _ => hfault, hrefused.trans⟩

/-- Settles O34: the steps by `steps_hostDone`, the levels by the invariant. -/
theorem idleHolds : Obligations.IdleHolds := fun _ hr hb hv hblink hinput =>
  ⟨steps_hostDone hr hb ⟨hv, hblink, hinput⟩, fun h hc => h.idle_high hb hc⟩

/-! ## The host's turn -/

/-- With both tasks waiting, the free value picks the request (R187). -/
theorem hostPresent_of_both {s : State} {w v : ReqWord} {ws vs : List ReqWord} (hv : s.reqValid = false)
    (hblink : s.hostBlink = w :: ws) (hinput : s.hostInput = v :: vs) :
    hostPresent s =
      if Config.pickBlink s.draws then
        { s with reqValid := true, reqWord := w, hostBlink := ws, draws := s.draws + 1 }
      else { s with reqValid := true, reqWord := v, hostInput := vs, draws := s.draws + 1 } := by
  simp [hostPresent, hv, hblink, hinput]

/-- Settles O59, by which of the two lists hold a request. -/
theorem hostOrderOpen : Obligations.HostOrderOpen := by
  refine fun s => ⟨hostPresent_of_valid, fun hv => ?_, fun w ws v vs => hostPresent_of_both⟩
  rcases hblink : s.hostBlink with _ | ⟨w, ws⟩ <;> rcases hinput : s.hostInput with _ | ⟨v, vs⟩
  · exact .inl ⟨rfl, rfl, hostPresent_idle hblink hinput⟩
  · exact .inr (.inr ⟨v, vs, s.draws, rfl, by simp [hostPresent, hv, hblink, hinput]⟩)
  · exact .inr (.inl ⟨w, ws, s.draws, rfl, by simp [hostPresent, hv, hblink, hinput]⟩)
  · rw [hostPresent_of_both hv hblink hinput]
    split
    · exact .inr (.inl ⟨w, ws, s.draws + 1, rfl, by rw [← hinput]⟩)
    · exact .inr (.inr ⟨v, vs, s.draws + 1, rfl, by rw [← hblink]⟩)

end Sys2Proof
end

section
/-! PROOFS. Durations and the end of a run: the delays of a request's list and their minima (R203), the number of
actions after which a run has ended (R204), and the source's host, which keeps the contract (R197, R199, R206). -/

namespace Sys2Proof

open Machine

/-! ## The delays of a list -/

/-- The list has `n` delays, of `T_MIN` each (R194). -/
def TMinDelays (l : List PinAction) (n : Nat) : Prop := delayCount l = n ∧ minDuration l = 10 * n

@[simp] theorem delayCount_append (p q : List PinAction) : delayCount (p ++ q) = delayCount p + delayCount q := by
  induction p with
  | nil => simp [delayCount]
  | cons a p ih =>
    cases a <;> simp [delayCount, ih, Nat.add_right_comm]

@[simp] theorem minDuration_append (p q : List PinAction) :
    minDuration (p ++ q) = minDuration p + minDuration q := by
  induction p with
  | nil => simp [minDuration]
  | cons a p ih =>
    cases a <;> simp [minDuration, ih, Nat.add_assoc]

theorem TMinDelays.append {p q : List PinAction} {m n : Nat} (hp : TMinDelays p m) (hq : TMinDelays q n) :
    TMinDelays (p ++ q) (m + n) := by
  obtain ⟨hpc, hpd⟩ := hp
  obtain ⟨hqc, hqd⟩ := hq
  exact ⟨by rw [delayCount_append, hpc, hqc], by rw [minDuration_append, hpd, hqd, Nat.mul_add]⟩

theorem TMinDelays.flatMap {α : Type} {f : α → List PinAction} {n : Nat} (h : ∀ a, TMinDelays (f a) n)
    (l : List α) : TMinDelays (l.flatMap f) (n * l.length) := by
  induction l with
  | nil => exact ⟨rfl, rfl⟩
  | cons a l ih =>
    rw [List.flatMap_cons, List.length_cons, Nat.mul_succ, Nat.add_comm]
    exact (h a).append ih

/-- Each of the three phases of a bit ends with a delay (R108). -/
theorem tMinDelays_bitPins (b : Bool) : TMinDelays (bitPins b) 3 := ⟨rfl, rfl⟩

theorem tMinDelays_pinsOfByte (v : Byte) : TMinDelays (pinsOfByte v) 24 :=
  .flatMap (fun i => tMinDelays_bitPins (v.getLsbD i)) (List.range 8)

/-- A frame has its bytes' delays and the one that settles its strobe rise (R109). -/
theorem tMinDelays_pinsOfFrame (bytes : List Byte) : TMinDelays (pinsOfFrame bytes) (24 * bytes.length + 1) := by
  have hfall : TMinDelays [.setPin .stb false] 0 := ⟨rfl, rfl⟩
  have hrise : TMinDelays [.setPin .stb true, .delayAtLeast 10] 1 := ⟨rfl, rfl⟩
  simpa [pinsOfFrame] using (hfall.append (.flatMap tMinDelays_pinsOfByte bytes)).append hrise

theorem tMinDelays_frameActions (bytes : List Byte) :
    TMinDelays (pins (frameActions bytes)) (24 * bytes.length + 1) :=
  pins_frameActions bytes ▸ tMinDelays_pinsOfFrame bytes

/-- INIT's two frames have one byte each, and configuring the lines takes no delay (R105). -/
theorem tMinDelays_initActions : TMinDelays (pins initActions) 50 := by
  have hconfig : TMinDelays [.configIdle] 0 := ⟨rfl, rfl⟩
  rw [pins_initActions]
  exact hconfig.append ((tMinDelays_pinsOfFrame [0x40#8]).append (tMinDelays_pinsOfFrame [0x8F#8]))

/-- A render's three frames have one, two and two bytes (R124). -/
theorem tMinDelays_renderActions (p1 p2 : Byte) : TMinDelays (pins (renderActions p1 p2)) 123 := by
  rw [pins_renderActions]
  exact ((tMinDelays_pinsOfFrame [0x40#8]).append (tMinDelays_pinsOfFrame [0xC0#8, p1])).append
    (tMinDelays_pinsOfFrame [0xC2#8, p2])

/-! ## The length of a list -/

theorem initActions_length : initActions.length = 103 := by simp [initActions, frameActions_length]

theorem dataActions_length (addr value : Byte) : (dataActions addr value).length = 99 :=
  frameActions_length [addressByte addr, value]

theorem renderActions_length (p1 p2 : Byte) : (renderActions p1 p2).length = 249 := by
  simp [renderActions, frameActions_length]

/-- Settles O15: each request starts its list, whose entries and whose delays of `T_MIN` are counted above. -/
theorem minimumDurations : Obligations.MinimumDurations := by
  refine ⟨fun s d dot hd => ?_, fun s hi => ⟨_, exec_init hi, initActions_length, tMinDelays_initActions⟩,
    fun s hi => ⟨fun v => ⟨_, exec_sendByte v hi, byteActions_length v, ?_⟩,
      fun c => ⟨_, exec_sendCommand c hi, frameActions_length [c], tMinDelays_frameActions [c]⟩,
      fun a v => ⟨_, exec_sendData a v hi, dataActions_length a v, tMinDelays_frameActions [addressByte a, v]⟩,
      fun d1 d2 dot1 dot2 h1 h2 => ?_⟩⟩
  · obtain ⟨p, hp⟩ := enc_ok dot hd
    exact ⟨_, exec_encode s hp, rfl⟩
  · exact pins_byteActions v ▸ tMinDelays_pinsOfByte v
  · obtain ⟨p1, hp1⟩ := enc_ok dot1 h1
    obtain ⟨p2, hp2⟩ := enc_ok dot2 h2
    exact ⟨_, exec_displayNumber hi hp1 hp2, renderActions_length p1 p2, tMinDelays_renderActions p1 p2⟩

/-! ## The end of a run -/

/-- A request leaves the list alone, which is a fault, or starts one of at most 249 actions, a render's. -/
theorem exec_request_seq_length {i : Instr} {s t : State} (hi : i.isRequest = true) (he : exec i s = .next t) :
    t.seq = s.seq ∨ t.seq.length ≤ 249 := by
  have started : ∀ {q : List SeqItem} {u : State}, exec i s = .next (start q u) → q.length ≤ 249 →
      t.seq = s.seq ∨ t.seq.length ≤ 249 := fun hs hq => by
    cases hs.symm.trans he
    exact .inr hq
  rcases exec_request_cases hi s with ⟨c, -, hs⟩ | ⟨-, ⟨d, dot, p, -, -, hs⟩ | ⟨-, -, hs⟩ |
    ⟨-, ⟨v, -, hs⟩ | ⟨c, -, hs⟩ | ⟨a, v, -, hs⟩ | ⟨d1, d2, dot1, dot2, p1, p2, -, -, -, hs⟩⟩⟩
  · cases hs.symm.trans he
    exact .inl rfl
  · exact started hs (Nat.zero_le _)
  · exact started hs (by simp [initActions_length])
  · exact started hs (by simp [byteActions_length])
  · exact started hs (by simp [frameActions_length])
  · exact started hs (by simp [dataActions_length])
  · exact started hs (by simp [renderActions_length])

/-- Before the last entry of its list the block is still busy. -/
theorem steps_busy {s : State} (hr : s.rx = []) (hb : s.busy = busyWith s.seq) {n : Nat} (hn : n < s.seq.length) :
    ∃ v, steps n s = .next v ∧ v.busy = true := by
  obtain ⟨v, hv, -, hbusy, -⟩ :=
    steps_list (s.seq.take n) (s.seq.drop n) s hr (List.take_append_drop n s.seq).symm hb
  rw [List.length_take_of_le hn.le] at hv
  exact ⟨v, hv, by simpa [busyWith, hbusy] using hn⟩

theorem endsWell_of_not_stopped {s : State} (hb : s.busy = false) (h : s.stopped = false)
    (hw : s.reqValid = false ∨ noFurtherRequest s) : endsWell s := by
  have hflags : s.fault = .none ∧ s.refused = false := by simpa [State.stopped] using h
  exact ⟨hb, hw, hflags⟩

/-- Settles O58: the steps of a whole list perform it (`steps_list`), those of a part leave some of it
(`steps_busy`), and a fault of a ready block finds the list empty. -/
theorem busyFalls : Obligations.BusyFalls := by
  refine ⟨fun s => Iff.rfl, fun s h => not_endsWell_of_stopped ((stopped_iff s).2 h),
    fun s t i h hready hi he => ?_, fun s hr hb => ?_⟩
  · obtain ⟨-, hidle, -, -⟩ := hready
    rcases exec_request_seq_length hi he with hsame | hle
    · simp [hsame, h.seq_nil hidle]
    · exact hle
  · have hbusy : s.busy = busyWith s.seq := by
      rw [Bool.eq_iff_iff, hb]
      simp [busyWith]
    obtain ⟨u, hu, hseq, hidle, -, hflags⟩ := steps_list s.seq [] s hr (List.append_nil _).symm hbusy
    have hstop : u.stopped = s.stopped := by
      obtain ⟨-, hfault, hrefused, -⟩ := hflags
      simp [State.stopped, hfault, hrefused]
    exact ⟨u, hu, hidle, hseq, hflags, fun hs => endsWell_of_not_stopped hidle (hstop.trans hs),
      fun n hn => steps_busy hr hbusy hn⟩

/-! ## The source's host -/

/-- A render of digits up to 10 keeps the contract after INIT. -/
theorem contractFault_displayNumber {d1 d2 : Digit} (dot1 dot2 : Bool) (h1 : d1.toNat ≤ 10) (h2 : d2.toNat ≤ 10) :
    contractFault true (.displayNumber d1 d2 dot1 dot2) = none := by
  simp [contractFault, h1, h2]

/-- A number up to 99 has two decimal digits, each below 10 (R199). -/
theorem contractFault_renderRequest {number : Nat} (dot1 dot2 : Bool) (h : number ≤ 99) :
    contractFault true (renderRequest number dot1 dot2) = none := by
  have htens : (BitVec.ofNat 4 (number / 10)).toNat ≤ 10 := by
    rw [BitVec.toNat_ofNat]
    omega
  have hunits : (BitVec.ofNat 4 (number % 10)).toNat ≤ 10 := by
    rw [BitVec.toNat_ofNat]
    omega
  exact contractFault_displayNumber dot1 dot2 htens hunits

/-- Settles O60: besides INIT the host issues renders, of a number or of blanks, and their digits are in range. -/
theorem sourceHostRespectsContract : Obligations.SourceHostRespectsContract := by
  refine ⟨fun number dot1 dot2 h => contractFault_renderRequest dot1 dot2 h, fun i hi hn => ?_, rfl⟩
  rcases hi with rfl | ⟨number, dot1, dot2, h, rfl⟩ | ⟨dot1, dot2, rfl⟩
  · exact absurd rfl hn
  · exact contractFault_renderRequest dot1 dot2 h
  · exact contractFault_displayNumber dot1 dot2 (by decide) (by decide)

end Sys2Proof
end
